-- ==== Sys2Proof/Word.lean ====
section
/-! DEFINITION. The value types of the block: bytes, the two register widths, the reals, block coordinates and AC pairs
(spec 00_scope R9, R10, R13; 10_state section 2). -/

namespace Sys2Proof

/-- One byte (00_scope R9): command words, run lengths, memory bytes. -/
abbrev Byte := BitVec 8

/-- 16 bits: an `int16` by its two's complement value (`BitVec.toInt`), or the `uint16` pair count (00_scope R10). -/
abbrev Half := BitVec 16

/-- 32 bits, the width of every control register but CMD (10_state section 4). -/
abbrev Word := BitVec 32

/-- An exact number of the field of the rationals with `2cos(π/16)` added:
`k0 + k1·(2cos π/16) + k2·(2cos 2π/16) + … + k7·(2cos 7π/16)`. Rationals have only `k0`; each entry of the basis matrix
of 40_transform R110 is ± one of these cosines over 4. -/
structure Alg where
  k0 : ℚ
  k1 : ℚ
  k2 : ℚ
  k3 : ℚ
  k4 : ℚ
  k5 : ℚ
  k6 : ℚ
  k7 : ℚ
deriving DecidableEq, Repr, Inhabited

/-- `Real`, the element type of XB, CB and QT (00_scope R10, R13), as plain data: an exact number, a real number known
by name, or a sum or product of such. Under the reference instance name `n` stands for `Config.reals.named n`, any real
number at all (10_state R22: "XB accepts any `Real`"); how a value of another NUMERICS is written is log 2.
DESIGN CHOICE (notes/assumptions/1.md): one real number can be written in several ways, which are different data. -/
inductive XReal where
  | alg (a : Alg)
  | named (n : Nat)
  | sum (x y : XReal)
  | prod (x y : XReal)
deriving DecidableEq, Repr, Inhabited

/-- A block position `(row, col)`, each 0 to 7 (10_state R28). -/
structure Coord where
  row : Fin 8
  col : Fin 8
deriving DecidableEq, Repr, Inhabited

/-- One AC pair `(zero_run_length, value)` of an Encoded Block Record (10_state R26). -/
structure AcPair where
  run : Byte
  val : Half
deriving DecidableEq, Repr, Inhabited

/-- An 8×8 block of `Real`, entry `(i, j)` at index `8 * i + j` (10_state R22, R23, R37). -/
abbrev RealBlock := Vector XReal 64

/-- 64 `int16` values: QB by index `8 * i + j`, ZB by index `k` (10_state R24, R25, R37). -/
abbrev IntBlock := Vector Half 64

end Sys2Proof
end

