-- ==== Sys2Proof/Syntax.lean ====
section
/-! DEFINITION. The instruction set: one constructor per row of spec/opcode_table.json, the 19 commands of
30_encoding R82 and the 4 container units of 30_encoding R84 to R87. -/

namespace Sys2Proof

/-- A command of format `C8` (no operands: every operand is a fixed buffer or register, 30_encoding R80), or a
container unit with its fields. -/
inductive Instr where
  /-- 0x00 (46_system_ops R191) -/
  | nop
  /-- 0x01 (40_transform R112) -/
  | fdct
  /-- 0x02 (40_transform R114) -/
  | idct
  /-- 0x03 (41_quantization R125) -/
  | quant
  /-- 0x04 (41_quantization R126) -/
  | dequant
  /-- 0x05 (42_zigzag R132) -/
  | zzfwd
  /-- 0x06 (42_zigzag R133) -/
  | zzinv
  /-- 0x07 (43_rle_block_codec R142) -/
  | rleenc
  /-- 0x08 (43_rle_block_codec R143) -/
  | rledec
  /-- 0x09 (44_block_pipeline R150) -/
  | encblk
  /-- 0x0A (44_block_pipeline R151) -/
  | decblk
  /-- 0x10 (45_container R161) -/
  | wrhdr
  /-- 0x11 (45_container R162) -/
  | wrchn
  /-- 0x12 (45_container R163) -/
  | wrrec
  /-- 0x18 (45_container R165) -/
  | rdhdr
  /-- 0x19 (45_container R166) -/
  | rdchn
  /-- 0x1A (45_container R167) -/
  | rdrec
  /-- 0x1E (46_system_ops R192) -/
  | clrerr
  /-- 0x1F (46_system_ops R194) -/
  | srst
  /-- Container unit HDR, 16 bytes: the magic tag and three fields (30_encoding R85). -/
  | hdr (height width channels : Word)
  /-- Container unit CHN, 4 bytes: a block count (30_encoding R86). -/
  | chn (blocks : Word)
  /-- Container unit REC, 4 + 3n bytes: dc, the pair count n and n pairs (30_encoding R87). -/
  | record (dc : Half) (ac : List AcPair)
  /-- Container unit PAIR, 3 bytes, a part of REC (30_encoding R87). -/
  | pair (run : Byte) (val : Half)
deriving DecidableEq, Repr

/-- The encodings of the block: the command word and the four container units (30_encoding R80, R84). A unit is
recognised by the command that reads it, not by its bits, so decoding takes the format as an argument. -/
inductive Format where
  | c8
  | hdr
  | chn
  | record
  | pair
deriving DecidableEq, Repr

/-- The format of an instruction: the "format" column of spec/opcode_table.json, PAIR being the part of REC. -/
def Instr.format : Instr → Format
  | .hdr _ _ _ => .hdr
  | .chn _ => .chn
  | .record _ _ => .record
  | .pair _ _ => .pair
  | .nop | .fdct | .idct | .quant | .dequant | .zzfwd | .zzinv | .rleenc | .rledec | .encblk | .decblk => .c8
  | .wrhdr | .wrchn | .wrrec | .rdhdr | .rdchn | .rdrec | .clrerr | .srst => .c8

end Sys2Proof
end

