-- ==== Sys2Proof/WellFormed.lean ====
section
/-! DEFINITION. Which instructions have an encoding: every field has its width by type, so the one check is that a
record's pair count fits its 2-byte field (10_state R26: REC_CAP; 45_container R160). -/

namespace Sys2Proof

/-- `REC_CAP`, the largest pair count the 2-byte field can carry (10_state R26). -/
def recCap : Nat := 65535

/-- The instruction can be encoded. -/
def Instr.wf : Instr → Bool
  | .record _ ac => decide (ac.length ≤ recCap)
  | .hdr _ _ _ | .chn _ | .pair _ _ => true
  | .nop | .fdct | .idct | .quant | .dequant | .zzfwd | .zzinv | .rleenc | .rledec | .encblk | .decblk => true
  | .wrhdr | .wrchn | .wrrec | .rdhdr | .rdchn | .rdrec | .clrerr | .srst => true

/-- The length in bytes of an instruction's encoding (30_encoding R80, R85, R86, R87, R89). -/
def Instr.size : Instr → Nat
  | .hdr _ _ _ => 16
  | .chn _ => 4
  | .record _ ac => 4 + 3 * ac.length
  | .pair _ _ => 3
  | .nop | .fdct | .idct | .quant | .dequant | .zzfwd | .zzinv | .rleenc | .rledec | .encblk | .decblk => 1
  | .wrhdr | .wrchn | .wrrec | .rdhdr | .rdchn | .rdrec | .clrerr | .srst => 1

end Sys2Proof
end

