-- ==== Sys2Proof/Decode.lean ====
section
/-! DEFINITION. The decoder, total on any bytes and rejecting by name, and after it the encoder (30_encoding R81 to
R91; 20_memory R54). Byte order and sign extension are decided here, once. -/

namespace Sys2Proof

/-- Why bytes are not an instruction of a format. -/
inductive DecodeError where
  /-- The word is none of the 19 command codes (30_encoding R83). -/
  | illegalWord
  /-- The first four bytes of a header are not "JQZ1" (30_encoding R91). -/
  | badMagic
  /-- A field extends past the bytes there are (30_encoding R91). -/
  | truncated
deriving DecidableEq, Repr

/-- `REC`-style little-endian assembly: `B[0] + 256·B[1] + 65536·B[2] + …` (30_encoding R85 to R88). -/
def leNat : List Byte → Nat
  | [] => 0
  | b :: bs => b.toNat + 256 * leNat bs

/-- The low `8n` bits of `v` as `n` bytes, least significant first (20_memory R53, R54). -/
def leBytes : Nat → Nat → List Byte
  | 0, _ => []
  | n + 1, v => BitVec.ofNat 8 v :: leBytes n (v / 256)

/-- The magic tag "JQZ1" as bytes in address order (30_encoding R85). -/
def magicBytes : List Byte := [0x4A#8, 0x51#8, 0x5A#8, 0x31#8]

/-- The magic tag read as one little-endian number (30_encoding R85; 45_container R165). -/
def magicNat : Nat := 0x315A514A

/-- The command of a word written to CMD, none for the 237 illegal words (30_encoding R81 to R83). -/
def decodeCommand (c : Byte) : Option Instr :=
  match c.toNat with
  | 0x00 => some .nop
  | 0x01 => some .fdct
  | 0x02 => some .idct
  | 0x03 => some .quant
  | 0x04 => some .dequant
  | 0x05 => some .zzfwd
  | 0x06 => some .zzinv
  | 0x07 => some .rleenc
  | 0x08 => some .rledec
  | 0x09 => some .encblk
  | 0x0A => some .decblk
  | 0x10 => some .wrhdr
  | 0x11 => some .wrchn
  | 0x12 => some .wrrec
  | 0x18 => some .rdhdr
  | 0x19 => some .rdchn
  | 0x1A => some .rdrec
  | 0x1E => some .clrerr
  | 0x1F => some .srst
  | _ => none

/-- An `n`-byte field from the front of the bytes, or `truncated` (20_memory R52; 45_container R164). -/
def decodeField (n : Nat) (bs : List Byte) : Except DecodeError (Nat × List Byte) :=
  if bs.length < n then .error .truncated else .ok (leNat (bs.take n), bs.drop n)

/-- One PAIR: a run byte and a 2-byte value (30_encoding R87). -/
def decodePair (bs : List Byte) : Except DecodeError (AcPair × List Byte) := do
  let (r, bs) ← decodeField 1 bs
  let (v, bs) ← decodeField 2 bs
  return (⟨BitVec.ofNat 8 r, BitVec.ofNat 16 v⟩, bs)

/-- `n` PAIRs one after another (30_encoding R84). -/
def decodePairs : Nat → List Byte → Except DecodeError (List AcPair × List Byte)
  | 0, bs => .ok ([], bs)
  | n + 1, bs => do
    let (p, bs) ← decodePair bs
    let (ps, bs) ← decodePairs n bs
    return (p :: ps, bs)

/-- A header: the length test on the magic field, its comparison, then the three fields (30_encoding R85; the order
of the tests is 45_container R164's). -/
def decodeHdr (bs : List Byte) : Except DecodeError (Instr × List Byte) := do
  let (m, bs) ← decodeField 4 bs
  if m ≠ magicNat then throw .badMagic
  let (h, bs) ← decodeField 4 bs
  let (w, bs) ← decodeField 4 bs
  let (c, bs) ← decodeField 4 bs
  return (.hdr (BitVec.ofNat 32 h) (BitVec.ofNat 32 w) (BitVec.ofNat 32 c), bs)

/-- A record: dc, the pair count, then that many pairs (30_encoding R87, R89). -/
def decodeRecord (bs : List Byte) : Except DecodeError (Instr × List Byte) := do
  let (d, bs) ← decodeField 2 bs
  let (n, bs) ← decodeField 2 bs
  let (ps, bs) ← decodePairs n bs
  return (.record (BitVec.ofNat 16 d) ps, bs)

/-- The instruction of format `f` at the front of the bytes, with the bytes after it, or the reason there is none. -/
def decode : Format → List Byte → Except DecodeError (Instr × List Byte)
  | .c8, [] => .error .truncated
  | .c8, c :: bs =>
    match decodeCommand c with
    | some i => .ok (i, bs)
    | none => .error .illegalWord
  | .hdr, bs => decodeHdr bs
  | .chn, bs => do
    let (b, bs) ← decodeField 4 bs
    return (.chn (BitVec.ofNat 32 b), bs)
  | .record, bs => decodeRecord bs
  | .pair, bs => do
    let (p, bs) ← decodePair bs
    return (.pair p.run p.val, bs)

/-- The three bytes of a PAIR (30_encoding R87, R88). -/
def encodePair (p : AcPair) : List Byte := p.run :: leBytes 2 p.val.toNat

/-- The bytes of a well-formed instruction: the command word, or the unit's fields in container order (30_encoding R82,
R85 to R88). A record of more than REC_CAP pairs has no encoding, and what stands here for it is none of the hardware's
(notes/assumptions/29.md). -/
def encode : Instr → List Byte
  | .nop => [0x00#8]
  | .fdct => [0x01#8]
  | .idct => [0x02#8]
  | .quant => [0x03#8]
  | .dequant => [0x04#8]
  | .zzfwd => [0x05#8]
  | .zzinv => [0x06#8]
  | .rleenc => [0x07#8]
  | .rledec => [0x08#8]
  | .encblk => [0x09#8]
  | .decblk => [0x0A#8]
  | .wrhdr => [0x10#8]
  | .wrchn => [0x11#8]
  | .wrrec => [0x12#8]
  | .rdhdr => [0x18#8]
  | .rdchn => [0x19#8]
  | .rdrec => [0x1A#8]
  | .clrerr => [0x1E#8]
  | .srst => [0x1F#8]
  | .hdr h w c => magicBytes ++ leBytes 4 h.toNat ++ leBytes 4 w.toNat ++ leBytes 4 c.toNat
  | .chn b => leBytes 4 b.toNat
  | .record dc ac => leBytes 2 dc.toNat ++ leBytes 2 ac.length ++ ac.flatMap encodePair
  | .pair r v => encodePair ⟨r, v⟩

/-- `decode` on all the bytes given: the instruction, when nothing is left over. -/
def decodeAll (f : Format) (bs : List Byte) : Option Instr :=
  match decode f bs with
  | .ok (i, []) => some i
  | _ => none

/-- The format a number of bits stands for in spec/opcode_table.json: 8 a command, 24 a PAIR, 32 a CHN, and a record
of n pairs has 32 + 24n bits. 128 bits are a header, or a record of four pairs where the magic is missing.
DESIGN CHOICE (notes/assumptions/27.md), safe: 32 bits are read as CHN although a record with no pair is as long,
because the bits alone cannot tell the two. -/
def decodeTableWord (nbits w : Nat) : Option Instr :=
  let bs := leBytes (nbits / 8) w
  match nbits with
  | 8 => decodeAll .c8 bs
  | 24 => decodeAll .pair bs
  | 32 => decodeAll .chn bs
  | 128 => (decodeAll .hdr bs).or (decodeAll .record bs)
  | _ => decodeAll .record bs

end Sys2Proof
end

