-- ==== Sys2Proof/Config.lean ====
section
/-! DEFINITION. What a build of the block fixes (00_scope R8, R13), the value the model takes where the spec leaves
it open, and the free values that stand for unspecified contents (10_state R40). -/

namespace Sys2Proof

/-- The NUMERICS parameter (00_scope R13): the exact reals, or an implementation's own four functions, told apart
by a number. Plain data: the functions themselves are `Config.numerics`. -/
inductive Numerics where
  /-- The reference instance: exact real arithmetic. -/
  | exact
  /-- Some other instance: nothing is known of its functions but the named properties of 00_scope R13. -/
  | impl (id : Nat)
deriving DecidableEq, Repr, Inhabited

/-- The parameters fixed when the block is built that are neither QT nor ZZ (00_scope R8): NUMERICS and the sizes
of the two memories, each at most 2^32 − 1 by its type. -/
structure Build where
  numerics : Numerics
  imemSize : Word
  omemSize : Word
deriving DecidableEq, Repr, Inhabited

/-- Where an unspecified value stands, so that each location draws its own (10_state R40). -/
inductive Place where
  | xb | cb | qb | zb | recRun | recVal | imem | omem
deriving DecidableEq, Repr, Inhabited

/-- The free value of a `Real` that nothing has written since reset number `gen` (10_state R40; log 6). -/
opaque Config.freeReal : (gen : Nat) → Place → (index : Nat) → XReal

/-- The free value of an `int16` that nothing has written since reset number `gen` (10_state R40; log 6). -/
opaque Config.freeHalf : (gen : Nat) → Place → (index : Nat) → Half

/-- The free value of a byte that nothing has written since reset number `gen` (10_state R40; logs 6, 7). -/
opaque Config.freeByte : (gen : Nat) → Place → (index : Nat) → Byte

/-- The build `State.reset` has. DESIGN CHOICE: the reference NUMERICS (notes/assumptions/2.md) and the largest sizes
92_eei_decisions D15 allows (notes/assumptions/5.md); unsafe only for claims about `State.reset` itself, since every
other statement quantifies over the build a state carries. -/
def Config.build : Build := ⟨.exact, 0xFFFFFFFF#32, 0xFFFFFFFF#32⟩

end Sys2Proof
end

