-- ==== Sys2Proof/Machine/Exact.lean ====
section
/-! DEFINITION. Exact arithmetic on `Alg` (00_scope R10, R11, R13): sum, product, quotient, order and rounding, with no
approximation anywhere in a result. -/

namespace Sys2Proof

/-! ### The real number an `Alg` is -/

/-- `2cos(mπ/16)`. -/
noncomputable def twoCos (m : ℤ) : ℝ := 2 * Real.cos (m * Real.pi / 16)

/-- The value of an `Alg`. -/
noncomputable def Alg.toReal (x : Alg) : ℝ :=
  x.k0 + x.k1 * twoCos 1 + x.k2 * twoCos 2 + x.k3 * twoCos 3 + x.k4 * twoCos 4 + x.k5 * twoCos 5 + x.k6 * twoCos 6
    + x.k7 * twoCos 7

/-- `n` is `round_he y`: the integer nearest to `y`, the even one of two equally near (00_scope R11). -/
def IsRoundHe (y : ℝ) (n : Int) : Prop := |y - n| ≤ 1 / 2 ∧ (|y - n| = 1 / 2 → n % 2 = 0)

/-! ### Sum and product -/

/-- A rational number as a `Real`. -/
def Alg.ofRat (q : ℚ) : Alg := ⟨q, 0, 0, 0, 0, 0, 0, 0⟩

/-- An integer as a `Real`. -/
def Alg.ofInt (z : Int) : Alg := Alg.ofRat z

def Alg.zero : Alg := Alg.ofRat 0

def Alg.add (x y : Alg) : Alg :=
  ⟨x.k0 + y.k0, x.k1 + y.k1, x.k2 + y.k2, x.k3 + y.k3, x.k4 + y.k4, x.k5 + y.k5, x.k6 + y.k6, x.k7 + y.k7⟩

def Alg.sub (x y : Alg) : Alg :=
  ⟨x.k0 - y.k0, x.k1 - y.k1, x.k2 - y.k2, x.k3 - y.k3, x.k4 - y.k4, x.k5 - y.k5, x.k6 - y.k6, x.k7 - y.k7⟩

/-- The product with a rational number. -/
def Alg.smul (q : ℚ) (x : Alg) : Alg :=
  ⟨q * x.k0, q * x.k1, q * x.k2, q * x.k3, q * x.k4, q * x.k5, q * x.k6, q * x.k7⟩

/-- `2cos(mπ/16) · x` for `m` in 1 to 7 (`x` itself for any other `m`), by
`2cos a · 2cos b = 2cos(a + b) + 2cos(a − b)`. -/
def Alg.mulTwoCos (x : Alg) : Nat → Alg
  | 1 => ⟨2 * x.k1, x.k0 + x.k2, x.k1 + x.k3, x.k2 + x.k4, x.k3 + x.k5, x.k4 + x.k6, x.k5 + x.k7, x.k6⟩
  | 2 => ⟨2 * x.k2, x.k1 + x.k3, x.k0 + x.k4, x.k1 + x.k5, x.k2 + x.k6, x.k3 + x.k7, x.k4, x.k5 - x.k7⟩
  | 3 => ⟨2 * x.k3, x.k2 + x.k4, x.k1 + x.k5, x.k0 + x.k6, x.k1 + x.k7, x.k2, x.k3 - x.k7, x.k4 - x.k6⟩
  | 4 => ⟨2 * x.k4, x.k3 + x.k5, x.k2 + x.k6, x.k1 + x.k7, x.k0, x.k1 - x.k7, x.k2 - x.k6, x.k3 - x.k5⟩
  | 5 => ⟨2 * x.k5, x.k4 + x.k6, x.k3 + x.k7, x.k2, x.k1 - x.k7, x.k0 - x.k6, x.k1 - x.k5, x.k2 - x.k4⟩
  | 6 => ⟨2 * x.k6, x.k5 + x.k7, x.k4, x.k3 - x.k7, x.k2 - x.k6, x.k1 - x.k5, x.k0 - x.k4, x.k1 - x.k3⟩
  | 7 => ⟨2 * x.k7, x.k6, x.k5 - x.k7, x.k4 - x.k6, x.k3 - x.k5, x.k2 - x.k4, x.k1 - x.k3, x.k0 - x.k2⟩
  | _ => x

/-- The product of two `Real`s: `y`'s eight terms, each times `x`. -/
def Alg.mul (x y : Alg) : Alg :=
  Alg.add
    (Alg.add (Alg.add (Alg.smul y.k0 x) (Alg.smul y.k1 (x.mulTwoCos 1)))
      (Alg.add (Alg.smul y.k2 (x.mulTwoCos 2)) (Alg.smul y.k3 (x.mulTwoCos 3))))
    (Alg.add (Alg.add (Alg.smul y.k4 (x.mulTwoCos 4)) (Alg.smul y.k5 (x.mulTwoCos 5)))
      (Alg.add (Alg.smul y.k6 (x.mulTwoCos 6)) (Alg.smul y.k7 (x.mulTwoCos 7))))

/-! ### Sign and inverse, through a tower of square roots

`2cos(4π/16) = √2`, `2cos(2π/16) = √(2 + √2)` and `2cos(π/16) = √(2 + √(2 + √2))`, and every other cosine is a
polynomial in the three. In a number `a + b·√d` with `√d` positive, the sign and the inverse follow from those of
numbers without `√d`. -/

/-- `re + im·√d`, `d` being fixed by the level of the tower. -/
structure Quad (α : Type) where
  re : α
  im : α
deriving DecidableEq, Repr

/-- The operations of one level of the tower; `sign` is −1, 0 or 1. -/
structure ArithOps (α : Type) where
  add : α → α → α
  neg : α → α
  mul : α → α → α
  inv : α → α
  sign : α → Int

/-- The rational numbers, the ground of the tower. -/
def ratOps : ArithOps ℚ where
  add := fun x y => x + y
  neg := fun x => -x
  mul := fun x y => x * y
  inv := fun x => x⁻¹
  sign := fun x => x.num.sign

/-- `a² − d·b²`, the norm of `a + b·√d`. -/
def ArithOps.norm {α : Type} (F : ArithOps α) (d : α) (x : Quad α) : α :=
  F.add (F.mul x.re x.re) (F.neg (F.mul d (F.mul x.im x.im)))

/-- The sign of `a + b·√d`: that of the nonzero part, the common one of two equal signs, and otherwise decided by
which of `a²` and `d·b²` is larger. -/
def ArithOps.quadSign {α : Type} (F : ArithOps α) (d : α) (x : Quad α) : Int :=
  let a := F.sign x.re
  let b := F.sign x.im
  if b = 0 then a
  else if a = 0 then b
  else if a = b then a
  else a * F.sign (F.norm d x)

/-- The level above `F`, with `√d` added. -/
def ArithOps.quad {α : Type} (F : ArithOps α) (d : α) : ArithOps (Quad α) where
  add := fun x y => ⟨F.add x.re y.re, F.add x.im y.im⟩
  neg := fun x => ⟨F.neg x.re, F.neg x.im⟩
  mul := fun x y =>
    ⟨F.add (F.mul x.re y.re) (F.mul d (F.mul x.im y.im)), F.add (F.mul x.re y.im) (F.mul x.im y.re)⟩
  inv := fun x =>
    let n := F.inv (F.norm d x)
    ⟨F.mul x.re n, F.neg (F.mul x.im n)⟩
  sign := F.quadSign d

/-- The three levels: `√2`, `√(2 + √2)`, `√(2 + √(2 + √2))`. -/
def towerOps : ArithOps (Quad (Quad (Quad ℚ))) :=
  ((ratOps.quad 2).quad ⟨2, 1⟩).quad ⟨⟨2, 0⟩, ⟨1, 0⟩⟩

/-- The cosine form in the tower; for instance `2cos(3π/16) = √(2 + √(2 + √2)) · (√(2 + √2) − 1)`. -/
def Alg.toTower (x : Alg) : Quad (Quad (Quad ℚ)) :=
  ⟨⟨⟨x.k0, x.k4⟩, ⟨x.k2 - x.k6, x.k6⟩⟩,
   ⟨⟨x.k1 - x.k3 + x.k5 - x.k7, x.k5 - x.k7⟩, ⟨x.k3 - x.k5, x.k7⟩⟩⟩

/-- The inverse of `Alg.toTower`. -/
def Alg.ofTower (t : Quad (Quad (Quad ℚ))) : Alg :=
  ⟨t.re.re.re, t.im.re.re + t.im.im.re + t.im.im.im, t.re.im.re + t.re.im.im,
   t.im.re.im + t.im.im.re + t.im.im.im, t.re.re.im, t.im.re.im + t.im.im.im, t.re.im.im, t.im.im.im⟩

/-- The sign of a `Real`: −1, 0 or 1. -/
def Alg.sign (x : Alg) : Int := towerOps.sign x.toTower

/-- `1 / x`, and 0 for 0. -/
def Alg.inv (x : Alg) : Alg := Alg.ofTower (towerOps.inv x.toTower)

/-- The exact quotient `x / t` of 41_quantization R123. -/
def Alg.div (x t : Alg) : Alg := x.mul t.inv

/-- `x ≤ y`. -/
def Alg.le (x y : Alg) : Bool := decide (0 ≤ (y.sub x).sign)

/-! ### Floor and rounding -/

/-- `n` is the largest integer not above `x`. -/
def Alg.isFloor (x : Alg) (n : Int) : Bool :=
  (Alg.ofInt n).le x && !(Alg.ofInt (n + 1)).le x

/-- A first guess at the floor, from the cosines to 20 digits; it is used only where `isFloor` confirms it. -/
def Alg.guess (x : Alg) : Int :=
  (x.k0 + (x.k1 * 196157056080646089825 + x.k2 * 184775906502257351225 + x.k3 * 166293922460509047416
    + x.k4 * 141421356237309504880 + x.k5 * 111114046603920444949 + x.k6 * 76536686473017954346
    + x.k7 * 39018064403225653570) / 100000000000000000000).floor

/-- The largest `n` in `lo` to `lo + 2^fuel − 1` with `n ≤ x`, when `lo ≤ x`. -/
def Alg.bisect (x : Alg) : Nat → Int → Int
  | 0, lo => lo
  | fuel + 1, lo =>
    if (Alg.ofInt (lo + 2 ^ fuel)).le x then x.bisect fuel (lo + 2 ^ fuel) else x.bisect fuel lo

/-- A natural number `m` with `|x| < 2^m`: every cosine term is at most twice its coefficient. -/
def Alg.magnitude (x : Alg) : Nat :=
  Nat.log2 (|x.k0| + 2 * (|x.k1| + |x.k2| + |x.k3| + |x.k4| + |x.k5| + |x.k6| + |x.k7|)).ceil.toNat + 1

/-- The largest integer not above `x`. -/
def Alg.floor (x : Alg) : Int :=
  if x.isFloor x.guess then x.guess else x.bisect (x.magnitude + 1) (-2 ^ x.magnitude)

/-- `round_he`: the nearest integer, the even one of two equally near (00_scope R11). -/
def Alg.roundHe (y : Alg) : Int :=
  let h := y.add (Alg.ofRat (1 / 2))
  let n := h.floor
  if h = Alg.ofInt n ∧ n % 2 = 1 then n - 1 else n

end Sys2Proof
end

