-- ==== Sys2Proof/Laws/Exact.lean ====
section
/-! SUPPORT. The arithmetic of `Alg` is that of the real numbers: sum, product, sign, inverse, floor and rounding. -/

namespace Sys2Proof

/-! ### The cosines -/

theorem twoCos_mul (a b : ℤ) : twoCos a * twoCos b = twoCos (a + b) + twoCos (a - b) := by
  simp only [twoCos]
  have h1 : ((a + b : ℤ) : ℝ) * Real.pi / 16 = a * Real.pi / 16 + b * Real.pi / 16 := by push_cast; ring
  have h2 : ((a - b : ℤ) : ℝ) * Real.pi / 16 = a * Real.pi / 16 - b * Real.pi / 16 := by push_cast; ring
  rw [h1, h2, Real.cos_add, Real.cos_sub]
  ring

theorem twoCos_zero : twoCos 0 = 2 := by simp [twoCos]

theorem twoCos_neg (a : ℤ) : twoCos (-a) = twoCos a := by
  simp only [twoCos]
  rw [show ((-a : ℤ) : ℝ) * Real.pi / 16 = -(a * Real.pi / 16) by push_cast; ring, Real.cos_neg]

theorem twoCos_reflect (a : ℤ) : twoCos (16 - a) = -twoCos a := by
  simp only [twoCos]
  rw [show ((16 - a : ℤ) : ℝ) * Real.pi / 16 = Real.pi - a * Real.pi / 16 by push_cast; ring, Real.cos_pi_sub]
  ring

theorem twoCos_eight : twoCos 8 = 0 := by
  have := twoCos_reflect 8
  norm_num at this
  linarith

theorem twoCos_pos (m : ℤ) (h0 : 0 ≤ m) (h : m < 8) : 0 < twoCos m := by
  have hm0 : (0 : ℝ) ≤ m := by exact_mod_cast h0
  have hm : (m : ℝ) < 8 := by exact_mod_cast h
  have := Real.cos_pos_of_mem_Ioo (x := m * Real.pi / 16) ⟨by nlinarith [Real.pi_pos], by nlinarith [Real.pi_pos]⟩
  simp only [twoCos]
  linarith

theorem twoCos_abs_le (m : ℤ) : |twoCos m| ≤ 2 := by
  rw [twoCos, abs_mul, abs_two]
  linarith [Real.abs_cos_le_one (m * Real.pi / 16)]

/-! ### Sum and product -/

@[simp] theorem Alg.toReal_ofRat (q : ℚ) : (Alg.ofRat q).toReal = q := by simp [Alg.ofRat, Alg.toReal]

@[simp] theorem Alg.toReal_ofInt (z : Int) : (Alg.ofInt z).toReal = z := by simp [Alg.ofInt]

@[simp] theorem Alg.toReal_zero : Alg.zero.toReal = 0 := by simp [Alg.zero]

@[simp] theorem Alg.toReal_add (x y : Alg) : (x.add y).toReal = x.toReal + y.toReal := by
  simp only [Alg.add, Alg.toReal]; push_cast; ring

@[simp] theorem Alg.toReal_sub (x y : Alg) : (x.sub y).toReal = x.toReal - y.toReal := by
  simp only [Alg.sub, Alg.toReal]; push_cast; ring

@[simp] theorem Alg.toReal_smul (q : ℚ) (x : Alg) : (Alg.smul q x).toReal = q * x.toReal := by
  simp only [Alg.smul, Alg.toReal]; push_cast; ring

theorem Alg.toReal_mulTwoCos (x : Alg) (m : Nat) (h1 : 1 ≤ m) (h7 : m ≤ 7) :
    (x.mulTwoCos m).toReal = twoCos m * x.toReal := by
  have z := twoCos_zero
  have e := twoCos_eight
  have P : ∀ a b : ℤ, twoCos a * twoCos b = twoCos (a + b) + twoCos (a - b) := twoCos_mul
  have n1 := twoCos_neg 1; have n2 := twoCos_neg 2; have n3 := twoCos_neg 3
  have n4 := twoCos_neg 4; have n5 := twoCos_neg 5; have n6 := twoCos_neg 6
  have r9 := twoCos_reflect 7; have r10 := twoCos_reflect 6; have r11 := twoCos_reflect 5
  have r12 := twoCos_reflect 4; have r13 := twoCos_reflect 3; have r14 := twoCos_reflect 2
  norm_num at n1 n2 n3 n4 n5 n6 r9 r10 r11 r12 r13 r14
  have p1 := P m 1; have p2 := P m 2; have p3 := P m 3; have p4 := P m 4
  have p5 := P m 5; have p6 := P m 6; have p7 := P m 7
  interval_cases m <;> simp only [Alg.mulTwoCos, Alg.toReal] <;> norm_num at p1 p2 p3 p4 p5 p6 p7 ⊢ <;>
    simp only [z, e, n1, n2, n3, n4, n5, n6, r9, r10, r11, r12, r13, r14] at p1 p2 p3 p4 p5 p6 p7 <;>
    linear_combination -(x.k1 : ℝ) * p1 - x.k2 * p2 - x.k3 * p3 - x.k4 * p4 - x.k5 * p5 - x.k6 * p6 - x.k7 * p7

@[simp] theorem Alg.toReal_mul (x y : Alg) : (x.mul y).toReal = x.toReal * y.toReal := by
  simp only [Alg.mul, Alg.toReal_add, Alg.toReal_smul]
  rw [Alg.toReal_mulTwoCos x 1 (by decide) (by decide), Alg.toReal_mulTwoCos x 2 (by decide) (by decide),
    Alg.toReal_mulTwoCos x 3 (by decide) (by decide), Alg.toReal_mulTwoCos x 4 (by decide) (by decide),
    Alg.toReal_mulTwoCos x 5 (by decide) (by decide), Alg.toReal_mulTwoCos x 6 (by decide) (by decide),
    Alg.toReal_mulTwoCos x 7 (by decide) (by decide)]
  simp only [Alg.toReal]
  push_cast
  ring

/-! ### The tower of square roots -/

/-- What it is for operations on `α` to compute in the real numbers, `φ` being the value. -/
structure ArithOps.Sound {α : Type} (F : ArithOps α) (φ : α → ℝ) : Prop where
  add : ∀ x y, φ (F.add x y) = φ x + φ y
  neg : ∀ x, φ (F.neg x) = -φ x
  mul : ∀ x y, φ (F.mul x y) = φ x * φ y
  inv : ∀ x, φ x ≠ 0 → φ (F.inv x) = (φ x)⁻¹
  sign : ∀ x, F.sign x = (SignType.sign (φ x) : ℤ)

/-- `d` has no square root among the values: a square is `d` times a square only if both are 0. -/
def NoRoot {α : Type} (φ : α → ℝ) (d : α) : Prop := ∀ x y, φ x ^ 2 = φ d * φ y ^ 2 → φ y = 0

/-- The value of `re + im·√d`, given `ρ = √d`. -/
noncomputable def Quad.value {α : Type} (φ : α → ℝ) (ρ : ℝ) (x : Quad α) : ℝ := φ x.re + φ x.im * ρ

theorem ratOps_sound : ratOps.Sound (fun q : ℚ => (q : ℝ)) where
  add := fun x y => by simp [ratOps]
  neg := fun x => by simp [ratOps]
  mul := fun x y => by simp [ratOps]
  inv := fun x _ => by simp [ratOps]
  sign := fun x => by
    simp only [ratOps]
    rcases lt_trichotomy x 0 with h | h | h
    · rw [sign_neg (by exact_mod_cast h), Int.sign_eq_neg_one_of_neg (Rat.num_neg.2 h)]; rfl
    · subst h; simp
    · rw [sign_pos (by exact_mod_cast h), Int.sign_eq_one_of_pos (Rat.num_pos.2 h)]; rfl

section Step

variable {α : Type} {F : ArithOps α} {φ : α → ℝ} {d : α} {ρ : ℝ}

theorem ArithOps.Sound.norm (hF : F.Sound φ) (hd : ρ ^ 2 = φ d) (x : Quad α) :
    φ (F.norm d x) = (φ x.re + φ x.im * ρ) * (φ x.re - φ x.im * ρ) := by
  rw [ArithOps.norm, hF.add, hF.mul, hF.neg, hF.mul, hF.mul, ← hd]
  ring

/-- Values without a root of `d` are independent of it. -/
theorem Quad.value_eq_zero (hd : ρ ^ 2 = φ d) (hn : NoRoot φ d) {x : Quad α} (h : Quad.value φ ρ x = 0) :
    φ x.re = 0 ∧ φ x.im = 0 := by
  have hre : φ x.re = -(φ x.im * ρ) := by rw [Quad.value] at h; linarith
  have him : φ x.im = 0 := hn x.re x.im (by rw [hre, ← hd]; ring)
  exact ⟨by rw [hre, him]; ring, him⟩

theorem ArithOps.Sound.quadSign (hF : F.Sound φ) (hρ : 0 < ρ) (hd : ρ ^ 2 = φ d) (x : Quad α) :
    F.quadSign d x = (SignType.sign (Quad.value φ ρ x) : ℤ) := by
  simp only [ArithOps.quadSign, hF.sign, hF.norm hd, Quad.value]
  generalize φ x.re = a
  generalize φ x.im = b
  rcases lt_trichotomy b 0 with hb | hb | hb
  · have hbρ : b * ρ < 0 := mul_neg_of_neg_of_pos hb hρ
    rcases lt_trichotomy a 0 with ha | ha | ha
    · rw [sign_neg ha, sign_neg hb, sign_neg (show a + b * ρ < 0 by linarith)]; rfl
    · subst ha; rw [sign_neg hb, sign_neg (show 0 + b * ρ < 0 by linarith)]; simp
    · rw [sign_pos ha, sign_neg hb, sign_mul, sign_pos (show 0 < a - b * ρ by linarith)]; simp
  · subst hb; simp
  · have hbρ : 0 < b * ρ := mul_pos hb hρ
    rcases lt_trichotomy a 0 with ha | ha | ha
    · rw [sign_neg ha, sign_pos hb, sign_mul, sign_neg (show a - b * ρ < 0 by linarith)]; simp
    · subst ha; rw [sign_pos hb, sign_pos (show 0 < 0 + b * ρ by linarith)]; simp
    · rw [sign_pos ha, sign_pos hb, sign_pos (show 0 < a + b * ρ by linarith)]; rfl

/-- One level up: adding the positive square root of `d` keeps the operations sound. -/
theorem ArithOps.Sound.quad (hF : F.Sound φ) (hρ : 0 < ρ) (hd : ρ ^ 2 = φ d) (hn : NoRoot φ d) :
    (F.quad d).Sound (Quad.value φ ρ) where
  add := fun x y => by simp only [ArithOps.quad, Quad.value, hF.add]; ring
  neg := fun x => by simp only [ArithOps.quad, Quad.value, hF.neg]; ring
  mul := fun x y => by simp only [ArithOps.quad, Quad.value, hF.add, hF.mul, ← hd]; ring
  sign := fun x => hF.quadSign hρ hd x
  inv := fun x hx => by
    have hc : φ x.re - φ x.im * ρ ≠ 0 := fun h => by
      have h0 := Quad.value_eq_zero (x := ⟨x.re, F.neg x.im⟩) hd hn (by rw [Quad.value, hF.neg]; linarith)
      have him : φ x.im = 0 := by have := h0.2; rw [hF.neg] at this; linarith
      exact hx (by rw [Quad.value, h0.1, him]; ring)
    have hnorm : φ (F.norm d x) = Quad.value φ ρ x * (φ x.re - φ x.im * ρ) := hF.norm hd x
    have hne : φ (F.norm d x) ≠ 0 := by rw [hnorm]; exact mul_ne_zero hx hc
    simp only [ArithOps.quad]
    rw [Quad.value, hF.neg, hF.mul, hF.mul, hF.inv _ hne, hnorm]
    field_simp
    ring

end Step

/-! ### The three levels: 2cos(4π/16), 2cos(2π/16), 2cos(π/16) -/

theorem twoCos_sq (m : ℤ) : twoCos m ^ 2 = 2 + twoCos (m + m) := by
  rw [pow_two, twoCos_mul, sub_self, twoCos_zero]; ring

theorem twoCos_four_sq : twoCos 4 ^ 2 = 2 := by rw [twoCos_sq]; norm_num [twoCos_eight]

theorem twoCos_two_sq : twoCos 2 ^ 2 = 2 + twoCos 4 := twoCos_sq 2

theorem twoCos_one_sq : twoCos 1 ^ 2 = 2 + twoCos 2 := twoCos_sq 1

theorem rat_sq_ne_two (q : ℚ) : q ^ 2 ≠ 2 := fun h => by
  have h2 : IsSquare (2 : ℚ) := ⟨q, by rw [← h]; ring⟩
  rw [show (2 : ℚ) = ((2 : ℕ) : ℚ) by norm_num, Rat.isSquare_natCast_iff] at h2
  exact absurd h2 (by norm_num)

/-- The values of the first level, `p + q·√2`. -/
noncomputable def value1 : Quad ℚ → ℝ := Quad.value (fun q : ℚ => (q : ℝ)) (twoCos 4)

/-- The values of the second level. -/
noncomputable def value2 : Quad (Quad ℚ) → ℝ := Quad.value value1 (twoCos 2)

/-- The values of the third level, all of the field. -/
noncomputable def value3 : Quad (Quad (Quad ℚ)) → ℝ := Quad.value value2 (twoCos 1)

theorem noRoot0 : NoRoot (fun q : ℚ => (q : ℝ)) 2 := fun x y h => by
  by_contra hy
  have hy' : y ≠ 0 := fun h0 => hy (by simp [h0])
  have h' : x ^ 2 = 2 * y ^ 2 := by simp only at h; exact_mod_cast h
  exact rat_sq_ne_two (x / y) (by rw [div_pow, h']; field_simp)

theorem sound1 : (ratOps.quad 2).Sound value1 :=
  ratOps_sound.quad (twoCos_pos 4 (by decide) (by decide)) (by rw [twoCos_four_sq]; norm_num) noRoot0

/-- Neither `2 + √2` nor `2 − √2` is a square of the first level: their norm 2 is no square of a rational. -/
theorem value1_sq_ne (x : Quad ℚ) (e : ℚ) (he : e ^ 2 = 1) (h : value1 x ^ 2 = 2 + e * twoCos 4) : False := by
  have h0 : Quad.value (fun q : ℚ => (q : ℝ)) (twoCos 4)
      ⟨x.re ^ 2 + 2 * x.im ^ 2 - 2, 2 * x.re * x.im - e⟩ = 0 := by
    simp only [value1, Quad.value] at h ⊢
    push_cast
    linear_combination h - (x.im : ℝ) ^ 2 * twoCos_four_sq
  have := Quad.value_eq_zero (by rw [twoCos_four_sq]; norm_num) noRoot0 h0
  have h1 : x.re ^ 2 + 2 * x.im ^ 2 - 2 = 0 := by exact_mod_cast this.1
  have h2 : 2 * x.re * x.im - e = 0 := by exact_mod_cast this.2
  refine rat_sq_ne_two (x.re ^ 2 - 2 * x.im ^ 2) ?_
  linear_combination (x.re ^ 2 + 2 * x.im ^ 2 + 2) * h1 - (4 * x.re * x.im + 2 * e) * h2 - 2 * he

theorem noRoot1 : NoRoot value1 ⟨2, 1⟩ := fun x y h => by
  by_contra hy
  refine value1_sq_ne ((ratOps.quad 2).mul x ((ratOps.quad 2).inv y)) 1 (by norm_num) ?_
  have hd : value1 ⟨2, 1⟩ = 2 + twoCos 4 := by simp [value1, Quad.value]
  rw [sound1.mul, sound1.inv y hy, mul_pow, h, hd]
  field_simp
  push_cast
  ring

theorem sound2 : ((ratOps.quad 2).quad ⟨2, 1⟩).Sound value2 :=
  sound1.quad (twoCos_pos 2 (by decide) (by decide)) (by rw [twoCos_two_sq]; simp [value1, Quad.value]) noRoot1

theorem noRoot2 : NoRoot value2 ⟨⟨2, 0⟩, ⟨1, 0⟩⟩ := fun x y h => by
  by_contra hy
  have hd1 : value1 ⟨2, 1⟩ = 2 + twoCos 4 := by simp [value1, Quad.value]
  have hd2 : value2 ⟨⟨2, 0⟩, ⟨1, 0⟩⟩ = 2 + twoCos 2 := by simp [value2, value1, Quad.value]
  have hX : ∃ X : Quad (Quad ℚ), value2 X ^ 2 = 2 + twoCos 2 :=
    ⟨_, by rw [sound2.mul x (((ratOps.quad 2).quad ⟨2, 1⟩).inv y), sound2.inv y hy, mul_pow, h, hd2]; field_simp⟩
  obtain ⟨⟨P, Q⟩, hX⟩ := hX
  have hroot : twoCos 2 ^ 2 = value1 ⟨2, 1⟩ := by rw [hd1, twoCos_two_sq]
  have hc : ∀ q : ℚ, value1 ⟨q, 0⟩ = q := fun q => by simp [value1, Quad.value]
  let F := ratOps.quad 2
  have h0 : Quad.value value1 (twoCos 2)
      ⟨F.add (F.add (F.mul P P) (F.mul ⟨2, 1⟩ (F.mul Q Q))) ⟨-2, 0⟩, F.add (F.mul ⟨2, 0⟩ (F.mul P Q)) ⟨-1, 0⟩⟩ = 0 := by
    simp only [value2, Quad.value] at hX ⊢
    simp only [F, sound1.add, sound1.mul, hc, hd1]
    push_cast
    linear_combination hX - value1 Q ^ 2 * twoCos_two_sq
  have hz := Quad.value_eq_zero hroot noRoot1 h0
  simp only [F, sound1.add, sound1.mul, hc, hd1] at hz
  obtain ⟨h1, h2⟩ := hz
  push_cast at h1 h2
  refine value1_sq_ne (F.add (F.mul P P) (F.neg (F.mul ⟨2, 1⟩ (F.mul Q Q)))) (-1) (by norm_num) ?_
  simp only [F, sound1.add, sound1.mul, sound1.neg, hd1]
  push_cast
  linear_combination (value1 P * value1 P + (2 + twoCos 4) * (value1 Q * value1 Q) + 2) * h1
    - (2 + twoCos 4) * (2 * (value1 P * value1 Q) + 1) * h2

theorem sound3 : towerOps.Sound value3 :=
  sound2.quad (twoCos_pos 1 (by decide) (by decide)) (by rw [twoCos_one_sq]; simp [value2, value1, Quad.value])
    noRoot2

/-! ### `Alg` in the tower -/

theorem twoCos_six : twoCos 6 = twoCos 2 * (twoCos 4 - 1) := by
  have h := twoCos_mul 4 2
  norm_num at h
  linarith

theorem twoCos_three : twoCos 3 = twoCos 1 * (twoCos 2 - 1) := by
  have h := twoCos_mul 2 1
  norm_num at h
  linarith

theorem twoCos_five : twoCos 5 = twoCos 1 * (twoCos 4 - twoCos 2 + 1) := by
  have h := twoCos_mul 4 1
  norm_num at h
  linarith [twoCos_three]

theorem twoCos_seven : twoCos 7 = twoCos 1 * (twoCos 2 * (twoCos 4 - 1) - twoCos 4 + twoCos 2 - 1) := by
  have h := twoCos_mul 6 1
  norm_num at h
  rw [twoCos_six] at h
  linarith [twoCos_five]

theorem Alg.value_toTower (x : Alg) : value3 x.toTower = x.toReal := by
  simp only [Alg.toTower, value3, value2, value1, Quad.value, Alg.toReal, twoCos_six, twoCos_three, twoCos_five,
    twoCos_seven]
  push_cast
  ring

theorem Alg.toReal_ofTower (t : Quad (Quad (Quad ℚ))) : (Alg.ofTower t).toReal = value3 t := by
  simp only [Alg.ofTower, value3, value2, value1, Quad.value, Alg.toReal, twoCos_six, twoCos_three, twoCos_five,
    twoCos_seven]
  push_cast
  ring

/-! ### Sign, inverse and order -/

theorem Alg.sign_eq (x : Alg) : x.sign = (SignType.sign x.toReal : ℤ) := by
  rw [Alg.sign, sound3.sign, Alg.value_toTower]

theorem Alg.toReal_inv (x : Alg) (h : x.toReal ≠ 0) : x.inv.toReal = x.toReal⁻¹ := by
  rw [Alg.inv, Alg.toReal_ofTower, sound3.inv _ (by rwa [Alg.value_toTower]), Alg.value_toTower]

theorem Alg.toReal_div (x t : Alg) (h : t.toReal ≠ 0) : (x.div t).toReal = x.toReal / t.toReal := by
  rw [Alg.div, Alg.toReal_mul, Alg.toReal_inv t h, div_eq_mul_inv]

theorem Alg.le_iff (x y : Alg) : x.le y = true ↔ x.toReal ≤ y.toReal := by
  rw [Alg.le, decide_eq_true_iff, Alg.sign_eq, Alg.toReal_sub, ← sub_nonneg (a := y.toReal)]
  rcases lt_trichotomy (y.toReal - x.toReal) 0 with h | h | h
  · rw [sign_neg h]; simpa using h
  · simp [h]
  · rw [sign_pos h]; simp [h.le]

/-- Equal values are equal data: the eight cosine terms are independent over the rationals. -/
theorem Alg.toReal_injective {x y : Alg} (h : x.toReal = y.toReal) : x = y := by
  have key : ∀ z : Alg, z.toReal = 0 → z = Alg.zero := fun z hz => by
    rw [← Alg.value_toTower] at hz
    have h3 := Quad.value_eq_zero (by rw [twoCos_one_sq]; simp [value2, value1, Quad.value]) noRoot2 hz
    have r1 : twoCos 2 ^ 2 = value1 ⟨2, 1⟩ := by rw [twoCos_two_sq]; simp [value1, Quad.value]
    have h2a := Quad.value_eq_zero r1 noRoot1 h3.1
    have h2b := Quad.value_eq_zero r1 noRoot1 h3.2
    have r0 : twoCos 4 ^ 2 = ((2 : ℚ) : ℝ) := by rw [twoCos_four_sq]; norm_num
    have a1 := Quad.value_eq_zero r0 noRoot0 h2a.1
    have a2 := Quad.value_eq_zero r0 noRoot0 h2a.2
    have a3 := Quad.value_eq_zero r0 noRoot0 h2b.1
    have a4 := Quad.value_eq_zero r0 noRoot0 h2b.2
    simp only [Alg.toTower] at a1 a2 a3 a4
    norm_cast at a1 a2 a3 a4
    obtain ⟨k0, k1, k2, k3, k4, k5, k6, k7⟩ := z
    simp only at a1 a2 a3 a4
    simp only [Alg.zero, Alg.ofRat, Alg.mk.injEq]
    refine ⟨a1.1, ?_, ?_, ?_, a1.2, ?_, a2.2, a4.2⟩ <;> linarith [a1.1, a1.2, a2.1, a2.2, a3.1, a3.2, a4.1, a4.2]
  have h0 := key (x.sub y) (by rw [Alg.toReal_sub, h, sub_self])
  obtain ⟨a0, a1, a2, a3, a4, a5, a6, a7⟩ := x
  obtain ⟨b0, b1, b2, b3, b4, b5, b6, b7⟩ := y
  simp only [Alg.sub, Alg.zero, Alg.ofRat, Alg.mk.injEq, sub_eq_zero] at h0
  simp [h0]

/-! ### Floor and rounding -/

theorem Alg.isFloor_iff (x : Alg) (n : Int) : x.isFloor n = true ↔ (n : ℝ) ≤ x.toReal ∧ x.toReal < n + 1 := by
  rw [Alg.isFloor, Bool.and_eq_true, Bool.not_eq_true', ← Bool.not_eq_true, Alg.le_iff, Alg.le_iff, Alg.toReal_ofInt,
    Alg.toReal_ofInt, not_le]
  push_cast
  rfl

theorem Alg.bisect_spec (x : Alg) (fuel : Nat) (lo : Int) (h0 : (lo : ℝ) ≤ x.toReal)
    (h1 : x.toReal < lo + 2 ^ fuel) : (x.bisect fuel lo : ℝ) ≤ x.toReal ∧ x.toReal < x.bisect fuel lo + 1 := by
  induction fuel generalizing lo with
  | zero => simpa [Alg.bisect] using ⟨h0, h1⟩
  | succ fuel ih =>
    simp only [Alg.bisect]
    rw [pow_succ] at h1
    split
    · rename_i h
      rw [Alg.le_iff, Alg.toReal_ofInt] at h
      push_cast at h
      exact ih _ (by push_cast; exact h) (by push_cast; linarith)
    · rename_i h
      rw [Alg.le_iff, Alg.toReal_ofInt, not_le] at h
      push_cast at h
      exact ih _ h0 h

theorem Alg.abs_toReal_lt (x : Alg) : |x.toReal| < 2 ^ x.magnitude := by
  have hb : |x.toReal|
      ≤ (|x.k0| + 2 * (|x.k1| + |x.k2| + |x.k3| + |x.k4| + |x.k5| + |x.k6| + |x.k7|) : ℚ) := by
    have ht : ∀ (k : ℚ) (m : ℤ), |(k : ℝ) * twoCos m| ≤ 2 * |(k : ℝ)| := fun k m => by
      rw [abs_mul]; nlinarith [twoCos_abs_le m, abs_nonneg (k : ℝ)]
    have h1 := ht x.k1 1; have h2 := ht x.k2 2; have h3 := ht x.k3 3; have h4 := ht x.k4 4
    have h5 := ht x.k5 5; have h6 := ht x.k6 6; have h7 := ht x.k7 7
    simp only [Alg.toReal]
    push_cast
    have a1 := abs_add_le ((x.k0 : ℝ)) (x.k1 * twoCos 1)
    have a2 := abs_add_le ((x.k0 : ℝ) + x.k1 * twoCos 1) (x.k2 * twoCos 2)
    have a3 := abs_add_le ((x.k0 : ℝ) + x.k1 * twoCos 1 + x.k2 * twoCos 2) (x.k3 * twoCos 3)
    have a4 := abs_add_le ((x.k0 : ℝ) + x.k1 * twoCos 1 + x.k2 * twoCos 2 + x.k3 * twoCos 3) (x.k4 * twoCos 4)
    have a5 := abs_add_le ((x.k0 : ℝ) + x.k1 * twoCos 1 + x.k2 * twoCos 2 + x.k3 * twoCos 3 + x.k4 * twoCos 4)
      (x.k5 * twoCos 5)
    have a6 := abs_add_le ((x.k0 : ℝ) + x.k1 * twoCos 1 + x.k2 * twoCos 2 + x.k3 * twoCos 3 + x.k4 * twoCos 4
      + x.k5 * twoCos 5) (x.k6 * twoCos 6)
    have a7 := abs_add_le ((x.k0 : ℝ) + x.k1 * twoCos 1 + x.k2 * twoCos 2 + x.k3 * twoCos 3 + x.k4 * twoCos 4
      + x.k5 * twoCos 5 + x.k6 * twoCos 6) (x.k7 * twoCos 7)
    linarith
  rw [Alg.magnitude]
  generalize |x.k0| + 2 * (|x.k1| + |x.k2| + |x.k3| + |x.k4| + |x.k5| + |x.k6| + |x.k7|) = b at hb ⊢
  have h1 : (b : ℝ) ≤ (b.ceil.toNat : ℝ) := by
    have : b ≤ (b.ceil : ℚ) := Rat.le_ceil
    have hz : (b.ceil : ℚ) ≤ (b.ceil.toNat : ℚ) := by exact_mod_cast Int.self_le_toNat b.ceil
    exact_mod_cast this.trans hz
  have h2 : (b.ceil.toNat : ℝ) < 2 ^ (Nat.log2 b.ceil.toNat + 1) := by exact_mod_cast Nat.lt_log2_self
  linarith

theorem Alg.floor_spec (x : Alg) : (x.floor : ℝ) ≤ x.toReal ∧ x.toReal < x.floor + 1 := by
  rw [Alg.floor]
  split
  · exact (Alg.isFloor_iff x _).1 ‹_›
  · have h := abs_lt.1 x.abs_toReal_lt
    refine Alg.bisect_spec x _ _ (by push_cast; exact h.1.le) ?_
    push_cast
    rw [pow_succ]
    linarith [h.2]

/-- A number has one rounding. -/
theorem IsRoundHe.unique {y : ℝ} {m n : Int} (hm : IsRoundHe y m) (hn : IsRoundHe y n) : m = n := by
  have key : ∀ a b : Int, IsRoundHe y a → IsRoundHe y b → ¬a < b := fun a b ha hb h => by
    have h1 : (a : ℝ) + 1 ≤ b := by exact_mod_cast h
    have ha' := abs_le.1 ha.1
    have hb' := abs_le.1 hb.1
    have hya : y - a = 1 / 2 := by linarith [ha'.2, hb'.1]
    have hyb : y - b = -(1 / 2) := by linarith [ha'.2, hb'.1]
    have ea := ha.2 (by rw [hya]; norm_num)
    have eb := hb.2 (by rw [hyb]; norm_num)
    have hab : (b : ℝ) = a + 1 := by linarith
    have : b = a + 1 := by exact_mod_cast hab
    omega
  rcases lt_trichotomy m n with h | h | h
  · exact (key m n hm hn h).elim
  · exact h
  · exact (key n m hn hm h).elim

theorem IsRoundHe.intCast (n : Int) : IsRoundHe n n := ⟨by simp, fun h => by norm_num at h⟩

theorem Alg.roundHe_spec (y : Alg) : IsRoundHe y.toReal y.roundHe := by
  have hf := (y.add (Alg.ofRat (1 / 2))).floor_spec
  rw [Alg.toReal_add, Alg.toReal_ofRat] at hf
  simp only [Alg.roundHe]
  generalize hn : (y.add (Alg.ofRat (1 / 2))).floor = n at hf ⊢
  push_cast at hf
  split
  · rename_i h
    have hy : y.toReal + 1 / 2 = n := by
      have := congrArg Alg.toReal h.1
      rw [Alg.toReal_add, Alg.toReal_ofRat, Alg.toReal_ofInt] at this
      push_cast at this
      exact this
    have hd : y.toReal - ((n - 1 : Int) : ℝ) = 1 / 2 := by push_cast; linarith
    refine ⟨by rw [hd]; norm_num, fun _ => ?_⟩
    have := h.2
    omega
  · rename_i h
    refine ⟨abs_le.2 ⟨by linarith, by linarith⟩, fun he => ?_⟩
    by_contra hodd
    refine h ⟨Alg.toReal_injective ?_, by omega⟩
    rw [Alg.toReal_add, Alg.toReal_ofRat, Alg.toReal_ofInt]
    push_cast
    rcases abs_cases (y.toReal - n) with hc | hc <;> linarith

end Sys2Proof
end

