-- ==== Sys2Proof/Machine/Reals.lean ====
section
/-! DEFINITION. The arithmetic of `Real` (00_scope R10, R11, R13) on the plain data `XReal`. Numbers of the field of the
basis matrix are computed with exactly. A real number known by name only has no digits to compute with; its sums and
products are kept as they stand, and the integers a rounding gives are those `Config.reals` is bound to give. -/

namespace Sys2Proof

/-! ### Values -/

/-- The real number an `XReal` is when the names stand for the numbers `ν`. -/
noncomputable def XReal.toRealWith (ν : Nat → ℝ) : XReal → ℝ
  | .alg a => a.toReal
  | .named n => ν n
  | .sum x y => x.toRealWith ν + y.toRealWith ν
  | .prod x y => x.toRealWith ν * y.toRealWith ν

/-- What the names stand for, with the two integers commands and host procedures take from a real number. -/
structure Reals where
  /-- The real number name `n` stands for. -/
  named : Nat → ℝ
  /-- The largest integer not above a number. -/
  floor : XReal → Int
  /-- `round_he` of a quotient. -/
  roundQuot : XReal → XReal → Int
  floor_spec : ∀ x, (floor x : ℝ) ≤ x.toRealWith named ∧ x.toRealWith named < floor x + 1
  roundQuot_spec : ∀ x t, t.toRealWith named ≠ 0 →
    IsRoundHe (x.toRealWith named / t.toRealWith named) (roundQuot x t)

/-- The number when every name stands for 0. -/
def XReal.atZero : XReal → Alg
  | .alg a => a
  | .named _ => Alg.zero
  | .sum x y => x.atZero.add y.atZero
  | .prod x y => x.atZero.mul y.atZero

theorem XReal.toRealWith_zero (x : XReal) : x.toRealWith (fun _ => 0) = x.atZero.toReal := by
  induction x with
  | alg a => rfl
  | named n => simp [XReal.toRealWith, XReal.atZero]
  | sum x y hx hy => simp [XReal.toRealWith, XReal.atZero, hx, hy]
  | prod x y hx hy => simp [XReal.toRealWith, XReal.atZero, hx, hy]

/-- That there is such a thing as `Reals`: every name standing for 0. It shows the constant below to exist and is
used for nothing else. -/
def Reals.zero : Reals where
  named := fun _ => 0
  floor := fun x => x.atZero.floor
  roundQuot := fun x t => (x.atZero.div t.atZero).roundHe
  floor_spec := fun x => by rw [XReal.toRealWith_zero]; exact x.atZero.floor_spec
  roundQuot_spec := fun x t h => by
    rw [XReal.toRealWith_zero] at h
    rw [XReal.toRealWith_zero, XReal.toRealWith_zero, ← Alg.toReal_div _ _ h]
    exact Alg.roundHe_spec _

/-- Some `Reals`, nothing known of it but its own fields: the names stand for any real numbers at all. -/
opaque Config.anyReals [Inhabited Reals] : Reals

/-- The real numbers the names of `XReal` stand for (notes/assumptions/1.md). -/
def Config.reals : Reals := @Config.anyReals ⟨Reals.zero⟩

/-- The real number an `XReal` is (00_scope R10, R13). -/
noncomputable def XReal.toReal (x : XReal) : ℝ := x.toRealWith Config.reals.named

/-! ### Sum and product -/

/-- A rational number as a `Real`. -/
def XReal.ofRat (q : ℚ) : XReal := .alg (Alg.ofRat q)

/-- An integer as a `Real`. -/
def XReal.ofInt (z : Int) : XReal := .alg (Alg.ofInt z)

def XReal.zero : XReal := .alg Alg.zero

def XReal.add : XReal → XReal → XReal
  | .alg a, .alg b => .alg (a.add b)
  | x, y => .sum x y

def XReal.mul : XReal → XReal → XReal
  | .alg a, .alg b => .alg (a.mul b)
  | x, y => .prod x y

/-- The product with a rational number; 0 times any number is written 0. -/
def XReal.smul (q : ℚ) : XReal → XReal
  | .alg a => .alg (Alg.smul q a)
  | x => if q = 0 then XReal.zero else .prod (XReal.ofRat q) x

def XReal.sub : XReal → XReal → XReal
  | .alg a, .alg b => .alg (a.sub b)
  | x, y => .sum x (XReal.smul (-1) y)

/-- `2cos(mπ/16) · x` for `m` in 1 to 7. -/
def XReal.mulTwoCos : XReal → Nat → XReal
  | .alg a, m => .alg (a.mulTwoCos m)
  | x, m => .prod (.alg ((Alg.ofRat 1).mulTwoCos m)) x

/-! ### Floor, rounding and order -/

/-- The largest integer not above `x`. -/
def XReal.floor : XReal → Int
  | .alg a => a.floor
  | x => Config.reals.floor x

/-- `round_he (x / t)` of the exact quotient, for `t ≠ 0` (00_scope R11; 41_quantization R123). -/
def XReal.roundQuot : XReal → XReal → Int
  | .alg a, .alg b => (a.div b).roundHe
  | x, t => Config.reals.roundQuot x t

/-- `round_he` (00_scope R11). -/
def XReal.roundHe : XReal → Int
  | .alg a => a.roundHe
  | y => Config.reals.roundQuot y (XReal.ofInt 1)

/-- `x ≤ y`. -/
def XReal.le : XReal → XReal → Bool
  | .alg a, .alg b => a.le b
  | x, y => decide (0 ≤ (y.sub x).floor)

end Sys2Proof
end

