-- ==== Sys2Proof/Machine/Tables.lean ====
section
/-! DEFINITION. The constant tables QT and ZZ (10_state R27, R28): the default quantization table and scale, and the
zigzag order the spec decides. -/

namespace Sys2Proof

/-- The default `QT_BASE` (41_quantization R121), row by row. The spec takes the numerals from general knowledge and
leaves the parameter OPEN. DESIGN CHOICE (notes/assumptions/3.md): `State.reset` has this table; unsafe only for
claims about `State.reset`, since a state carries its own QT. -/
def Config.qtNumerals : Vector Int 64 := #v[
  16, 11, 10, 16, 24, 40, 51, 61,
  12, 12, 14, 19, 26, 58, 60, 55,
  14, 13, 16, 24, 40, 57, 69, 56,
  14, 17, 22, 29, 51, 87, 80, 62,
  18, 22, 37, 56, 68, 109, 103, 77,
  24, 35, 55, 64, 81, 104, 113, 92,
  49, 64, 78, 87, 103, 121, 120, 101,
  72, 92, 95, 98, 112, 100, 103, 99]

/-- The default `QT_BASE` as reals. -/
def Config.qtBase : RealBlock := Config.qtNumerals.map XReal.ofInt

/-- The default `Q_SCALE` (41_quantization R122). -/
def Config.qScale : XReal := XReal.ofInt 1

/-- `QT[i][j] = QT_BASE[i][j] × Q_SCALE`, for any reals (41_quantization R120). -/
def quantTable (base : RealBlock) (scale : XReal) : RealBlock := base.map fun b => b.mul scale

/-- The 64 positions of the zigzag order as `(row, col)` (42_zigzag R131). -/
def zigzagPositions : Vector (Fin 8 × Fin 8) 64 := #v[
  (0, 0), (0, 1), (1, 0), (2, 0), (1, 1), (0, 2), (0, 3), (1, 2),
  (2, 1), (3, 0), (4, 0), (3, 1), (2, 2), (1, 3), (0, 4), (0, 5),
  (1, 4), (2, 3), (3, 2), (4, 1), (5, 0), (6, 0), (5, 1), (4, 2),
  (3, 3), (2, 4), (1, 5), (0, 6), (0, 7), (1, 6), (2, 5), (3, 4),
  (4, 3), (5, 2), (6, 1), (7, 0), (7, 1), (6, 2), (5, 3), (4, 4),
  (3, 5), (2, 6), (1, 7), (2, 7), (3, 6), (4, 5), (5, 4), (6, 3),
  (7, 2), (7, 3), (6, 4), (5, 5), (4, 6), (3, 7), (4, 7), (5, 6),
  (6, 5), (7, 4), (7, 5), (6, 6), (5, 7), (6, 7), (7, 6), (7, 7)]

/-- The constant table ZZ (42_zigzag R131; 92_eei_decisions D12). -/
def zigzagTable : Vector Coord 64 := zigzagPositions.map fun p => ⟨p.1, p.2⟩

/-- The index `8 * row + col` of a block position (10_state R37). -/
def Coord.index (c : Coord) : Fin 64 := ⟨8 * c.row.val + c.col.val, by omega⟩

end Sys2Proof
end

