-- ==== Sys2Proof/Machine/State.lean ====
section
/-! DEFINITION. The state of the machine as plain data: the architectural state of 10_state R21, and the model's own
fields `build`, `gen`, `queue` and `seen`; why a step can stop; the state after reset (10_state R40, R41). -/

namespace Sys2Proof.Machine

/-- A byte memory: the bytes that have been written, by rising address. An address it does not list holds the value
it had at reset, which is unspecified (10_state R40); see `State.imemByte`. -/
abbrev Memory := List Host.Cell

/-- The canonical form of a memory: addresses strictly rising. What an unlisted address reads as is "nothing has been
written", which no entry says, so equal memories are equal lists. -/
abbrev Memory.wf (m : Memory) : Prop := m.Pairwise (fun x y => x.1 < y.1)

/-- REC, the record register (10_state R26). `ac` holds the pairs from index 0 up that something has written; the
pairs from `ac.length` up to `n` are unspecified (10_state R37, R40).
DESIGN CHOICE (notes/assumptions/9.md): pairs of `ac` at `n` and above, which 10_state R26 says do not exist and
93_implementation_defined J2 gives any value, are kept and come back when the host raises REC_N. -/
structure RecordReg where
  dc : Half
  n  : Half
  ac : List AcPair
deriving DecidableEq, Repr, Inhabited

/-- The control registers with storage, numbers 1 to 8 (10_state section 4). CMD, number 0, has none (R29). -/
inductive CtrlReg where
  | status | height | width | nchan | blkcnt | ilen | iptr | optr
deriving DecidableEq, Repr

/-- A location the host can read, `HostRead(space, index)` (10_state R37). -/
inductive Loc where
  | cmd
  | ctrl (r : CtrlReg)
  | xb (k : Fin 64)
  | cb (k : Fin 64)
  | qb (k : Fin 64)
  | zb (k : Fin 64)
  | recDc
  | recN
  | recRun (p : Nat)
  | recVal (p : Nat)
  | qt (k : Fin 64)
  | zz (k : Fin 64)
  | imem (a : Nat)
  | omem (a : Nat)
deriving DecidableEq, Repr

/-- What the host's next action is (10_state R20, R29, R37; 70_reset_and_hazards R260). A write carries a value of
its location's own width, so an ill-sized write cannot be said (notes/assumptions/15.md). -/
inductive HostAction where
  /-- `HostWrite(CTRL, 0, c)`: issue the command `c` (R29). -/
  | command (c : Byte)
  | writeCtrl (r : CtrlReg) (v : Word)
  | writeXb (k : Fin 64) (v : XReal)
  | writeCb (k : Fin 64) (v : XReal)
  | writeQb (k : Fin 64) (v : Half)
  | writeZb (k : Fin 64) (v : Half)
  | writeRecDc (v : Half)
  | writeRecN (v : Half)
  | writeRecRun (p : Fin 65535) (v : Byte)
  | writeRecVal (p : Fin 65535) (v : Half)
  /-- Read-only to the host: changes nothing (R37). -/
  | writeQt (k : Fin 64) (v : XReal)
  /-- Read-only to the host: changes nothing (R37). -/
  | writeZz (k : Fin 64) (v : Coord)
  | writeImem (a : Nat) (v : Byte)
  /-- Read-only to the host: changes nothing (R37). -/
  | writeOmem (a : Nat) (v : Byte)
  | read (l : Loc)
  /-- Power-on or the reset input (70_reset_and_hazards R260). -/
  | reset
deriving DecidableEq, Repr

/-- A value the host has read. -/
inductive HostDatum where
  | word (v : Word)
  | half (v : Half)
  | byte (v : Byte)
  | real (v : XReal)
  | coord (v : Coord)
deriving DecidableEq, Repr

/-- The machine. Field by field: INVENTORY.md, '## State'. -/
structure State where
  /-- Spatial block (10_state R22). -/
  xb : RealBlock
  /-- Coefficient block (10_state R23). -/
  cb : RealBlock
  /-- Quantized block (10_state R24). -/
  qb : IntBlock
  /-- Linear coefficient sequence (10_state R25). -/
  zb : IntBlock
  /-- Record register REC (10_state R26). -/
  record : RecordReg
  /-- Quantization table, constant (10_state R27). -/
  qt : RealBlock
  /-- Zigzag order, constant (10_state R28). -/
  zz : Vector Coord 64
  /-- STATUS: ERR in bits 3 to 0 (10_state R30). -/
  status : Word
  /-- HEIGHT (10_state R31). -/
  height : Word
  /-- WIDTH (10_state R31). -/
  width : Word
  /-- NCHAN (10_state R32). -/
  nchan : Word
  /-- BLKCNT (10_state R32). -/
  blkcnt : Word
  /-- ILEN (10_state R33). -/
  ilen : Word
  /-- IPTR (10_state R33). -/
  iptr : Word
  /-- OPTR (10_state R34). -/
  optr : Word
  /-- IMEM (20_memory R50). -/
  imem : Memory
  /-- OMEM (20_memory R51). -/
  omem : Memory
  /-- The model's own: the build parameters, constant (00_scope R8; notes/assumptions/2.md, 5.md). -/
  build : Build
  /-- The model's own: how many resets there have been, the index of the free values (notes/assumptions/8.md). -/
  gen : Nat
  /-- The model's own: the host's pending actions, next first (notes/assumptions/10.md). -/
  queue : List HostAction
  /-- The model's own: what the host has read, oldest first (notes/assumptions/11.md). -/
  seen : List HostDatum
deriving DecidableEq, Repr

/-- Why the machine stops with a fault. No command raises one: a failing command is a next state with `STATUS.ERR`
set (60_exceptions R230, R236). -/
inductive Fault where
  /-- Raised by a host access to IMEM or OMEM at an address the memory does not have (10_state R37;
  93_implementation_defined J8 gives it no step). Safe: the model stops. -/
  | absentAddress (a : Nat)
deriving DecidableEq, Repr

/-- Why the model declines a step. -/
inductive Refusal where
  /-- Raised by an arm of `exec` whose instruction has no meaning yet. Safe: the model stops. -/
  | notModelled (mnemonic : String)
  /-- Raised by a host read of REC_RUN or REC_VAL at an index of `REC.n` or above (10_state R37;
  93_implementation_defined J8 gives it no step). Safe: the model stops. -/
  | absentPair (p : Nat)
  /-- Raised by the meaning of a PAIR unit when REC already holds `REC_CAP` pairs: no container has such a pair, since
  a record's count field cannot say so (10_state R26; notes/assumptions/14.md). Safe: the model stops. -/
  | pairBeyondRecCap
deriving DecidableEq, Repr

/-- The reset state of a block built with the given parameters and tables, its `gen`-th (10_state R40, R41;
70_reset_and_hazards R261): every data buffer element a free value, nothing written in either memory, no pair written
in REC, every register 0. The host's own `queue` and `seen` are empty. -/
def State.resetOf (build : Build) (qt : RealBlock) (zz : Vector Coord 64) (gen : Nat) : State where
  xb := Vector.ofFn fun k => Config.freeReal gen .xb k.val
  cb := Vector.ofFn fun k => Config.freeReal gen .cb k.val
  qb := Vector.ofFn fun k => Config.freeHalf gen .qb k.val
  zb := Vector.ofFn fun k => Config.freeHalf gen .zb k.val
  record := ⟨0, 0, []⟩
  qt := qt
  zz := zz
  status := 0
  height := 0
  width := 0
  nchan := 0
  blkcnt := 0
  ilen := 0
  iptr := 0
  optr := 0
  imem := []
  omem := []
  build := build
  gen := gen
  queue := []
  seen := []

/-- The machine right after reset: the reset state of 70_reset_and_hazards R261, of a block with `Config.build`, the
default table and scale, and the spec's zigzag order. -/
def State.reset : State :=
  State.resetOf Config.build (quantTable Config.qtBase Config.qScale) zigzagTable 0

end Sys2Proof.Machine
end

