-- ==== Sys2Proof/Machine/Flags.lean ====
section
/-! DEFINITION. The block's only flag, the field ERR of STATUS, and its codes (10_state R30; 60_exceptions section
2). No command computes any other flag: there are no condition codes, no carry and no overflow flag (R30). -/

namespace Sys2Proof.Machine

/-- The error codes with a cause (60_exceptions R231 to R234); `NONE` is the code 0. -/
inductive ErrCode where
  | badMagic
  | truncated
  | illegalCmd
  | outOverflow
deriving DecidableEq, Repr

/-- The value of `STATUS.ERR` an error leaves (10_state R30). -/
def ErrCode.code : ErrCode → BitVec 4
  | .badMagic => 1
  | .truncated => 2
  | .illegalCmd => 3
  | .outOverflow => 4

/-- `ERR = STATUS[3:0]` (10_state R30). -/
def State.err (s : State) : BitVec 4 := s.status.extractLsb' 0 4

/-- `STATUS.ERR <- e`, bits 31 to 4 as they were (10_state R30: "nothing writes them"). -/
def State.setErr (s : State) (e : BitVec 4) : State :=
  { s with status := (s.status &&& 0xFFFFFFF0#32) ||| e.setWidth 32 }

end Sys2Proof.Machine
end

