-- ==== Sys2Proof/Machine/Ops.lean ====
section
/-! DEFINITION. The named operations over state: raising and clearing an error, refusal while one is pending, the two
memories, the record register, the cursors, and reset (20_memory; 60_exceptions section 3). -/

namespace Sys2Proof.Machine

/-- What a step answers. -/
abbrev Result := Host.Outcome State Fault Refusal

/-! ### Errors -/

/-- `raise E`: taking an error. The first one is kept, and nothing but `STATUS.ERR` changes (60_exceptions R236,
R237). -/
def raise (e : ErrCode) (s : State) : State := if s.err = 0 then s.setErr e.code else s

/-- The return from an error, `STATUS.ERR <- NONE`; it restores nothing (60_exceptions R241; 46_system_ops R192). -/
def clearErr (s : State) : State := s.setErr 0

/-- Refusal while an error is pending: a command that is not NOP, CLRERR or SRST changes no state at all while
`STATUS.ERR` is not 0, a step that does nothing (60_exceptions R238). -/
def whenClear (s : State) (r : Result) : Result := if s.err = 0 then r else .next s

/-- The end of a command that may fail: the error is raised in the state from before the command (60_exceptions
R236). -/
def settle (s : State) : Except ErrCode State → Result
  | .error e => .next (raise e s)
  | .ok t => .next t

/-! ### Memories -/

/-- The byte a memory lists at an address, if it has been written. -/
def Memory.get? : Memory → Nat → Option Byte
  | [], _ => none
  | (x, b) :: m, a => if x = a then some b else Memory.get? m a

/-- `m[a] <- b`, keeping the canonical form. -/
def Memory.write : Memory → Nat → Byte → Memory
  | [], a, b => [(a, b)]
  | (x, c) :: m, a, b =>
    if a < x then (a, b) :: (x, c) :: m
    else if a = x then (a, b) :: m
    else (x, c) :: Memory.write m a b

/-- The bytes of `v`, least significant first, at `a` and up (20_memory R53). -/
def Memory.store : Memory → Nat → List Byte → Memory
  | m, _, [] => m
  | m, a, b :: bs => Memory.store (Memory.write m a b) (a + 1) bs

/-- `IMEM[a]`: what has been written there, or an unspecified value, the same one until the next reset (10_state
R40; notes/assumptions/7.md). -/
def State.imemByte (s : State) (a : Nat) : Byte :=
  (Memory.get? s.imem a).getD (Config.freeByte s.gen .imem a)

/-- `OMEM[a]`, as `imemByte` (10_state R40). -/
def State.omemByte (s : State) (a : Nat) : Byte :=
  (Memory.get? s.omem a).getD (Config.freeByte s.gen .omem a)

/-- The `n` bytes of IMEM from `a` up. -/
def State.imemBytes (s : State) : (a n : Nat) → List Byte
  | _, 0 => []
  | a, n + 1 => s.imemByte a :: s.imemBytes (a + 1) n

/-- The `n` bytes of OMEM from `a` up. -/
def State.omemBytes (s : State) : (a n : Nat) → List Byte
  | _, 0 => []
  | a, n + 1 => s.omemByte a :: s.omemBytes (a + 1) n

/-- `IMemRead(addr, n)`: the bounds test without wrap-around, then the little-endian number (20_memory R52). -/
def imemRead (s : State) (addr n : Nat) : Except ErrCode Nat :=
  if s.ilen.toNat < addr + n then .error .truncated else .ok (leNat (s.imemBytes addr n))

/-- `OMemWrite(addr, n, v)`: the bounds test, then the low `n` bytes of `v` (20_memory R53). -/
def omemWrite (s : State) (addr n v : Nat) : Except ErrCode State :=
  if s.build.omemSize.toNat < addr + n then .error .outOverflow
  else .ok { s with omem := Memory.store s.omem addr (leBytes n v) }

/-! ### Serializing a unit -/

/-- The length in bytes of fields given as (size, value). -/
def fieldsLength : List (Nat × Nat) → Nat
  | [] => 0
  | f :: fs => f.1 + fieldsLength fs

/-- The fields written one after another from `addr` up, each by `OMemWrite`. -/
def writeFields : List (Nat × Nat) → Nat → State → Except ErrCode State
  | [], _, s => .ok s
  | f :: fs, addr, s => do
    let t ← omemWrite s addr f.1 f.2
    writeFields fs (addr + f.1) t

/-- The body of a WR command: the test of the whole length, the fields at OPTR, OPTR past them (45_container R161 to
R163; 10_state R34). -/
def emit (fields : List (Nat × Nat)) (s : State) : Except ErrCode State :=
  if s.build.omemSize.toNat < s.optr.toNat + fieldsLength fields then .error .outOverflow
  else do
    let t ← writeFields fields s.optr.toNat s
    return { t with optr := BitVec.ofNat 32 (s.optr.toNat + fieldsLength fields) }

/-! ### The record register -/

/-- The unspecified pair at index `p` (10_state R40). -/
def freePair (gen p : Nat) : AcPair := ⟨Config.freeByte gen .recRun p, Config.freeHalf gen .recVal p⟩

/-- `REC.ac[p]` (10_state R26, R40). -/
def RecordReg.pairAt (gen : Nat) (r : RecordReg) (p : Nat) : AcPair := r.ac.getD p (freePair gen p)

/-- The unspecified pairs from index `from` up, `count` of them. -/
def freePairs (gen first count : Nat) : List AcPair := (List.range' first count).map (freePair gen)

/-- `REC.ac[0..n−1]`, the record's pairs in order (10_state R26). -/
def RecordReg.pairs (gen : Nat) (r : RecordReg) : List AcPair :=
  r.ac.take r.n.toNat ++ freePairs gen r.ac.length (r.n.toNat - r.ac.length)

/-- The record `{dc, n, ac}` with exactly these pairs; the pairs REC had before cease to exist (10_state R26;
43_rle_block_codec R142; 45_container R167). -/
def RecordReg.ofPairs (dc : Half) (ac : List AcPair) : RecordReg := ⟨dc, BitVec.ofNat 16 ac.length, ac⟩

/-- `REC.ac[p] <- f REC.ac[p]` by the host, at any index below REC_CAP; the pairs below `p` that nothing has written
keep their unspecified values (10_state R37). -/
def RecordReg.updatePair (gen : Nat) (r : RecordReg) (p : Nat) (f : AcPair → AcPair) : RecordReg :=
  { r with ac := (r.ac ++ freePairs gen r.ac.length (p + 1 - r.ac.length)).modify p f }

/-! ### Parsing a unit: destinations and the cursor -/

/-- `IPTR <- IPTR + n`, in place of `pc <- target` (00_scope R12; 10_state R33). -/
def advance (n : Nat) (s : State) : State := { s with iptr := s.iptr + BitVec.ofNat 32 n }

/-- The writes of a header that has been read (45_container R165). -/
def loadHdr (h w c : Word) (s : State) : State := advance 16 { s with height := h, width := w, nchan := c }

/-- The writes of a channel head that has been read (45_container R166). -/
def loadChn (k : Word) (s : State) : State := advance 4 { s with blkcnt := k }

/-- The writes of a record that has been read (45_container R167). -/
def loadRecord (dc : Half) (ac : List AcPair) (s : State) : State :=
  advance (4 + 3 * ac.length) { s with record := RecordReg.ofPairs dc ac }

/-- The writes of one more pair of the record in REC: one turn of RDREC's loop (45_container R167). -/
def loadPair (p : AcPair) (s : State) : State :=
  advance 3 { s with record := RecordReg.ofPairs s.record.dc (s.record.pairs s.gen ++ [p]) }

/-! ### Reset -/

/-- The reset state, by the SRST command or by the hardware (46_system_ops R194; 70_reset_and_hazards R260): the
build and the tables are unaffected, unspecified contents are drawn afresh, and what belongs to the host stays. -/
def resetState (s : State) : State :=
  { State.resetOf s.build s.qt s.zz (s.gen + 1) with queue := s.queue, seen := s.seen }

end Sys2Proof.Machine
end

