-- ==== Sys2Proof/Machine/Operands.lean ====
section
/-! DEFINITION. The operand forms that are not a whole buffer or register: the unit at IPTR that an RD command reads,
and the fields a WR command writes at OPTR, both cursor-relative (45_container, opening; 30_encoding R85 to R88). -/

namespace Sys2Proof.Machine

/-! ### Units read at IPTR -/

/-- RDHDR's reads and tests (45_container R165): the length test on the magic field, its comparison, then the length
tests on height, width and channel count in that order (60_exceptions R239). -/
def readHdr (s : State) : Except ErrCode (Word × Word × Word) := do
  let a := s.iptr.toNat
  let m ← imemRead s a 4
  if m ≠ magicNat then throw .badMagic
  let h ← imemRead s (a + 4) 4
  let w ← imemRead s (a + 8) 4
  let c ← imemRead s (a + 12) 4
  return (BitVec.ofNat 32 h, BitVec.ofNat 32 w, BitVec.ofNat 32 c)

/-- RDCHN's read (45_container R166). -/
def readChn (s : State) : Except ErrCode Word := do
  let k ← imemRead s s.iptr.toNat 4
  return BitVec.ofNat 32 k

/-- RDREC's loop over `n` pairs from address `a` up (45_container R167). -/
def readPairs (s : State) : (n a : Nat) → Except ErrCode (List AcPair)
  | 0, _ => .ok []
  | n + 1, a => do
    let r ← imemRead s a 1
    let v ← imemRead s (a + 1) 2
    let ps ← readPairs s n (a + 3)
    return ⟨BitVec.ofNat 8 r, BitVec.ofNat 16 v⟩ :: ps

/-- RDREC's reads, in address order (45_container R167). -/
def readRecord (s : State) : Except ErrCode (Half × List AcPair) := do
  let a := s.iptr.toNat
  let d ← imemRead s a 2
  let n ← imemRead s (a + 2) 2
  let ps ← readPairs s n (a + 4)
  return (BitVec.ofNat 16 d, ps)

/-! ### Fields written at OPTR, as (size, value) -/

/-- WRHDR's fields: the four tag bytes, HEIGHT, WIDTH and the constant 3 (45_container R161). -/
def hdrFields (s : State) : List (Nat × Nat) :=
  [(1, 0x4A), (1, 0x51), (1, 0x5A), (1, 0x31), (4, s.height.toNat), (4, s.width.toNat), (4, 3)]

/-- WRCHN's field (45_container R162). -/
def chnFields (s : State) : List (Nat × Nat) := [(4, s.blkcnt.toNat)]

/-- The two fields of a pair (45_container R163). -/
def pairFields (p : AcPair) : List (Nat × Nat) := [(1, p.run.toNat), (2, p.val.toNat)]

/-- WRREC's fields: dc, the pair count and the pairs (45_container R163). -/
def recordFields (s : State) : List (Nat × Nat) :=
  (2, s.record.dc.toNat) :: (2, s.record.n.toNat) :: (s.record.pairs s.gen).flatMap pairFields

end Sys2Proof.Machine
end

