-- ==== Sys2Proof/Machine/Container.lean ====
section
/-! DEFINITION. The Container Serializer's commands: WRHDR, WRCHN, WRREC, RDHDR, RDCHN, RDREC (45_container). -/

namespace Sys2Proof.Machine

/-- WRHDR (45_container R161). -/
def execWrhdr (s : State) : Result := whenClear s (settle s (emit (hdrFields s) s))

/-- WRCHN (45_container R162). -/
def execWrchn (s : State) : Result := whenClear s (settle s (emit (chnFields s) s))

/-- WRREC (45_container R163). -/
def execWrrec (s : State) : Result := whenClear s (settle s (emit (recordFields s) s))

/-- RDHDR (45_container R165). -/
def execRdhdr (s : State) : Result :=
  whenClear s (settle s ((readHdr s).map fun u => loadHdr u.1 u.2.1 u.2.2 s))

/-- RDCHN (45_container R166). -/
def execRdchn (s : State) : Result := whenClear s (settle s ((readChn s).map fun k => loadChn k s))

/-- RDREC (45_container R167). -/
def execRdrec (s : State) : Result := whenClear s (settle s ((readRecord s).map fun u => loadRecord u.1 u.2 s))

end Sys2Proof.Machine
end

