-- ==== Sys2Proof/Laws/Reals.lean ====
section
/-! SUPPORT. The arithmetic of `XReal` is that of the real numbers it stands for, named ones included. -/

namespace Sys2Proof

@[simp] theorem XReal.toReal_alg (a : Alg) : (XReal.alg a).toReal = a.toReal := rfl

@[simp] theorem XReal.toReal_named (n : Nat) : (XReal.named n).toReal = Config.reals.named n := rfl

@[simp] theorem XReal.toReal_sum (x y : XReal) : (XReal.sum x y).toReal = x.toReal + y.toReal := rfl

@[simp] theorem XReal.toReal_prod (x y : XReal) : (XReal.prod x y).toReal = x.toReal * y.toReal := rfl

@[simp] theorem XReal.toReal_ofRat (q : ℚ) : (XReal.ofRat q).toReal = q := by simp [XReal.ofRat]

@[simp] theorem XReal.toReal_ofInt (z : Int) : (XReal.ofInt z).toReal = z := by simp [XReal.ofInt]

@[simp] theorem XReal.toReal_zero : XReal.zero.toReal = 0 := by simp [XReal.zero]

@[simp] theorem XReal.toReal_add (x y : XReal) : (x.add y).toReal = x.toReal + y.toReal := by
  cases x <;> cases y <;> simp [XReal.add]

@[simp] theorem XReal.toReal_mul (x y : XReal) : (x.mul y).toReal = x.toReal * y.toReal := by
  cases x <;> cases y <;> simp [XReal.mul]

@[simp] theorem XReal.toReal_smul (q : ℚ) (x : XReal) : (XReal.smul q x).toReal = q * x.toReal := by
  cases x <;> simp only [XReal.smul, XReal.toReal_alg, Alg.toReal_smul] <;> split <;> simp [*]

@[simp] theorem XReal.toReal_sub (x y : XReal) : (x.sub y).toReal = x.toReal - y.toReal := by
  cases x <;> cases y <;> simp [XReal.sub] <;> ring

theorem XReal.toReal_mulTwoCos (x : XReal) (m : Nat) (h1 : 1 ≤ m) (h7 : m ≤ 7) :
    (x.mulTwoCos m).toReal = twoCos m * x.toReal := by
  cases x <;> simp [XReal.mulTwoCos, Alg.toReal_mulTwoCos _ m h1 h7]

theorem XReal.floor_spec (x : XReal) : (x.floor : ℝ) ≤ x.toReal ∧ x.toReal < x.floor + 1 := by
  cases x with
  | alg a => exact a.floor_spec
  | _ => exact Config.reals.floor_spec _

theorem XReal.roundQuot_spec (x t : XReal) (h : t.toReal ≠ 0) : IsRoundHe (x.toReal / t.toReal) (x.roundQuot t) := by
  unfold XReal.roundQuot
  split
  · rw [XReal.toReal_alg] at h
    rw [XReal.toReal_alg, XReal.toReal_alg, ← Alg.toReal_div _ _ h]
    exact Alg.roundHe_spec _
  · exact Config.reals.roundQuot_spec _ _ h

theorem XReal.le_iff (x y : XReal) : x.le y = true ↔ x.toReal ≤ y.toReal := by
  unfold XReal.le
  split
  · exact Alg.le_iff _ _
  · have h := (y.sub x).floor_spec
    rw [XReal.toReal_sub] at h
    rw [decide_eq_true_iff]
    constructor
    · intro h0
      have : (0 : ℝ) ≤ ((y.sub x).floor : ℝ) := by exact_mod_cast h0
      linarith [h.1]
    · intro h0
      have : (-1 : ℝ) < ((y.sub x).floor : ℝ) := by linarith [h.2]
      have : -1 < (y.sub x).floor := by exact_mod_cast this
      omega

end Sys2Proof
end

