-- ==== Sys2Proof/Machine/Numerics.lean ====
section
/-! DEFINITION. The four functions of the NUMERICS parameter (00_scope R13): the exact formulas of the reference
instance (40_transform R110 to R113; 41_quantization R123, R124), or an implementation's own. -/

namespace Sys2Proof

/-! ### Blocks as rows -/

/-- A list of 64 entries as its eight rows. -/
def rowsOf : List XReal → List (List XReal)
  | a :: b :: c :: d :: e :: f :: g :: h :: rest => [a, b, c, d, e, f, g, h] :: rowsOf rest
  | _ => []

/-- Rows and columns exchanged, eight columns wide. -/
def transpose {α : Type} (m : List (List α)) : List (List α) :=
  m.foldr (fun row acc => List.zipWith List.cons row acc) (List.replicate 8 [])

/-- The block whose entries stand in a list in index order. -/
def blockOfList (l : List XReal) : RealBlock := Vector.ofFn fun k => l.getD k.val XReal.zero

/-! ### The basis and the transform -/

/-- The table of `C[k][n]` (40_transform R110): row `k`, entry `n` is `m` for `+g_m` and `−m` for `−g_m`, with
`g_m = cos(mπ/16)/2 = 2cos(mπ/16)/4`; `g0` is written `g4`, to which it is equal. -/
def basisTable : List (List Int) :=
  [[4,  4,  4,  4,  4,  4,  4,  4],
   [1,  3,  5,  7, -7, -5, -3, -1],
   [2,  6, -6, -2, -2, -6,  6,  2],
   [3, -7, -1, -5,  5,  1,  7, -3],
   [4, -4, -4,  4,  4, -4, -4,  4],
   [5, -1,  7,  3, -3, -7,  1, -5],
   [6, -2,  2, -6, -6,  2, -2,  6],
   [7, -5,  3, -1,  1, -3,  5, -7]]

/-- Four times the sum of the products of a row of basis entries with a row of values. -/
def basisDot : List Int → List XReal → XReal
  | .ofNat m :: gs, x :: xs => (basisDot gs xs).add (x.mulTwoCos m)
  | .negSucc m :: gs, x :: xs => (basisDot gs xs).sub (x.mulTwoCos (m + 1))
  | _, _ => XReal.zero

/-- The one-dimensional transform with the rows of `table` as basis, times four. -/
def transform1 (table : List (List Int)) (xs : List XReal) : List XReal := table.map (basisDot · xs)

/-- The separable two-dimensional transform: "transform rows, then transform the result's columns"; the two factors
of four of `transform1` are taken off at the end (40_transform R111, R113). -/
def transform2 (table : List (List Int)) (x : RealBlock) : RealBlock :=
  let rows := (rowsOf x.toList).map (transform1 table)
  let columns := (transpose rows).map (transform1 table)
  blockOfList (((transpose columns).flatten).map (XReal.smul (1 / 16)))

/-- `fdct` of the reference instance: `X[u][v] = Σ C[u][i]·C[v][j]·x[i][j]` (40_transform R111). -/
def fdctExact (x : RealBlock) : RealBlock := transform2 basisTable x

/-- `idct` of the reference instance: `x[i][j] = Σ C[u][i]·C[v][j]·X[u][v]`, the transposed basis (40_transform
R113). -/
def idctExact (x : RealBlock) : RealBlock := transform2 (transpose basisTable) x

/-! ### The NUMERICS parameter -/

/-- An implementation's own arithmetic (00_scope R13): four functions of their operands alone (NP1, by their types) with
NP2, NP3 and NP4, which are all a model may assume of them.
DESIGN CHOICE (notes/assumptions/2.md): the value type of such an instance is `XReal` too, a value of its format being
written as the real number it is, and a negative zero as another datum of the number 0; a format whose infinities or NaNs
take NP2 from some block is left out, as R13 asks NP2 of every block. -/
structure NumericsImpl where
  fdct : RealBlock → RealBlock
  idct : RealBlock → RealBlock
  qdiv : XReal → XReal → Int
  qmul : Half → XReal → XReal
  /-- `EPS_RT` (00_scope R8). -/
  eps : XReal
  /-- The values that may stand in the table of a block built with this instance. -/
  entry : XReal → Prop
  /-- 10_state R27: table entries are positive. -/
  entry_pos : ∀ t, entry t → 0 < t.toReal
  /-- NP2, for every block. -/
  np2 : ∀ (b : RealBlock) (k : Fin 64), |((idct (fdct b))[k]).toReal - (b[k]).toReal| ≤ eps.toReal
  /-- NP3. DESIGN CHOICE (notes/assumptions/31.md): the all-zero block, taken and given, is the one whose 64 entries are
  the datum `XReal.zero`; nothing is asked of a block with another datum of the number 0 in it, a negative zero say. -/
  np3 : fdct (Vector.replicate 64 XReal.zero) = Vector.replicate 64 XReal.zero
    ∧ idct (Vector.replicate 64 XReal.zero) = Vector.replicate 64 XReal.zero
  /-- NP4, for every table entry. -/
  np4 : ∀ (q : Half) (t : XReal), entry t → qdiv (qmul q t) t = q.toInt

/-- That there is such an arithmetic: no transform and a table of ones. It shows the constant below to exist and is used
for nothing else. -/
def NumericsImpl.trivial : NumericsImpl where
  fdct := fun b => b
  idct := fun b => b
  qdiv := fun x _ =>
    match x with
    | .alg a => a.k0.num
    | _ => 0
  qmul := fun q _ => XReal.ofInt q.toInt
  eps := XReal.zero
  entry := fun t => 0 < t.toReal
  entry_pos := fun _ h => h
  np2 := fun b k => by simp
  np3 := ⟨rfl, rfl⟩
  np4 := fun q t _ => Rat.num_intCast q.toInt

/-- Some arithmetic for each implementation, nothing known of it but its own fields. -/
opaque Config.anyNumerics [Inhabited NumericsImpl] : Nat → NumericsImpl

/-- The arithmetic of implementation `id` (00_scope R13; notes/assumptions/2.md). -/
def Config.numerics (id : Nat) : NumericsImpl := @Config.anyNumerics ⟨NumericsImpl.trivial⟩ id

/-- `fdct_impl` (00_scope R13). -/
def Numerics.fdct : Numerics → RealBlock → RealBlock
  | .exact, x => fdctExact x
  | .impl id, x => (Config.numerics id).fdct x

/-- `idct_impl` (00_scope R13). -/
def Numerics.idct : Numerics → RealBlock → RealBlock
  | .exact, x => idctExact x
  | .impl id, x => (Config.numerics id).idct x

/-- `qdiv_impl`, the rounded quotient of one quantize lane (00_scope R13; 41_quantization R123). -/
def Numerics.qdiv : Numerics → XReal → XReal → Int
  | .exact, x, t => x.roundQuot t
  | .impl id, x, t => (Config.numerics id).qdiv x t

/-- `qmul_impl`, one dequantize lane (00_scope R13; 41_quantization R124). -/
def Numerics.qmul : Numerics → Half → XReal → XReal
  | .exact, q, t => XReal.smul q.toInt t
  | .impl id, q, t => (Config.numerics id).qmul q t

/-- `EPS_RT`, 0 for the reference instance (00_scope R8, R13). -/
def Numerics.epsRt : Numerics → XReal
  | .exact => XReal.zero
  | .impl id => (Config.numerics id).eps

/-- What may stand in QT: under the reference instance every positive real number (10_state R27; 41_quantization R120);
under another one, an entry of its tables at which `dequantize_lane(0, t) = 0`, as 41_quantization R124 says of a table
entry. DEDUCED (notes/assumptions/20.md): that sentence speaks of every NUMERICS, as 44_block_pipeline R150 and R151 use
it; it is asked of the table, with the 0 it gives the datum
`XReal.zero` (notes/assumptions/31.md), and nothing beyond 00_scope R13 is assumed of the functions. -/
def Numerics.entry : Numerics → XReal → Prop
  | .exact, t => 0 < t.toReal
  | .impl id, t => (Config.numerics id).entry t ∧ (Config.numerics id).qmul 0 t = XReal.zero

/-- `sat16`: an integer saturated to the `int16` range, as its 16 bits (00_scope R10). -/
def sat16 (z : Int) : Half :=
  if z < -32768 then BitVec.ofInt 16 (-32768) else if 32767 < z then BitVec.ofInt 16 32767 else BitVec.ofInt 16 z

/-- `quantize_lane` (41_quantization R123). -/
def quantizeLane (num : Numerics) (x t : XReal) : Half := sat16 (num.qdiv x t)

/-- `dequantize_lane` (41_quantization R124). -/
def dequantizeLane (num : Numerics) (q : Half) (t : XReal) : XReal := num.qmul q t

end Sys2Proof
end

