-- ==== Sys2Proof/Machine/Quant.lean ====
section
/-! DEFINITION. The quantizer: QUANT and DEQUANT (41_quantization). -/

namespace Sys2Proof.Machine

/-- `QB[i][j] <- quantize_lane(CB[i][j], QT[i][j])` in all 64 lanes (41_quantization R125). -/
def quantBody (s : State) : State :=
  { s with qb := Vector.zipWith (quantizeLane s.build.numerics) s.cb s.qt }

/-- `CB[i][j] <- dequantize_lane(QB[i][j], QT[i][j])` in all 64 lanes (41_quantization R126). -/
def dequantBody (s : State) : State :=
  { s with cb := Vector.zipWith (dequantizeLane s.build.numerics) s.qb s.qt }

/-- QUANT (41_quantization R125). -/
def execQuant (s : State) : Result := whenClear s (.next (quantBody s))

/-- DEQUANT (41_quantization R126). -/
def execDequant (s : State) : Result := whenClear s (.next (dequantBody s))

end Sys2Proof.Machine
end

