-- ==== Sys2Proof/Machine/Rle.lean ====
section
/-! DEFINITION. The run-length coder: RLEENC and RLEDEC (43_rle_block_codec). -/

namespace Sys2Proof.Machine

/-- The loop of `rle_encode` over the values of positions 1 to 63, with the run of zeros so far. The forced flush at
255 is kept although 63 values cannot reach it (43_rle_block_codec R141, R145). -/
def rleLoop : List Half → (run : Nat) → List AcPair
  | [], _ => []
  | z :: zs, run =>
    if z = 0 then
      if run + 1 = 255 then ⟨255, 0⟩ :: rleLoop zs 0 else rleLoop zs (run + 1)
    else ⟨BitVec.ofNat 8 run, z⟩ :: rleLoop zs 0

/-- The AC pairs of `rle_encode(z)`; its dc is `z[0]` (43_rle_block_codec R141). -/
def rleEncode (z : IntBlock) : List AcPair := rleLoop (z.toList.drop 1) 0

/-- The walk of RLEDEC over the pairs, with the write cursor; a cursor of 64 or more ends it (43_rle_block_codec
R143). -/
def rleWalk : List AcPair → (cur : Nat) → IntBlock → IntBlock
  | [], _, z => z
  | p :: ps, cur, z =>
    if h : cur + p.run.toNat < 64 then rleWalk ps (cur + p.run.toNat + 1) (z.set (cur + p.run.toNat) p.val) else z

/-- The 64 values of a record: zeros, dc at position 0, the pairs from position 1 on (43_rle_block_codec R143). -/
def rleDecode (dc : Half) (ac : List AcPair) : IntBlock :=
  rleWalk ac 1 ((Vector.replicate 64 0).set 0 dc)

/-- `REC <- rle_encode(ZB)` (43_rle_block_codec R142). -/
def rleencBody (s : State) : State := { s with record := RecordReg.ofPairs s.zb[0] (rleEncode s.zb) }

/-- `ZB <- ` the decoded REC (43_rle_block_codec R143). -/
def rledecBody (s : State) : State := { s with zb := rleDecode s.record.dc (s.record.pairs s.gen) }

/-- RLEENC (43_rle_block_codec R142). -/
def execRleenc (s : State) : Result := whenClear s (.next (rleencBody s))

/-- RLEDEC (43_rle_block_codec R143). -/
def execRledec (s : State) : Result := whenClear s (.next (rledecBody s))

end Sys2Proof.Machine
end

