-- ==== Sys2Proof/Machine/Transform.lean ====
section
/-! DEFINITION. The Transform Engine: FDCT and IDCT (40_transform). -/

namespace Sys2Proof.Machine

/-- `CB <- fdct_impl(XB)` (40_transform R112). -/
def fdctBody (s : State) : State := { s with cb := s.build.numerics.fdct s.xb }

/-- `XB <- idct_impl(CB)` (40_transform R114). -/
def idctBody (s : State) : State := { s with xb := s.build.numerics.idct s.cb }

/-- FDCT (40_transform R112). -/
def execFdct (s : State) : Result := whenClear s (.next (fdctBody s))

/-- IDCT (40_transform R114). -/
def execIdct (s : State) : Result := whenClear s (.next (idctBody s))

end Sys2Proof.Machine
end

