-- ==== Sys2Proof/Machine/Zigzag.lean ====
section
/-! DEFINITION. Coefficient Reordering: ZZFWD and ZZINV (42_zigzag). -/

namespace Sys2Proof.Machine

/-- `to_zigzag`: the block's values read in the order `zz` (42_zigzag R132). -/
def toZigzag (zz : Vector Coord 64) (q : IntBlock) : IntBlock := zz.map fun c => q[c.index]

/-- `from_zigzag`'s loop: each value written at the position its index has in the order, over the block `q`, every
position of which is written when the order is a bijection (42_zigzag R133). -/
def fromZigzag (zz : Vector Coord 64) (z : IntBlock) (q : IntBlock) : IntBlock :=
  (zz.toList.zip z.toList).foldl (fun q w => q.set w.1.index w.2) q

/-- `ZB[k] <- QB[ZZ[k]]` (42_zigzag R132). -/
def zzfwdBody (s : State) : State := { s with zb := toZigzag s.zz s.qb }

/-- `QB[ZZ[k]] <- ZB[k]` (42_zigzag R133). -/
def zzinvBody (s : State) : State := { s with qb := fromZigzag s.zz s.zb s.qb }

/-- ZZFWD (42_zigzag R132). -/
def execZzfwd (s : State) : Result := whenClear s (.next (zzfwdBody s))

/-- ZZINV (42_zigzag R133). -/
def execZzinv (s : State) : Result := whenClear s (.next (zzinvBody s))

end Sys2Proof.Machine
end

