-- ==== Sys2Proof/Machine/Pipeline.lean ====
section
/-! DEFINITION. The fused block pipelines: ENCBLK and DECBLK (44_block_pipeline). -/

namespace Sys2Proof.Machine

/-- ENCBLK: the bodies of FDCT, QUANT, ZZFWD and RLEENC in sequence (44_block_pipeline R150). -/
def execEncblk (s : State) : Result := whenClear s (.next (rleencBody (zzfwdBody (quantBody (fdctBody s)))))

/-- DECBLK: the bodies of RLEDEC, ZZINV, DEQUANT and IDCT in sequence (44_block_pipeline R151). -/
def execDecblk (s : State) : Result := whenClear s (.next (idctBody (dequantBody (zzinvBody (rledecBody s)))))

end Sys2Proof.Machine
end

