-- ==== Sys2Proof/Machine/System.lean ====
section
/-! DEFINITION. The system commands NOP, CLRERR and SRST, never refused, and the illegal words (46_system_ops). -/

namespace Sys2Proof.Machine

/-- NOP: no state changes at all (46_system_ops R191). -/
def execNop (s : State) : Result := .next s

/-- CLRERR (46_system_ops R192). -/
def execClrerr (s : State) : Result := .next (clearErr s)

/-- SRST (46_system_ops R194). -/
def execSrst (s : State) : Result := .next (resetState s)

/-- A word that is none of the 19 codes: `ILLEGAL_CMD`, unless an error is pending already (46_system_ops R193). -/
def illegalWord (s : State) : Result := .next (raise .illegalCmd s)

end Sys2Proof.Machine
end

