-- ==== Sys2Proof/Machine/Units.lean ====
section
/-! DEFINITION. The container units HDR, CHN, REC and PAIR (30_encoding R84 to R87). A unit is no command: it is the
data an RD command reads at IPTR, which "takes the place of a program counter for the deserializer" (10_state R33).
DEDUCED (notes/assumptions/13.md), safe: the meaning of a unit is what the deserializer does on consuming it there,
the effect 45_container R165 to R167 give the RD command that reads it. A step runs one only through that command. -/

namespace Sys2Proof.Machine

/-- A unit of `n` bytes at IPTR is consumed: refused while an error is pending, `TRUNCATED` where it would extend past
the valid bytes (30_encoding R91; 60_exceptions R232, R238). -/
def consume (n : Nat) (s : State) (r : Result) : Result :=
  whenClear s (if s.ilen.toNat < s.iptr.toNat + n then .next (raise .truncated s) else r)

/-- HDR: height, width and channel count into HEIGHT, WIDTH and NCHAN (30_encoding R85; 45_container R165). -/
def execHdr (height width channels : Word) (s : State) : Result :=
  consume 16 s (.next (loadHdr height width channels s))

/-- CHN: the block count into BLKCNT (30_encoding R86; 45_container R166). -/
def execChn (blocks : Word) (s : State) : Result := consume 4 s (.next (loadChn blocks s))

/-- REC: dc and the pairs into REC (30_encoding R87; 45_container R167). -/
def execRecord (dc : Half) (ac : List AcPair) (s : State) : Result :=
  consume (4 + 3 * ac.length) s (.next (loadRecord dc ac s))

/-- PAIR: the next pair of the record in REC, one turn of RDREC's loop (30_encoding R87; 45_container R167). Beyond
REC_CAP there is no such pair (notes/assumptions/14.md). -/
def execPair (run : Byte) (val : Half) (s : State) : Result :=
  consume 3 s (if s.record.n.toNat < recCap then .next (loadPair ⟨run, val⟩ s) else .refused .pairBeyondRecCap)

end Sys2Proof.Machine
end

