-- ==== Sys2Proof/Machine/Dispatch.lean ====
section
/-! DEFINITION. What each instruction does: one arm per constructor of Instr. -/

namespace Sys2Proof.Machine

def exec (i : Instr) (s : State) : Host.Outcome State Fault Refusal :=
  match i with
  | .nop => Sys2Proof.Machine.execNop s
  | .fdct => Sys2Proof.Machine.execFdct s
  | .idct => Sys2Proof.Machine.execIdct s
  | .quant => Sys2Proof.Machine.execQuant s
  | .dequant => Sys2Proof.Machine.execDequant s
  | .zzfwd => Sys2Proof.Machine.execZzfwd s
  | .zzinv => Sys2Proof.Machine.execZzinv s
  | .rleenc => Sys2Proof.Machine.execRleenc s
  | .rledec => Sys2Proof.Machine.execRledec s
  | .encblk => Sys2Proof.Machine.execEncblk s
  | .decblk => Sys2Proof.Machine.execDecblk s
  | .wrhdr => Sys2Proof.Machine.execWrhdr s
  | .wrchn => Sys2Proof.Machine.execWrchn s
  | .wrrec => Sys2Proof.Machine.execWrrec s
  | .rdhdr => Sys2Proof.Machine.execRdhdr s
  | .rdchn => Sys2Proof.Machine.execRdchn s
  | .rdrec => Sys2Proof.Machine.execRdrec s
  | .clrerr => Sys2Proof.Machine.execClrerr s
  | .srst => Sys2Proof.Machine.execSrst s
  | .hdr height width channels => Sys2Proof.Machine.execHdr height width channels s
  | .chn blocks => Sys2Proof.Machine.execChn blocks s
  | .record dc ac => Sys2Proof.Machine.execRecord dc ac s
  | .pair run val => Sys2Proof.Machine.execPair run val s

end Sys2Proof.Machine
end

