-- ==== Sys2Proof/Machine/HostPort.lean ====
section
/-! DEFINITION. The host's actions: issuing a command by writing CMD, `HostRead` and `HostWrite` on every space with
its access rights, and the hardware reset (10_state R29 to R34, R37; 70_reset_and_hazards R260). -/

namespace Sys2Proof.Machine

/-- The value of a control register (10_state section 4). -/
def readCtrl (s : State) : CtrlReg → Word
  | .status => s.status
  | .height => s.height
  | .width => s.width
  | .nchan => s.nchan
  | .blkcnt => s.blkcnt
  | .ilen => s.ilen
  | .iptr => s.iptr
  | .optr => s.optr

/-- `HostWrite(CTRL, n, v)` for a register with storage: STATUS and NCHAN are read-only and keep their value, ILEN
stores `min(v, IMEM_SIZE)` (10_state R30, R32, R33, R37). -/
def writeCtrl (s : State) (v : Word) : CtrlReg → State
  | .status => s
  | .height => { s with height := v }
  | .width => { s with width := v }
  | .nchan => s
  | .blkcnt => { s with blkcnt := v }
  | .ilen => { s with ilen := if v.toNat ≤ s.build.imemSize.toNat then v else s.build.imemSize }
  | .iptr => { s with iptr := v }
  | .optr => { s with optr := v }

/-- The host has read a value. -/
def observe (s : State) (d : HostDatum) : Result := .next { s with seen := s.seen ++ [d] }

/-- An access to a memory of `size` bytes at address `a`: no step where the address does not exist
(93_implementation_defined J8). -/
def atAddress (size : Word) (a : Nat) (r : Result) : Result :=
  if a < size.toNat then r else .fault (.absentAddress a)

/-- `HostRead(space, index)` (10_state R37); CMD reads 0 (R29). -/
def hostRead (s : State) : Loc → Result
  | .cmd => observe s (.word 0)
  | .ctrl r => observe s (.word (readCtrl s r))
  | .xb k => observe s (.real s.xb[k])
  | .cb k => observe s (.real s.cb[k])
  | .qb k => observe s (.half s.qb[k])
  | .zb k => observe s (.half s.zb[k])
  | .recDc => observe s (.half s.record.dc)
  | .recN => observe s (.half s.record.n)
  | .recRun p =>
    if p < s.record.n.toNat then observe s (.byte (s.record.pairAt s.gen p).run) else .refused (.absentPair p)
  | .recVal p =>
    if p < s.record.n.toNat then observe s (.half (s.record.pairAt s.gen p).val) else .refused (.absentPair p)
  | .qt k => observe s (.real s.qt[k])
  | .zz k => observe s (.coord s.zz[k])
  | .imem a => atAddress s.build.imemSize a (observe s (.byte (s.imemByte a)))
  | .omem a => atAddress s.build.omemSize a (observe s (.byte (s.omemByte a)))

/-- The command word `c` runs to completion (10_state R29): decoding reads no state (30_encoding R81); an illegal
word is 46_system_ops R193. -/
def issue (c : Byte) (s : State) : Result :=
  match decodeCommand c with
  | some i => exec i s
  | none => illegalWord s

/-- What a host action does (10_state R29, R37; 70_reset_and_hazards R260): writes to the read-only locations QT, ZZ
and OMEM change nothing and raise no error. DESIGN CHOICE (notes/assumptions/9.md): a write of REC_N keeps the pairs at
the new count and above, whoever wrote them, so that a later, larger REC_N shows them again. -/
def perform (s : State) : HostAction → Result
  | .command c => issue c s
  | .writeCtrl r v => .next (writeCtrl s v r)
  | .writeXb k v => .next { s with xb := s.xb.set k v }
  | .writeCb k v => .next { s with cb := s.cb.set k v }
  | .writeQb k v => .next { s with qb := s.qb.set k v }
  | .writeZb k v => .next { s with zb := s.zb.set k v }
  | .writeRecDc v => .next { s with record := { s.record with dc := v } }
  | .writeRecN v => .next { s with record := { s.record with n := v } }
  | .writeRecRun p v => .next { s with record := s.record.updatePair s.gen p.val fun q => { q with run := v } }
  | .writeRecVal p v => .next { s with record := s.record.updatePair s.gen p.val fun q => { q with val := v } }
  | .writeQt _ _ => .next s
  | .writeZz _ _ => .next s
  | .writeImem a v => atAddress s.build.imemSize a (.next { s with imem := Memory.write s.imem a v })
  | .writeOmem a _ => atAddress s.build.omemSize a (.next s)
  | .read l => hostRead s l
  | .reset => .next (resetState s)

/-- The state with one of the block's units where the command that reads it finds it, and that command next
(notes/assumptions/23.md). -/
def placeUnit (s : State) (bytes : List Byte) (c : Byte) : State :=
  { s with
    imem := Memory.store s.imem s.iptr.toNat bytes
    ilen := if s.ilen.toNat < s.iptr.toNat + bytes.length then BitVec.ofNat 32 (s.iptr.toNat + bytes.length) else s.ilen
    queue := .command c :: s.queue }

end Sys2Proof.Machine
end

