-- ==== Sys2Proof/Machine/Step.lean ====
section
/-! DEFINITION. One step: the host's next action (10_state R20, R29). -/

namespace Sys2Proof.Machine

/-- The host's next action is taken off the queue and done. With none pending nothing happens: the block acts only
when the host makes it (60_exceptions R240; 70_reset_and_hazards R271; notes/assumptions/10.md). -/
def step (s : State) : Host.Outcome State Fault Refusal :=
  match s.queue with
  | [] => .next s
  | a :: rest => perform { s with queue := rest } a

/-- `s` with the instruction whose table bits are `w` where the next step fetches it: a command as the host's next
action; a container unit in IMEM at IPTR with the RD command that reads it as the host's next action; a PAIR as the
only pair of a record (notes/assumptions/10.md, 23.md). -/
def State.withFetchWord (s : State) (nbits w : Nat) : State :=
  let bytes := leBytes (nbits / 8) w
  match nbits with
  | 8 => { s with queue := .command (BitVec.ofNat 8 w) :: s.queue }
  | 24 => placeUnit s (leBytes 2 s.record.dc.toNat ++ leBytes 2 1 ++ bytes) 0x1A#8
  | 32 => placeUnit s bytes 0x19#8
  | 128 => placeUnit s bytes (if bytes.take 4 = magicBytes then 0x18#8 else 0x1A#8)
  | _ => placeUnit s bytes 0x1A#8

end Sys2Proof.Machine
end

