-- ==== Sys2Proof/Machine/Frame.lean ====
section
/-! DEFINITION. The serializer's two whole functions over a Compressed Image (45_container R160, R164) and the size of
a container (30_encoding R90). The block itself works one unit at a time. -/

namespace Sys2Proof.Machine

/-- An Encoded Block Record `{dc, ac}` as a value (43_rle_block_codec R140). -/
structure BlockRecord where
  dc : Half
  ac : List AcPair
deriving DecidableEq, Repr

/-- A Compressed Image: its channels, each a sequence of records, and its shape, whose third component is the channel
count (00_scope glossary; 45_container R164). -/
structure CompressedImage where
  channels : List (List BlockRecord)
  height : Nat
  width : Nat
  count : Nat
deriving DecidableEq, Repr

/-- The images `serialize` is defined on: three channels, every size and count within its field (45_container R160). -/
def CompressedImage.wf (x : CompressedImage) : Bool :=
  decide (x.channels.length = 3) && decide (x.count = 3) && decide (x.height < 2 ^ 32) && decide (x.width < 2 ^ 32)
    && x.channels.all fun c => decide (c.length < 2 ^ 32) && c.all fun r => decide (r.ac.length ≤ recCap)

/-- One channel section of a well-formed image: its block count and its records (30_encoding R84). -/
def serializeChannel (c : List BlockRecord) : List Byte :=
  encode (.chn (BitVec.ofNat 32 c.length)) ++ c.flatMap fun r => encode (.record r.dc r.ac)

/-- `serialize` (45_container R160): the header with the constant channel count 3, then the channel sections.
DESIGN CHOICE (notes/assumptions/29.md): none for an image outside its domain, on which 91_not_in_source N8 finds the
source silent; nothing is wrapped or saturated. -/
def serialize (x : CompressedImage) : Option (List Byte) :=
  if x.wf then
    some (encode (.hdr (BitVec.ofNat 32 x.height) (BitVec.ofNat 32 x.width) 3) ++ x.channels.flatMap serializeChannel)
  else none

/-- `repeat n times: read a record` (45_container R164). -/
def parseRecords : Nat → List Byte → Except DecodeError (List BlockRecord × List Byte)
  | 0, bs => .ok ([], bs)
  | n + 1, bs => do
    let (d, bs) ← decodeField 2 bs
    let (k, bs) ← decodeField 2 bs
    let (ac, bs) ← decodePairs k bs
    let (rs, bs) ← parseRecords n bs
    return (⟨BitVec.ofNat 16 d, ac⟩ :: rs, bs)

/-- `repeat count times: read a channel section` (45_container R164). -/
def parseChannels : Nat → List Byte → Except DecodeError (List (List BlockRecord) × List Byte)
  | 0, bs => .ok ([], bs)
  | n + 1, bs => do
    let (blocks, bs) ← decodeField 4 bs
    let (rs, bs) ← parseRecords blocks bs
    let (cs, bs) ← parseChannels n bs
    return (rs :: cs, bs)

/-- `parse` (45_container R164). Bytes after the last channel section are not looked at (30_encoding R92). -/
def parse (bs : List Byte) : Except DecodeError CompressedImage := do
  let (m, bs) ← decodeField 4 bs
  if m ≠ magicNat then throw .badMagic
  let (h, bs) ← decodeField 4 bs
  let (w, bs) ← decodeField 4 bs
  let (count, bs) ← decodeField 4 bs
  let (cs, _) ← parseChannels count bs
  return ⟨cs, h, w, count⟩

/-- The size of a container in bytes (30_encoding R90). -/
def containerSize (x : CompressedImage) : Nat :=
  16 + (x.channels.map fun c => 4 + (c.map fun r => 4 + 3 * r.ac.length).sum).sum

end Sys2Proof.Machine
end

