-- ==== Sys2Proof/Machine/HostProc.lean ====
section
/-! DEFINITION. The host procedures of 47_host_procedures: outside the hardware (00_scope R4), they drive it by the
host's actions alone. No step of the machine depends on them. -/

namespace Sys2Proof.Machine

/-- Host actions one after another, up to the first that gives no next state. -/
def runActions : List HostAction → State → Result
  | [], s => .next s
  | a :: as, s =>
    match perform s a with
    | .next t => runActions as t
    | .fault r => .fault r
    | .refused r => .refused r

/-! ### SERIALIZE and PARSE -/

/-- The host writes of pair `p` of REC; a record has no pair at REC_CAP or above (10_state R26). -/
def pairActions (p : Nat) (q : AcPair) : List HostAction :=
  if h : p < 65535 then [.writeRecRun ⟨p, h⟩ q.run, .writeRecVal ⟨p, h⟩ q.val] else []

/-- The host writes of a record's pairs from index `p` on. -/
def pairsActions : Nat → List AcPair → List HostAction
  | _, [] => []
  | p, q :: qs => pairActions p q ++ pairsActions (p + 1) qs

/-- `REC.dc <- r.dc ; REC.n <- length(r.ac) ; REC.ac[p] <- r.ac[p]` (47_host_procedures R204, R213).
DESIGN CHOICE (notes/assumptions/30.md): of a record of more than REC_CAP pairs the first REC_CAP are loaded, which is
all REC holds (10_state R26) and more than decoding looks at, since the walk ends by the 64th pair (43_rle_block_codec
R143). -/
def recordActions (r : BlockRecord) : List HostAction :=
  .writeRecDc r.dc :: .writeRecN (BitVec.ofNat 16 (min r.ac.length recCap)) :: pairsActions 0 (r.ac.take recCap)

/-- One channel of SERIALIZE (47_host_procedures R213). -/
def serializeChannelActions (c : List BlockRecord) : List HostAction :=
  .writeCtrl .blkcnt (BitVec.ofNat 32 c.length) :: .command 0x11#8
    :: c.flatMap fun r => recordActions r ++ [.command 0x12#8]

/-- SERIALIZE as the host's actions, for an image in the domain of `serialize` (47_host_procedures R213; 30_encoding R95;
notes/assumptions/29.md). -/
def serializeActions (x : CompressedImage) : Option (List HostAction) :=
  if x.wf then
    some ([.writeCtrl .optr 0, .writeCtrl .height (BitVec.ofNat 32 x.height),
      .writeCtrl .width (BitVec.ofNat 32 x.width), .command 0x10#8] ++ x.channels.flatMap serializeChannelActions)
  else none

/-- SERIALIZE's actions on an OMEM that may be small: at `OUT_OVERFLOW` the host reads out `OMEM[0 .. OPTR − 1]`, sets
`OPTR <- 0`, issues CLRERR and does the action again. Gives the pieces read out so far, joined, and the state
(47_host_procedures R213); none where a unit is longer than OMEM. -/
def drainActions : List HostAction → State → Option (List Byte × State)
  | [], s => some ([], s)
  | a :: as, s =>
    match perform s a with
    | .next t =>
      if t.err = ErrCode.outOverflow.code then
        match runActions [.writeCtrl .optr 0, .command 0x1E#8, a] t with
        | .next u =>
          if u.err = 0 then (drainActions as u).map fun out => (t.omemBytes 0 t.optr.toNat ++ out.1, out.2) else none
        | _ => none
      else drainActions as t
    | _ => none

/-- SERIALIZE in pieces: what was drained, and what is left in OMEM at the end (47_host_procedures R213). -/
def serializeInPieces (s : State) (x : CompressedImage) : Option (List Byte) := do
  let actions ← serializeActions x
  let (pieces, t) ← drainActions actions s
  return pieces ++ t.omemBytes 0 t.optr.toNat

/-- The pseudo-command `BENC`, the source's block encode from QB to REC (30_encoding R95). -/
def bencActions : List HostAction := [.command 0x05#8, .command 0x07#8]

/-- The pseudo-command `BDEC`, the source's block decode from REC to QB (30_encoding R95). -/
def bdecActions : List HostAction := [.command 0x08#8, .command 0x06#8]

/-- The host writes of container bytes into IMEM from address `a` up. -/
def imemActions : Nat → List Byte → List HostAction
  | _, [] => []
  | a, b :: bs => .writeImem a b :: imemActions (a + 1) bs

/-- PARSE's set-up: `IMEM[0 .. L − 1] <- b ; ILEN <- L ; IPTR <- 0` (47_host_procedures R214). -/
def loadActions (bs : List Byte) : List HostAction :=
  imemActions 0 bs ++ [.writeCtrl .ilen (BitVec.ofNat 32 bs.length), .writeCtrl .iptr 0]

/-- A command issued by PARSE: the state after it, or the code the host then reads in STATUS with the state it reads it
in (47_host_procedures R214). -/
def issueChecked (c : Byte) (s : State) : Except (BitVec 4 × State) State :=
  match issue c s with
  | .next t => if t.err = 0 then .ok t else .error (t.err, t)
  | _ => .error (0, s)

/-- PARSE's loop over the records of a channel (47_host_procedures R214). -/
def parseRecordsBy : Nat → State → Except (BitVec 4 × State) (List BlockRecord × State)
  | 0, s => .ok ([], s)
  | n + 1, s => do
    let s ← issueChecked 0x1A#8 s
    let r : BlockRecord := ⟨s.record.dc, s.record.pairs s.gen⟩
    let (rs, s) ← parseRecordsBy n s
    return (r :: rs, s)

/-- PARSE's loop over the channels (47_host_procedures R214). -/
def parseChannelsBy : Nat → State → Except (BitVec 4 × State) (List (List BlockRecord) × State)
  | 0, s => .ok ([], s)
  | n + 1, s => do
    let s ← issueChecked 0x19#8 s
    let (rs, s) ← parseRecordsBy s.blkcnt.toNat s
    let (cs, s) ← parseChannelsBy n s
    return (rs :: cs, s)

/-- PARSE once the container is loaded, up to its end or its first failure (47_host_procedures R214). -/
def parseBy (s : State) : Except (BitVec 4 × State) (CompressedImage × State) := do
  let s ← issueChecked 0x18#8 s
  let (cs, t) ← parseChannelsBy s.nchan.toNat s
  return (⟨cs, s.height.toNat, s.width.toNat, s.nchan.toNat⟩, t)

/-- PARSE: the image, or the failure reported with everything gathered discarded and CLRERR issued; and the state the
block is left in (47_host_procedures R214). -/
def parseOnBlock (s : State) : Except (BitVec 4) CompressedImage × State :=
  match parseBy s with
  | .ok (x, t) => (.ok x, t)
  | .error (e, t) =>
    match issue 0x1E#8 t with
    | .next u => (.error e, u)
    | _ => (.error e, t)

/-! ### The raster and its tiles -/

/-- A raster of 8-bit samples, three channels, row by row and interleaved (47_host_procedures R201). -/
structure Raster where
  height : Nat
  width : Nat
  samples : List Byte
deriving DecidableEq, Repr

/-- Sample `(y, x, c)` (47_host_procedures R201). -/
def sampleAt (r : Raster) (y x c : Nat) : Byte := r.samples.getD ((y * r.width + x) * 3 + c) 0

/-- How many tiles cover an extent: `ceil(extent / 8)` (47_host_procedures R201). -/
def tileCount (extent : Nat) : Nat := (extent + 7) / 8

/-- The valid extent of tile number `t`: `min(8, extent − 8·t)` (47_host_procedures R201). -/
def validExtent (extent t : Nat) : Nat := min 8 (extent - 8 * t)

/-- The tiles of a raster as `(ty, tx)` in order number (47_host_procedures R201). -/
def tileGrid (height width : Nat) : List (Nat × Nat) :=
  (List.range (tileCount height)).flatMap fun ty => (List.range (tileCount width)).map fun tx => (ty, tx)

/-- The level-shifted, edge-replicated block of a tile (47_host_procedures R202). -/
def tileBlock (r : Raster) (c : Nat) (tile : Nat × Nat) : RealBlock :=
  Vector.ofFn fun k =>
    let y := 8 * tile.1 + min (k.val / 8) (validExtent r.height tile.1 - 1)
    let x := 8 * tile.2 + min (k.val % 8) (validExtent r.width tile.2 - 1)
    XReal.ofInt ((sampleAt r y x c).toNat - 128)

/-- The host writes of a whole block into XB. -/
def blockActions (b : RealBlock) : List HostAction := (List.finRange 64).map fun k => .writeXb k b[k]

/-! ### compress and decompress -/

/-- The records of tiles coded one after another on the block (47_host_procedures R203). -/
def compressTiles (r : Raster) (c : Nat) : List (Nat × Nat) → State → Option (List BlockRecord × State)
  | [], s => some ([], s)
  | tile :: tiles, s =>
    match runActions (blockActions (tileBlock r c tile) ++ [.command 0x09#8]) s with
    | .next t => (compressTiles r c tiles t).map fun out => (⟨t.record.dc, t.record.pairs t.gen⟩ :: out.1, out.2)
    | _ => none

/-- `compress` (47_host_procedures R203), on a block in state `s`. DESIGN CHOICE (notes/assumptions/29.md): the shape is
kept as it is whatever its size, also where it does not fit a container's field; only `serialize` asks that it does. -/
def compress (s : State) (r : Raster) : Option CompressedImage := do
  let tiles := tileGrid r.height r.width
  let (c0, s) ← compressTiles r 0 tiles s
  let (c1, s) ← compressTiles r 1 tiles s
  let (c2, _) ← compressTiles r 2 tiles s
  return ⟨[c0, c1, c2], r.height, r.width, 3⟩

/-- The blocks decoded for the first `n` records of a channel, fewer where the sequence is shorter
(47_host_procedures R204, R205). -/
def decodeBlocks : Nat → List BlockRecord → State → Option (List RealBlock × State)
  | 0, _, s => some ([], s)
  | _, [], s => some ([], s)
  | n + 1, r :: rs, s =>
    match runActions (recordActions r ++ [.command 0x0A#8]) s with
    | .next t => (decodeBlocks n rs t).map fun out => (t.xb :: out.1, out.2)
    | _ => none

/-- `SAMPLE_NARROW`, the host's open parameter (47_host_procedures R206). -/
inductive SampleNarrow where
  | truncate
  | roundHalfEven
deriving DecidableEq, Repr

/-- `to_sample` (47_host_procedures R206): add 128, clip to 0 to 255, narrow to 8 bits. -/
def toSample (mode : SampleNarrow) (v : XReal) : Byte :=
  let w := v.add (XReal.ofInt 128)
  if !XReal.zero.le w then 0
  else if !w.le (XReal.ofInt 255) then 255
  else match mode with
    | .truncate => BitVec.ofInt 8 w.floor
    | .roundHalfEven => BitVec.ofInt 8 w.roundHe

/-- Sample `(y, x)` of a channel from its decoded blocks; 0 where the tile got no record (47_host_procedures R204,
R205). -/
def outputSample (mode : SampleNarrow) (width : Nat) (blocks : List RealBlock) (y x : Nat) : Byte :=
  match blocks[y / 8 * tileCount width + x / 8]? with
  | some b => toSample mode (b.toList.getD (8 * (y % 8) + x % 8) XReal.zero)
  | none => 0

/-- `decompress` (47_host_procedures R204, R205), on a block in state `s`; an image whose channel count is not 3 is
refused (R209). -/
def decompress (mode : SampleNarrow) (s : State) (x : CompressedImage) : Option Raster :=
  match x.channels with
  | [c0, c1, c2] =>
    let h := x.height
    let w := x.width
    let n := tileCount h * tileCount w
    do
      let (b0, s) ← decodeBlocks n c0 s
      let (b1, s) ← decodeBlocks n c1 s
      let (b2, _) ← decodeBlocks n c2 s
      return ⟨h, w, (List.range h).flatMap fun y => (List.range w).flatMap fun k =>
        [outputSample mode w b0 y k, outputSample mode w b1 y k, outputSample mode w b2 y k]⟩
  | _ => none

/-! ### estimate -/

/-- `estimated_bytes` (47_host_procedures R211). -/
def estimatedBytes (x : CompressedImage) : Nat :=
  128 + (x.channels.map fun c => (c.map fun r => 2 + 3 * r.ac.length).sum).sum

/-- `estimate`: original bytes, estimated bytes and their ratio (47_host_procedures R211); an image whose channel
count is not 3 is refused (R209). -/
def estimate (x : CompressedImage) : Option (Nat × Nat × ℚ) :=
  if x.channels.length = 3 then
    let original := x.height * x.width * 3
    some (original, estimatedBytes x, original / estimatedBytes x)
  else none

end Sys2Proof.Machine
end

