-- ==== Sys2Proof/Safety.lean ====
section
/-! DEFINITION. The terms claims are stated in: the entries of the basis matrix, the named properties of
NUMERICS, the machine's invariant, what it is for an instruction to fail, and the bytes of a field. -/

namespace Sys2Proof

/-! ### Real numbers -/

/-- The entry `C[k][n] = a(k) · cos((2n + 1)kπ/16)` of the basis matrix (40_transform R110). -/
noncomputable def basisEntry (k n : Fin 8) : ℝ :=
  (if k = 0 then Real.sqrt (1 / 8) else 1 / 2) * Real.cos ((2 * (n.val : ℝ) + 1) * k.val * Real.pi / 16)

/-- The index of entry `(i, j)` of a block (10_state R37). -/
def blockIndex (i j : Fin 8) : Fin 64 := ⟨8 * i.val + j.val, by omega⟩

/-! ### NUMERICS (00_scope R13) -/

/-- The properties of a NUMERICS a model may assume: NP2, NP3 and NP4 for table entries, with what the spec says of
the entries themselves: the zero lane of 41_quantization R124, and that they are positive (10_state R27). NP1 holds of any
function. -/
structure Numerics.Lawful (num : Numerics) : Prop where
  roundTrip : ∀ (b : RealBlock) (k : Fin 64),
    |((num.idct (num.fdct b))[k]).toReal - (b[k]).toReal| ≤ num.epsRt.toReal
  zeroBlock : num.fdct (Vector.replicate 64 XReal.zero) = Vector.replicate 64 XReal.zero
    ∧ num.idct (Vector.replicate 64 XReal.zero) = Vector.replicate 64 XReal.zero
  tableInverse : ∀ (q : Half) (t : XReal), num.entry t → num.qdiv (num.qmul q t) t = q.toInt
  zeroLane : ∀ t, num.entry t → num.qmul 0 t = XReal.zero
  entryPos : ∀ t, num.entry t → 0 < t.toReal

namespace Machine

/-! ### The tables and the invariant -/

/-- Every entry of QT is one a table may have, and so positive (10_state R27), with a zero lane (41_quantization R124). -/
def State.tablePositive (s : State) : Prop := ∀ k : Fin 64, s.build.numerics.entry s.qt[k]

/-- ZZ is a bijection between index and position: no position stands twice among its 64 (10_state R28). -/
def State.orderBijective (s : State) : Prop := s.zz.toList.Nodup

/-- What holds in every state a block can be in: STATUS has bits 31 to 4 zero and a code of 0 to 4 (10_state R30),
`ILEN <= IMEM_SIZE` (R33), each memory lists addresses it has, in its canonical form (20_memory R50, R51), QT holds
table entries (R27; 41_quantization R124, notes/assumptions/20.md) and ZZ is a bijection (R28). -/
structure State.Inv (s : State) : Prop where
  status : s.status.toNat ≤ 4
  ilen : s.ilen.toNat ≤ s.build.imemSize.toNat
  imemForm : Memory.wf s.imem
  omemForm : Memory.wf s.omem
  imemRange : ∀ c ∈ s.imem, c.1 < s.build.imemSize.toNat
  omemRange : ∀ c ∈ s.omem, c.1 < s.build.omemSize.toNat
  table : s.tablePositive
  order : s.orderBijective

/-! ### Completion and failure -/

/-- Only `STATUS.ERR` may differ between the two states (60_exceptions R236; 10_state R30). -/
def onlyErrDiffers (s t : State) : Prop :=
  t = { s with status := t.status } ∧ t.status.extractLsb' 4 28 = s.status.extractLsb' 4 28

/-- The instruction fails with code `e`: nothing changes but `STATUS.ERR`, which becomes `e` (60_exceptions R236). -/
def FailsWith (i : Instr) (s : State) (e : BitVec 4) : Prop :=
  ∃ t, exec i s = .next t ∧ onlyErrDiffers s t ∧ t.err = e

/-- The state when the host has read one more value (10_state R37; notes/assumptions/11.md). -/
def State.reading (s : State) (d : HostDatum) : State := { s with seen := s.seen ++ [d] }

/-- Two instructions one after the other. -/
def execThen (r : Result) (i : Instr) : Result :=
  match r with
  | .next t => exec i t
  | .fault f => .fault f
  | .refused f => .refused f

/-- The pairs of a record as a sequence of PAIR units. -/
def execPairs : List AcPair → Result → Result
  | [], r => r
  | p :: ps, r => execPairs ps (execThen r (.pair p.run p.val))

/-! ### Fields as bytes -/

/-- A 2-byte field, low byte first (20_memory R54; 30_encoding R88). -/
def halfBytes (v : Half) : List Byte := [v.extractLsb' 0 8, v.extractLsb' 8 8]

/-- A 4-byte field, low byte first (20_memory R54; 30_encoding R88). -/
def wordBytes (v : Word) : List Byte :=
  [v.extractLsb' 0 8, v.extractLsb' 8 8, v.extractLsb' 16 8, v.extractLsb' 24 8]

/-- The position RLEDEC gives pair `p` of `ac`: the cursor after its run (43_rle_block_codec R143). -/
def pairPosition (ac : List AcPair) (p : Nat) : Nat :=
  1 + ((ac.take p).map fun q => q.run.toNat + 1).sum + (ac.getD p ⟨0, 0⟩).run.toNat

end Machine

end Sys2Proof
end

