-- ==== Sys2Proof/Certificates/Slice0/Obligations.lean ====
section
/-! DEFINITION. The statements for the provers, each from the rules of spec/ its docstring names. -/

open Sys2Proof Sys2Proof.Machine

/-! ### Encodings -/

/-- 30_encoding R82: the nineteen codes, and no other word is a command. -/
def Obligations.CommandMapIsTheTable : Prop :=
  ∀ (c : Byte) (i : Instr), decodeCommand c = some i ↔ (c, i) ∈
    [(0x00#8, Instr.nop), (0x01#8, Instr.fdct), (0x02#8, Instr.idct), (0x03#8, Instr.quant),
     (0x04#8, Instr.dequant), (0x05#8, Instr.zzfwd), (0x06#8, Instr.zzinv), (0x07#8, Instr.rleenc),
     (0x08#8, Instr.rledec), (0x09#8, Instr.encblk), (0x0A#8, Instr.decblk), (0x10#8, Instr.wrhdr),
     (0x11#8, Instr.wrchn), (0x12#8, Instr.wrrec), (0x18#8, Instr.rdhdr), (0x19#8, Instr.rdchn),
     (0x1A#8, Instr.rdrec), (0x1E#8, Instr.clrerr), (0x1F#8, Instr.srst)]

/-- 30_encoding R85 to R88: a few units written out byte by byte decode to the units they stand for (95 V70, V71,
V72, V73, V74). -/
def Obligations.UnitBytesDecode : Prop :=
  decodeAll .hdr [0x4A#8, 0x51#8, 0x5A#8, 0x31#8, 0x04#8, 0x03#8, 0x02#8, 0x01#8, 0xFF#8, 0xFF#8, 0xFF#8, 0xFF#8,
      0x03#8, 0x00#8, 0x00#8, 0x00#8] = some (.hdr 0x01020304#32 0xFFFFFFFF#32 3#32)
    ∧ decodeAll .chn [0x04#8, 0x00#8, 0x00#8, 0x00#8] = some (.chn 4#32)
    ∧ decodeAll .record [0x05#8, 0x00#8, 0x02#8, 0x00#8, 0x00#8, 0x05#8, 0x00#8, 0x01#8, 0xFE#8, 0xFF#8]
      = some (.record 5#16 [⟨0#8, 5#16⟩, ⟨1#8, BitVec.ofInt 16 (-2)⟩])
    ∧ decodeAll .record [0x00#8, 0x80#8, 0x01#8, 0x00#8, 0xFF#8, 0xFF#8, 0x7F#8]
      = some (.record (BitVec.ofInt 16 (-32768)) [⟨255#8, 32767#16⟩])
    ∧ decodeAll .pair [0x02#8, 0xFD#8, 0xFF#8] = some (.pair 2#8 (BitVec.ofInt 16 (-3)))

/-- 30_encoding R82, R85 to R88: decoding an encoded well-formed instruction gives it back, whatever follows. -/
def Obligations.DecodeOfEncode : Prop :=
  ∀ (i : Instr) (rest : List Byte), i.wf = true → decode i.format (encode i ++ rest) = .ok (i, rest)

/-- 30_encoding R84 to R89: bytes that decode are the encoding of what they decode to, so no two byte strings of one
length are the same unit and no field is dropped. -/
def Obligations.EncodeOfDecode : Prop :=
  ∀ (f : Format) (bs rest : List Byte) (i : Instr), decode f bs = .ok (i, rest) →
    i.wf = true ∧ i.format = f ∧ encode i ++ rest = bs

/-- 30_encoding R89: an encoding is as long as the layout says. -/
def Obligations.EncodingHasItsLength : Prop :=
  ∀ i : Instr, (encode i).length = i.size

/-! ### The step -/

/-- 10_state R29; 30_encoding R81: the host's write of a command word runs the instruction the word decodes to, on the
state without that action; nothing else is added around it. -/
def Obligations.StepRunsTheCommand : Prop :=
  ∀ (s : State) (c : Byte) (i : Instr) (rest : List HostAction),
    s.queue = .command c :: rest → decodeCommand c = some i → step s = exec i { s with queue := rest }

/-- 46_system_ops R193; 30_encoding R83: any other word sets `ILLEGAL_CMD` when no error is pending and has no effect
otherwise. -/
def Obligations.IllegalWordSetsIllegalCmd : Prop :=
  ∀ (s : State) (c : Byte) (rest : List HostAction), s.queue = .command c :: rest →
    (c.toNat ∈ [0x0B, 0x0C, 0x0D, 0x0E, 0x0F, 0x13, 0x14, 0x15, 0x16, 0x17, 0x1B, 0x1C, 0x1D] ∨ 0x20 ≤ c.toNat) →
    ∃ t, step s = .next t ∧ onlyErrDiffers { s with queue := rest } t
      ∧ t.err = (if s.err = 0 then 3 else s.err)

/-- 45_container R165 to R167; 30_encoding R85 to R87: an RD command acts as the unit that the valid bytes from IPTR
on decode to. -/
def Obligations.RdRunsTheDecodedUnit : Prop :=
  ∀ (s : State) (i : Instr) (rest : List Byte),
    let valid := s.imemBytes s.iptr.toNat (s.ilen.toNat - s.iptr.toNat)
    (decode .hdr valid = .ok (i, rest) → exec .rdhdr s = exec i s)
      ∧ (decode .chn valid = .ok (i, rest) → exec .rdchn s = exec i s)
      ∧ (decode .record valid = .ok (i, rest) → exec .rdrec s = exec i s)

/-- 60_exceptions R230; 10_state R37 with 93 J8: the machine stops only at a host access to an address a memory does
not have, or a host read of a pair the record does not have. -/
def Obligations.OnlyHostAccessesStop : Prop :=
  ∀ s : State,
    (∀ f, step s = .fault f → ∃ a v rest, f = .absentAddress a ∧
      (((s.queue = .read (.imem a) :: rest ∨ s.queue = .writeImem a v :: rest) ∧ s.build.imemSize.toNat ≤ a)
        ∨ ((s.queue = .read (.omem a) :: rest ∨ s.queue = .writeOmem a v :: rest) ∧ s.build.omemSize.toNat ≤ a)))
    ∧ (∀ r, step s = .refused r → ∃ p rest, r = .absentPair p ∧ s.record.n.toNat ≤ p
      ∧ (s.queue = .read (.recRun p) :: rest ∨ s.queue = .read (.recVal p) :: rest))

/-- 60_exceptions R230, R235; 10_state R40: every command completes in every state, whatever the buffers hold. -/
def Obligations.CommandsNeverStop : Prop :=
  ∀ (i : Instr) (s : State), i.format = .c8 → ∃ t, exec i s = .next t

/-! ### Errors and system commands -/

/-- 46_system_ops R191: NOP, code 0x00, changes no state at all and is never refused. -/
def Obligations.NopChangesNothing : Prop :=
  decodeCommand 0x00#8 = some .nop ∧ ∀ s : State, exec .nop s = .next s

/-- 46_system_ops R192: CLRERR, code 0x1E, clears the code, in every state, and changes nothing else. -/
def Obligations.ClrerrClearsTheCode : Prop :=
  decodeCommand 0x1E#8 = some .clrerr ∧
    ∀ s : State, ∃ t, exec .clrerr s = .next t ∧ onlyErrDiffers s t ∧ t.err = 0 ∧ (s.err = 0 → t = s)

/-- 46_system_ops R194; 10_state R40, R41: SRST gives, in every state, the reset state: registers and REC zero, every
data element and memory byte unspecified; the tables are unaffected. That an unspecified element is a free value drawn
afresh by the counter `gen`, and that the model's other own fields stay, is the model's choice (logs 6, 7, 8, 10). -/
def Obligations.SrstGivesTheResetState : Prop :=
  ∀ s : State, ∃ t, exec .srst s = .next t
    ∧ t.status = 0 ∧ t.height = 0 ∧ t.width = 0 ∧ t.nchan = 0 ∧ t.blkcnt = 0 ∧ t.ilen = 0 ∧ t.iptr = 0 ∧ t.optr = 0
    ∧ t.record.dc = 0 ∧ t.record.n = 0 ∧ t.qt = s.qt ∧ t.zz = s.zz ∧ t.build = s.build
    ∧ (∀ k : Fin 64, t.xb[k] = Config.freeReal t.gen .xb k.val ∧ t.cb[k] = Config.freeReal t.gen .cb k.val
      ∧ t.qb[k] = Config.freeHalf t.gen .qb k.val ∧ t.zb[k] = Config.freeHalf t.gen .zb k.val)
    ∧ (∀ a, t.imemByte a = Config.freeByte t.gen .imem a ∧ t.omemByte a = Config.freeByte t.gen .omem a)
    ∧ (∀ p, t.record.pairAt t.gen p = ⟨Config.freeByte t.gen .recRun p, Config.freeHalf t.gen .recVal p⟩)
    ∧ s.gen < t.gen ∧ t.queue = s.queue ∧ t.seen = s.seen

/-- 10_state R41; 70_reset_and_hazards R261: the reset values of everything but the data. The sizes and NUMERICS of
`State.reset` are the model's choice (logs 2, 5) and are not stated. -/
def Obligations.ResetValues : Prop :=
  State.reset.status = 0 ∧ State.reset.err = 0 ∧ State.reset.height = 0 ∧ State.reset.width = 0
    ∧ State.reset.nchan = 0 ∧ State.reset.blkcnt = 0 ∧ State.reset.ilen = 0 ∧ State.reset.iptr = 0
    ∧ State.reset.optr = 0 ∧ State.reset.record.dc = 0 ∧ State.reset.record.n = 0
    ∧ State.reset.record.pairs State.reset.gen = [] ∧ State.reset.zz = zigzagTable
    ∧ (∀ k : Fin 64, State.reset.qt[k] = Config.qtBase[k].mul Config.qScale)
    ∧ (∀ s : State, ∃ t, exec .srst s = .next t ∧
        t = { State.resetOf s.build s.qt s.zz t.gen with queue := s.queue, seen := s.seen })

/-- 60_exceptions R238: refusal while an error is pending, of every command but three. -/
def Obligations.RefusedWhilePending : Prop :=
  ∀ (i : Instr) (s : State), i.format = .c8 → s.err ≠ 0 → i ≠ .nop → i ≠ .clrerr → i ≠ .srst → exec i s = .next s

/-- 60_exceptions R237: an error is raised only when none is pending, and the first code stays until CLRERR, SRST or a
reset. -/
def Obligations.FirstErrorIsKept : Prop :=
  (∀ (e : ErrCode) (s : State), s.err = 0 → (raise e s).err = e.code ∧ onlyErrDiffers s (raise e s))
    ∧ (∀ (e : ErrCode) (s : State), s.err ≠ 0 → raise e s = s)
    ∧ (∀ (s t : State) (a : HostAction) (rest : List HostAction), s.queue = a :: rest → s.err ≠ 0 →
      step s = .next t → a ≠ .command 0x1E#8 → a ≠ .command 0x1F#8 → a ≠ .reset → t.err = s.err)

/-- 60_exceptions R236: a step that raises an error writes nothing but `STATUS.ERR` (the host's action that made it is
off the queue). -/
def Obligations.FailuresArePrecise : Prop :=
  ∀ s t : State, step s = .next t → s.err = 0 → t.err ≠ 0 →
    onlyErrDiffers { s with queue := s.queue.tail } t

/-- 60_exceptions R230 to R234 and the table of section 2: which commands raise which code. That a container unit is an
instruction, and raises the `TRUNCATED` of the RD command that reads it, is the model's reading (log 13). -/
def Obligations.ErrorCauses : Prop :=
  ∀ (i : Instr) (s t : State), s.err = 0 → exec i s = .next t →
    (t.err = 0 ∨ t.err = 1 ∨ t.err = 2 ∨ t.err = 4)
      ∧ (t.err = 1 → i = .rdhdr)
      ∧ (t.err = 2 → i = .rdhdr ∨ i = .rdchn ∨ i = .rdrec ∨ i.format ≠ .c8)
      ∧ (t.err = 4 → i = .wrhdr ∨ i = .wrchn ∨ i = .wrrec)

/-! ### Whole-machine rules -/

/-- 10_state sections 2 and 4, R30 to R36; 20_memory R50, R51: what each command may write, and so what it leaves as it
was. The tables there name commands only; what a container unit may write is the model's reading of units as
instructions (log 13). -/
def Obligations.OnlyTheNamedWritersWrite : Prop :=
  ∀ (i : Instr) (s t : State), exec i s = .next t → i ≠ .srst →
    (i ∉ [Instr.idct, .decblk] → t.xb = s.xb)
      ∧ (i ∉ [Instr.fdct, .dequant, .encblk, .decblk] → t.cb = s.cb)
      ∧ (i ∉ [Instr.quant, .zzinv, .encblk, .decblk] → t.qb = s.qb)
      ∧ (i ∉ [Instr.zzfwd, .rledec, .encblk, .decblk] → t.zb = s.zb)
      ∧ (i ∉ [Instr.rleenc, .encblk, .rdrec] → i.format ≠ .record → i.format ≠ .pair → t.record = s.record)
      ∧ (i ≠ .rdhdr → i.format ≠ .hdr → t.height = s.height ∧ t.width = s.width ∧ t.nchan = s.nchan)
      ∧ (i ≠ .rdchn → i.format ≠ .chn → t.blkcnt = s.blkcnt)
      ∧ (i ∉ [Instr.rdhdr, .rdchn, .rdrec] → i.format = .c8 → t.iptr = s.iptr)
      ∧ (i ∉ [Instr.wrhdr, .wrchn, .wrrec] → t.optr = s.optr ∧ t.omem = s.omem)
      ∧ (i ∉ [Instr.wrhdr, .wrchn, .wrrec, .rdhdr, .rdchn, .rdrec, .clrerr] → i.format = .c8 → t.status = s.status)
      ∧ t.ilen = s.ilen ∧ t.imem = s.imem ∧ t.gen = s.gen ∧ t.queue = s.queue ∧ t.seen = s.seen

/-- 10_state R27, R28; 70_reset_and_hazards R262: no step changes the tables or the build, SRST, reset and host
writes included. -/
def Obligations.ConstantsNeverChange : Prop :=
  ∀ s t : State, step s = .next t → t.qt = s.qt ∧ t.zz = s.zz ∧ t.build = s.build

/-- 10_state R30, R33, R27, R28; 20_memory R50, R51; 41_quantization R124 (log 20): every step keeps the machine's
invariant. -/
def Obligations.StepKeepsTheInvariant : Prop :=
  ∀ s t : State, s.Inv → step s = .next t → t.Inv

/-- The invariant holds after reset; its clauses on QT rest on the default table (log 3), those on the memory ranges on
empty memories. -/
def Obligations.ResetHasTheInvariant : Prop := State.reset.Inv

/-! ### Transform -/

/-- 40_transform R110 to R112: FDCT under the reference NUMERICS. -/
def Obligations.FdctIsTheCosineTransform : Prop :=
  ∀ s : State, s.err = 0 → s.build.numerics = .exact →
    ∃ t, exec .fdct s = .next t ∧ t = { s with cb := t.cb } ∧
      ∀ u v : Fin 8, (t.cb[blockIndex u v]).toReal
        = ∑ i : Fin 8, ∑ j : Fin 8, basisEntry u i * basisEntry v j * (s.xb[blockIndex i j]).toReal

/-- 40_transform R110, R113, R114: IDCT under the reference NUMERICS. -/
def Obligations.IdctIsTheInverseSum : Prop :=
  ∀ s : State, s.err = 0 → s.build.numerics = .exact →
    ∃ t, exec .idct s = .next t ∧ t = { s with xb := t.xb } ∧
      ∀ i j : Fin 8, (t.xb[blockIndex i j]).toReal
        = ∑ u : Fin 8, ∑ v : Fin 8, basisEntry u i * basisEntry v j * (s.cb[blockIndex u v]).toReal

/-- 40_transform R115 (a), (d): each transform undoes the other exactly under the reference NUMERICS, entry by entry as
real numbers. -/
def Obligations.TransformsUndoEachOther : Prop :=
  ∀ s : State, s.err = 0 → s.build.numerics = .exact →
    (∃ t, execThen (exec .fdct s) .idct = .next t ∧ ∀ k : Fin 64, (t.xb[k]).toReal = (s.xb[k]).toReal)
      ∧ (∃ t, execThen (exec .idct s) .fdct = .next t ∧ ∀ k : Fin 64, (t.cb[k]).toReal = (s.cb[k]).toReal)

/-- 00_scope R13: the reference instance has NP2 for every block with `EPS_RT = 0`, NP3, NP4 for every positive entry
(NP1 holds of any function); and every other NUMERICS has NP2 for every block, NP3, and NP4 for its table entries, which
are positive and have the zero lane of 41_quantization R124 (logs 2, 20; which zero that is: log 31). -/
def Obligations.ReferenceNumericsIsLawful : Prop :=
  (∀ num : Numerics, num.Lawful)
    ∧ Numerics.epsRt .exact = XReal.zero
    ∧ (∀ t, Numerics.entry .exact t ↔ 0 < t.toReal)

/-- 00_scope R13; 40_transform R112, R114; 41_quantization R123 to R126: under every NUMERICS the four commands apply
its four functions and change nothing but their destination; all 64 lanes of QUANT and DEQUANT are independent. -/
def Obligations.BlockCommandsApplyNumerics : Prop :=
  ∀ s : State, s.err = 0 →
    exec .fdct s = .next { s with cb := s.build.numerics.fdct s.xb }
      ∧ exec .idct s = .next { s with xb := s.build.numerics.idct s.cb }
      ∧ (∃ t, exec .quant s = .next t ∧ t = { s with qb := t.qb }
        ∧ ∀ k : Fin 64, t.qb[k] = sat16 (s.build.numerics.qdiv s.cb[k] s.qt[k]))
      ∧ (∃ t, exec .dequant s = .next t ∧ t = { s with cb := t.cb }
        ∧ ∀ k : Fin 64, t.cb[k] = s.build.numerics.qmul s.qb[k] s.qt[k])

/-! ### Quantization -/

/-- 00_scope R11: rounding to nearest, ties to the even integer, with the consequences the rule lists. -/
def Obligations.RoundHalfToEven : Prop :=
  (∀ y : XReal, |y.toReal - (y.roundHe : ℝ)| ≤ 1 / 2
      ∧ (|y.toReal - (y.roundHe : ℝ)| = 1 / 2 → y.roundHe % 2 = 0)
      ∧ (XReal.zero.sub y).roundHe = -y.roundHe)
    ∧ (∀ z : Int, (XReal.ofInt z).roundHe = z)
    ∧ (XReal.ofRat (1 / 2)).roundHe = 0 ∧ (XReal.ofRat (3 / 2)).roundHe = 2 ∧ (XReal.ofRat (5 / 2)).roundHe = 2
    ∧ (XReal.ofRat (-1 / 2)).roundHe = 0 ∧ (XReal.ofRat (-3 / 2)).roundHe = -2
    ∧ (XReal.ofRat (-5 / 2)).roundHe = -2

/-- 41_quantization R123, R125; 00_scope R10: QUANT under the reference NUMERICS, in every lane the integer nearest to
the exact quotient, the even one on a tie, saturated to 16 bits. -/
def Obligations.QuantRoundsTheQuotient : Prop :=
  ∀ s : State, s.err = 0 → s.build.numerics = .exact → s.tablePositive →
    ∃ t, exec .quant s = .next t ∧ t = { s with qb := t.qb } ∧
      ∀ k : Fin 64, ∃ n : Int,
        |(s.cb[k]).toReal / (s.qt[k]).toReal - (n : ℝ)| ≤ 1 / 2
          ∧ (|(s.cb[k]).toReal / (s.qt[k]).toReal - (n : ℝ)| = 1 / 2 → n % 2 = 0)
          ∧ (t.qb[k]).toInt = max (-32768) (min 32767 n)

/-- 41_quantization R124, R126: DEQUANT under the reference NUMERICS is the exact product in every lane. -/
def Obligations.DequantIsTheProduct : Prop :=
  ∀ s : State, s.err = 0 → s.build.numerics = .exact →
    ∃ t, exec .dequant s = .next t ∧ t = { s with cb := t.cb } ∧
      ∀ k : Fin 64, (t.cb[k]).toReal = ((s.qb[k]).toInt : ℝ) * (s.qt[k]).toReal

/-- 41_quantization R127 (a), (c): DEQUANT then QUANT restores QB, under every NUMERICS for every QB and every table the
NUMERICS may have (NP4; that a table's zero lanes are zero, log 20, is not needed), and in each lane that has NP4 for its
own operands, whatever the other lanes do. -/
def Obligations.QuantUndoesDequant : Prop :=
  (∀ s : State, s.err = 0 → s.tablePositive →
      ∃ t, execThen (exec .dequant s) .quant = .next t ∧ t.qb = s.qb)
    ∧ (∀ (s : State) (k : Fin 64), s.err = 0 →
      s.build.numerics.qdiv (s.build.numerics.qmul s.qb[k] s.qt[k]) s.qt[k] = (s.qb[k]).toInt →
      ∃ t, execThen (exec .dequant s) .quant = .next t ∧ t.qb[k] = s.qb[k])

/-! ### Zigzag -/

/-- 42_zigzag R130, R131: the order after reset is the one the generating rule gives, each position once. -/
def Obligations.ZigzagTableFollowsTheRule : Prop :=
  State.reset.zz.toList.map (fun c => (c.row.val, c.col.val)) = (List.range 15).flatMap (fun d =>
      let rows := List.range' (d - 7) (min d 7 + 1 - (d - 7))
      (if d % 2 = 0 then rows.reverse else rows).map fun r => (r, d - r))
    ∧ State.reset.zz.toList.Nodup

/-- 42_zigzag R132, R133: what the two commands write, and that nothing else changes. -/
def Obligations.ZigzagCommandsReindex : Prop :=
  ∀ s : State, s.err = 0 →
    (∃ t, exec .zzfwd s = .next t ∧ t = { s with zb := t.zb }
        ∧ ∀ k : Fin 64, t.zb[k] = s.qb[blockIndex (s.zz[k]).row (s.zz[k]).col])
      ∧ (∃ t, exec .zzinv s = .next t ∧ t = { s with qb := t.qb }
        ∧ (s.orderBijective → ∀ k : Fin 64, t.qb[blockIndex (s.zz[k]).row (s.zz[k]).col] = s.zb[k]))

/-- 42_zigzag R134: the two commands undo each other and only permute values. -/
def Obligations.ZigzagRoundTrips : Prop :=
  ∀ s : State, s.err = 0 → s.orderBijective →
    (∃ t, execThen (exec .zzfwd s) .zzinv = .next t ∧ t.qb = s.qb)
      ∧ (∃ t, execThen (exec .zzinv s) .zzfwd = .next t ∧ t.zb = s.zb)
      ∧ (∃ t, exec .zzfwd s = .next t ∧ t.zb.toList.Perm s.qb.toList)
      ∧ (∃ t, exec .zzinv s = .next t ∧ t.qb.toList.Perm s.zb.toList)

/-! ### Run-length codec -/

/-- 43_rle_block_codec R141, R142, R145: the record RLEENC makes: dc from position 0, one pair for each nonzero value
of positions 1 to 63, in order and at its position, with no flush marker; nothing else changes. -/
def Obligations.RleencMakesTheRecord : Prop :=
  ∀ s : State, s.err = 0 →
    ∃ t, exec .rleenc s = .next t ∧ t = { s with record := t.record } ∧
      t.record.dc = s.zb[0]
        ∧ (t.record.pairs t.gen).length = t.record.n.toNat
        ∧ (t.record.pairs t.gen).map AcPair.val = (s.zb.toList.drop 1).filter (fun z => z ≠ 0)
        ∧ (∀ q ∈ t.record.pairs t.gen, q.val ≠ 0 ∧ q.run.toNat ≤ 62)
        ∧ (∀ p, p < t.record.n.toNat →
          s.zb.toList[pairPosition (t.record.pairs t.gen) p]? = ((t.record.pairs t.gen)[p]?).map AcPair.val)
        ∧ (∀ k : Fin 64, 0 < k.val → s.zb[k] ≠ 0 →
          ∃ p, p < t.record.n.toNat ∧ pairPosition (t.record.pairs t.gen) p = k.val)

/-- 43_rle_block_codec R143, R147: RLEDEC puts dc at position 0, each pair's value at its position when that is below
64, zero everywhere else, and ignores what overruns; nothing else changes, whatever REC holds. -/
def Obligations.RledecPlacesThePairs : Prop :=
  ∀ s : State, s.err = 0 →
    ∃ t, exec .rledec s = .next t ∧ t = { s with zb := t.zb } ∧ t.zb[0] = s.record.dc ∧
      ∀ k : Fin 64, 0 < k.val →
        (∃ p, p < s.record.n.toNat ∧ pairPosition (s.record.pairs s.gen) p = k.val
            ∧ (s.record.pairs s.gen)[p]?.map AcPair.val = some t.zb[k])
          ∨ ((∀ p, p < s.record.n.toNat → pairPosition (s.record.pairs s.gen) p ≠ k.val) ∧ t.zb[k] = 0)

/-- 43_rle_block_codec R144: the codec's round trips are exact; the other way round a record need not come back; an
all-zero block has the empty record. -/
def Obligations.BlockCodecRoundTrips : Prop :=
  (∀ s : State, s.err = 0 → ∃ t, execThen (exec .rleenc s) .rledec = .next t ∧ t.zb = s.zb)
    ∧ (∀ s : State, s.err = 0 → s.orderBijective →
      ∃ t, runActions (bencActions ++ bdecActions) s = .next t ∧ t.qb = s.qb)
    ∧ (∃ s t : State, s.err = 0 ∧ execThen (exec .rledec s) .rleenc = .next t
      ∧ t.record.pairs t.gen ≠ s.record.pairs s.gen)
    ∧ (∀ s : State, s.err = 0 → s.qb = Vector.replicate 64 0 →
      ∃ t, execThen (exec .zzfwd s) .rleenc = .next t ∧ t.record.dc = 0 ∧ t.record.n = 0
        ∧ ∃ u, execThen (exec .rledec t) .zzinv = .next u ∧ u.qb = Vector.replicate 64 0)

/-! ### Fused pipelines -/

/-- 44_block_pipeline R150, R151: the fused commands complete and are their four commands in sequence; and, under every
NUMERICS, an all-zero block and the empty record with dc 0 make each other (NP3; the zero lanes are log 20, which
zero is meant log 31). -/
def Obligations.FusedCommandsAreTheirParts : Prop :=
  ∀ s : State, s.err = 0 →
    (∃ t, exec .encblk s = .next t
        ∧ execThen (execThen (execThen (exec .fdct s) .quant) .zzfwd) .rleenc = .next t
        ∧ t = { s with cb := t.cb, qb := t.qb, zb := t.zb, record := t.record })
      ∧ (∃ t, exec .decblk s = .next t
        ∧ execThen (execThen (execThen (exec .rledec s) .zzinv) .dequant) .idct = .next t
        ∧ t = { s with zb := t.zb, qb := t.qb, cb := t.cb, xb := t.xb })
      ∧ (s.tablePositive → s.xb = Vector.replicate 64 XReal.zero → ∃ t, exec .encblk s = .next t
        ∧ t.cb = Vector.replicate 64 XReal.zero ∧ t.qb = Vector.replicate 64 0 ∧ t.zb = Vector.replicate 64 0
        ∧ t.record.dc = 0 ∧ t.record.n = 0)
      ∧ (s.tablePositive → s.orderBijective → s.record.dc = 0 → s.record.n = 0 → ∃ t, exec .decblk s = .next t
        ∧ t.zb = Vector.replicate 64 0 ∧ t.qb = Vector.replicate 64 0 ∧ t.cb = Vector.replicate 64 XReal.zero
        ∧ t.xb = Vector.replicate 64 XReal.zero)

/-- 44_block_pipeline R152 (c): DECBLK then ENCBLK on a record made by ENCBLK gives that record back, under the
reference NUMERICS. -/
def Obligations.EncodedRecordIsStable : Prop :=
  ∀ s a b c : State, s.err = 0 → s.build.numerics = .exact → s.tablePositive → s.orderBijective →
    exec .encblk s = .next a → exec .decblk a = .next b → exec .encblk b = .next c → c.record = a.record

/-- 47_host_procedures R207 (the all-128 scenario); 44_block_pipeline R150, R151: under every NUMERICS an all-128 raster
of any size compresses to empty records and decompresses to itself, for both ways of narrowing (NP3; the zero lanes are
log 20, which zero is meant log 31). -/
def Obligations.GrayRasterIsExact : Prop :=
  ∀ (s : State) (h w : Nat) (mode : SampleNarrow), s.err = 0 → s.tablePositive → s.orderBijective →
    ∃ x, compress s ⟨h, w, List.replicate (h * w * 3) 128⟩ = some x
      ∧ (∀ c ∈ x.channels, c.length = tileCount h * tileCount w ∧ ∀ r ∈ c, r = ⟨0, []⟩)
      ∧ decompress mode s x = some ⟨h, w, List.replicate (h * w * 3) 128⟩

/-! ### Memory primitives -/

/-- 20_memory R52: `IMemRead`. -/
def Obligations.ImemReadIsBounded : Prop :=
  ∀ (s : State) (addr n : Nat), n ∈ [1, 2, 4] →
    (s.ilen.toNat < addr + n → imemRead s addr n = .error .truncated)
      ∧ (addr + n ≤ s.ilen.toNat →
        imemRead s addr n = .ok (((List.range n).map fun b => 256 ^ b * (s.imemByte (addr + b)).toNat).sum)
          ∧ ((List.range n).map fun b => 256 ^ b * (s.imemByte (addr + b)).toNat).sum < 256 ^ n)

/-- 20_memory R53: `OMemWrite`, and that a failing WR command writes nothing. -/
def Obligations.OmemWriteIsBounded : Prop :=
  (∀ (s : State) (addr n v : Nat), n ∈ [1, 2, 4] → v < 256 ^ n →
    (s.build.omemSize.toNat < addr + n → omemWrite s addr n v = .error .outOverflow)
      ∧ (addr + n ≤ s.build.omemSize.toNat →
        ∃ t, omemWrite s addr n v = .ok t ∧ t = { s with omem := t.omem }
          ∧ (∀ b, b < n → t.omemByte (addr + b) = BitVec.ofNat 8 (v / 256 ^ b))
          ∧ (∀ a, a < addr ∨ addr + n ≤ a → t.omemByte a = s.omemByte a)))
    ∧ (∀ (i : Instr) (s t : State), i ∈ [Instr.wrhdr, .wrchn, .wrrec] → exec i s = .next t → t.err ≠ 0 →
      t.omem = s.omem ∧ t.optr = s.optr)

/-! ### Serializer commands -/

/-- 45_container R161: WRHDR. -/
def Obligations.WrhdrWritesTheHeader : Prop :=
  decodeCommand 0x10#8 = some .wrhdr ∧ ∀ s : State,
    (s.err ≠ 0 → exec .wrhdr s = .next s)
      ∧ (s.err = 0 → s.build.omemSize.toNat < s.optr.toNat + 16 → FailsWith .wrhdr s 4)
      ∧ (s.err = 0 → s.optr.toNat + 16 ≤ s.build.omemSize.toNat →
        ∃ t, exec .wrhdr s = .next t ∧ t = { s with omem := t.omem, optr := t.optr }
          ∧ t.optr.toNat = s.optr.toNat + 16
          ∧ t.omemBytes s.optr.toNat 16 = [0x4A#8, 0x51#8, 0x5A#8, 0x31#8] ++ wordBytes s.height
              ++ wordBytes s.width ++ [3#8, 0#8, 0#8, 0#8]
          ∧ ∀ a, a < s.optr.toNat ∨ s.optr.toNat + 16 ≤ a → t.omemByte a = s.omemByte a)

/-- 45_container R162: WRCHN. -/
def Obligations.WrchnWritesTheBlockCount : Prop :=
  decodeCommand 0x11#8 = some .wrchn ∧ ∀ s : State,
    (s.err ≠ 0 → exec .wrchn s = .next s)
      ∧ (s.err = 0 → s.build.omemSize.toNat < s.optr.toNat + 4 → FailsWith .wrchn s 4)
      ∧ (s.err = 0 → s.optr.toNat + 4 ≤ s.build.omemSize.toNat →
        ∃ t, exec .wrchn s = .next t ∧ t = { s with omem := t.omem, optr := t.optr }
          ∧ t.optr.toNat = s.optr.toNat + 4
          ∧ t.omemBytes s.optr.toNat 4 = wordBytes s.blkcnt
          ∧ ∀ a, a < s.optr.toNat ∨ s.optr.toNat + 4 ≤ a → t.omemByte a = s.omemByte a)

/-- 45_container R163: WRREC. -/
def Obligations.WrrecWritesTheRecord : Prop :=
  decodeCommand 0x12#8 = some .wrrec ∧ ∀ s : State,
    (s.err ≠ 0 → exec .wrrec s = .next s)
      ∧ (s.err = 0 → s.build.omemSize.toNat < s.optr.toNat + (4 + 3 * s.record.n.toNat) → FailsWith .wrrec s 4)
      ∧ (s.err = 0 → s.optr.toNat + (4 + 3 * s.record.n.toNat) ≤ s.build.omemSize.toNat →
        ∃ t, exec .wrrec s = .next t ∧ t = { s with omem := t.omem, optr := t.optr }
          ∧ t.optr.toNat = s.optr.toNat + (4 + 3 * s.record.n.toNat)
          ∧ t.omemBytes s.optr.toNat (4 + 3 * s.record.n.toNat) = halfBytes s.record.dc ++ halfBytes s.record.n
              ++ ((List.range s.record.n.toNat).flatMap fun p =>
                (s.record.pairAt s.gen p).run :: halfBytes (s.record.pairAt s.gen p).val)
          ∧ ∀ a, a < s.optr.toNat ∨ s.optr.toNat + (4 + 3 * s.record.n.toNat) ≤ a → t.omemByte a = s.omemByte a)

/-! ### Deserializer commands -/

/-- 45_container R165; 60_exceptions R231, R232, R239: RDHDR, its tests in their order. -/
def Obligations.RdhdrReadsTheHeader : Prop :=
  decodeCommand 0x18#8 = some .rdhdr ∧ ∀ s : State,
    let B := fun o => s.imemByte (s.iptr.toNat + o)
    let magic := B 0 = 0x4A#8 ∧ B 1 = 0x51#8 ∧ B 2 = 0x5A#8 ∧ B 3 = 0x31#8
    (s.err ≠ 0 → exec .rdhdr s = .next s)
      ∧ (s.err = 0 → s.ilen.toNat < s.iptr.toNat + 4 → FailsWith .rdhdr s 2)
      ∧ (s.err = 0 → s.iptr.toNat + 4 ≤ s.ilen.toNat → ¬magic → FailsWith .rdhdr s 1)
      ∧ (s.err = 0 → s.iptr.toNat + 4 ≤ s.ilen.toNat → magic → s.ilen.toNat < s.iptr.toNat + 16 →
        FailsWith .rdhdr s 2)
      ∧ (s.err = 0 → magic → s.iptr.toNat + 16 ≤ s.ilen.toNat →
        ∃ t, exec .rdhdr s = .next t
          ∧ t = { s with height := t.height, width := t.width, nchan := t.nchan, iptr := t.iptr }
          ∧ t.height = B 7 ++ B 6 ++ B 5 ++ B 4 ∧ t.width = B 11 ++ B 10 ++ B 9 ++ B 8
          ∧ t.nchan = B 15 ++ B 14 ++ B 13 ++ B 12 ∧ t.iptr.toNat = s.iptr.toNat + 16)

/-- 45_container R166: RDCHN. -/
def Obligations.RdchnReadsTheBlockCount : Prop :=
  decodeCommand 0x19#8 = some .rdchn ∧ ∀ s : State,
    let B := fun o => s.imemByte (s.iptr.toNat + o)
    (s.err ≠ 0 → exec .rdchn s = .next s)
      ∧ (s.err = 0 → s.ilen.toNat < s.iptr.toNat + 4 → FailsWith .rdchn s 2)
      ∧ (s.err = 0 → s.iptr.toNat + 4 ≤ s.ilen.toNat →
        ∃ t, exec .rdchn s = .next t ∧ t = { s with blkcnt := t.blkcnt, iptr := t.iptr }
          ∧ t.blkcnt = B 3 ++ B 2 ++ B 1 ++ B 0 ∧ t.iptr.toNat = s.iptr.toNat + 4)

/-- 45_container R167: RDREC; that it succeeds exactly when the record it finds lies within the valid bytes is the
spec's own inference ("the reads are at increasing addresses, so the last one decides"). -/
def Obligations.RdrecReadsTheRecord : Prop :=
  decodeCommand 0x1A#8 = some .rdrec ∧ ∀ s : State,
    let B := fun o => s.imemByte (s.iptr.toNat + o)
    let n := (B 2).toNat + 256 * (B 3).toNat
    (s.err ≠ 0 → exec .rdrec s = .next s)
      ∧ (s.err = 0 → (s.ilen.toNat < s.iptr.toNat + 4 ∨ s.ilen.toNat < s.iptr.toNat + 4 + 3 * n) →
        FailsWith .rdrec s 2)
      ∧ (s.err = 0 → s.iptr.toNat + 4 ≤ s.ilen.toNat → s.iptr.toNat + 4 + 3 * n ≤ s.ilen.toNat →
        ∃ t, exec .rdrec s = .next t ∧ t = { s with record := t.record, iptr := t.iptr }
          ∧ t.record.dc = B 1 ++ B 0 ∧ t.record.n.toNat = n ∧ t.iptr.toNat = s.iptr.toNat + 4 + 3 * n
          ∧ t.record.pairs t.gen
            = (List.range n).map fun p => ⟨B (4 + 3 * p), B (6 + 3 * p) ++ B (5 + 3 * p)⟩)

/-- 45_container R169, an inference of the spec's own: what a WR command wrote, copied to IMEM, the matching RD command gives back. -/
def Obligations.RdMirrorsWr : Prop :=
  ∀ s t u : State, s.err = 0 → t.err = 0 → u.err = 0 → u.iptr = s.optr → t.optr.toNat ≤ u.ilen.toNat →
    (∀ a, s.optr.toNat ≤ a → a < t.optr.toNat → u.imemByte a = t.omemByte a) →
    (exec .wrhdr s = .next t → ∃ v, exec .rdhdr u = .next v
        ∧ v.height = s.height ∧ v.width = s.width ∧ v.nchan = 3 ∧ v.iptr = t.optr)
      ∧ (exec .wrchn s = .next t → ∃ v, exec .rdchn u = .next v ∧ v.blkcnt = s.blkcnt ∧ v.iptr = t.optr)
      ∧ (exec .wrrec s = .next t → ∃ v, exec .rdrec u = .next v ∧ v.record.dc = s.record.dc
        ∧ v.record.n = s.record.n ∧ v.record.pairs v.gen = s.record.pairs s.gen ∧ v.iptr = t.optr)

/-! ### Container units -/

/-- 30_encoding R85 to R87, R91; 45_container R165 to R167: what consuming a unit does (the reading of units as
instructions is the model's, log 13). -/
def Obligations.UnitsLoadTheirFields : Prop :=
  ∀ s : State, s.err = 0 →
    (∀ h w c : Word, s.iptr.toNat + 16 ≤ s.ilen.toNat → ∃ t, exec (.hdr h w c) s = .next t
        ∧ t = { s with height := h, width := w, nchan := c, iptr := t.iptr } ∧ t.iptr.toNat = s.iptr.toNat + 16)
      ∧ (∀ b : Word, s.iptr.toNat + 4 ≤ s.ilen.toNat → ∃ t, exec (.chn b) s = .next t
        ∧ t = { s with blkcnt := b, iptr := t.iptr } ∧ t.iptr.toNat = s.iptr.toNat + 4)
      ∧ (∀ (d : Half) (ac : List AcPair), ac.length ≤ recCap → s.iptr.toNat + (4 + 3 * ac.length) ≤ s.ilen.toNat →
        ∃ t, exec (.record d ac) s = .next t ∧ t = { s with record := t.record, iptr := t.iptr }
          ∧ t.record.dc = d ∧ t.record.n.toNat = ac.length ∧ t.record.pairs t.gen = ac
          ∧ t.iptr.toNat = s.iptr.toNat + (4 + 3 * ac.length))
      ∧ (∀ (r : Byte) (v : Half), s.record.n.toNat < recCap → s.iptr.toNat + 3 ≤ s.ilen.toNat →
        ∃ t, exec (.pair r v) s = .next t ∧ t = { s with record := t.record, iptr := t.iptr }
          ∧ t.record.dc = s.record.dc ∧ t.record.n.toNat = s.record.n.toNat + 1
          ∧ t.record.pairs t.gen = s.record.pairs s.gen ++ [⟨r, v⟩] ∧ t.iptr.toNat = s.iptr.toNat + 3)

/-- 30_encoding R91; 60_exceptions R232: a unit that would extend past the valid bytes is `TRUNCATED`; and a unit is
refused while an error is pending, as the RD command that reads it is (R238; the reading of units as instructions is the
model's, log 13). -/
def Obligations.UnitsPastIlenAreTruncated : Prop :=
  ∀ (i : Instr) (s : State), i.format ≠ .c8 →
    (s.err = 0 → s.ilen.toNat < s.iptr.toNat + i.size → FailsWith i s 2) ∧ (s.err ≠ 0 → exec i s = .next s)

/-- 30_encoding R84, R87; 45_container R167: a record's unit is an empty record's unit followed by its PAIR units. -/
def Obligations.RecordIsItsPairs : Prop :=
  ∀ (s : State) (d : Half) (ac : List AcPair), ac.length ≤ recCap →
    s.iptr.toNat + (4 + 3 * ac.length) ≤ s.ilen.toNat →
    exec (.record d ac) s = execPairs ac (exec (.record d []) s)

/-! ### Whole containers -/

/-- 45_container R168: the container round trip, for every well-formed Compressed Image, whatever follows it; and, by
the spec's own inference there, the other direction where the count is 3 and no byte is left over. -/
def Obligations.ParseOfSerialize : Prop :=
  (∀ x : CompressedImage, x.wf = true →
      ∃ b, serialize x = some b ∧ ∀ rest, parse (b ++ rest) = .ok x)
    ∧ (∀ (b : List Byte) (x : CompressedImage), parse b = .ok x → x.count = 3 → b.length = containerSize x →
      serialize x = some b)

/-- 30_encoding R90, an inference of the spec's own from the layout: the size of a container. An image outside the
domain of `serialize` has none (log 29). -/
def Obligations.ContainerHasItsSize : Prop :=
  ∀ x : CompressedImage,
    (x.wf = true → ∃ b, serialize x = some b ∧ b.length
      = 16 + (x.channels.map fun c => 4 + (c.map fun r => 4 + 3 * r.ac.length).sum).sum)
      ∧ (x.wf = false → serialize x = none)

/-- 47_host_procedures R213: SERIALIZE on the block computes `serialize`, where OMEM is large enough. -/
def Obligations.SerializeOnTheBlock : Prop :=
  ∀ (s : State) (x : CompressedImage), x.wf = true → s.err = 0 → containerSize x ≤ s.build.omemSize.toNat →
    ∃ as t, serializeActions x = some as ∧ runActions as s = .next t ∧ t.err = 0
      ∧ t.optr.toNat = containerSize x ∧ serialize x = some (t.omemBytes 0 t.optr.toNat)

/-- 47_host_procedures R213: where every unit fits OMEM but perhaps not the whole container, the pieces the host drains
are, joined, the same bytes. -/
def Obligations.SerializeInPieces : Prop :=
  ∀ (s : State) (x : CompressedImage), x.wf = true → s.err = 0 → 16 ≤ s.build.omemSize.toNat →
    (∀ c ∈ x.channels, ∀ r ∈ c, 4 + 3 * r.ac.length ≤ s.build.omemSize.toNat) →
    ∃ b, serializeInPieces s x = some b ∧ serialize x = some b

/-- 47_host_procedures R214; 60_exceptions R247: PARSE on the block computes `parse`, its failures included, and leaves
no error pending. -/
def Obligations.ParseOnTheBlock : Prop :=
  ∀ (s : State) (b : List Byte), s.err = 0 → b.length ≤ s.build.imemSize.toNat →
    ∃ t, runActions (loadActions b) s = .next t ∧ (parseOnBlock t).2.err = 0 ∧
      match parse b with
      | .ok x => (parseOnBlock t).1 = .ok x
      | .error .badMagic => (parseOnBlock t).1 = .error 1
      | .error .truncated => (parseOnBlock t).1 = .error 2
      | .error .illegalWord => False

/-- 47_host_procedures R211: the three numbers of `estimate`: 2 bytes for each record and 3 for each pair, over all
channels, and 128; on an image whose records have no pairs that is `2N + 128`. -/
def Obligations.EstimateOfEmptyRecords : Prop :=
  ∀ x : CompressedImage, x.channels.length = 3 →
    let original : Nat := x.height * x.width * 3
    let estimated : Nat := 128 + (x.channels.flatten.map fun r => 2 + 3 * r.ac.length).sum
    estimate x = some (original, estimated, (original : ℚ) / (estimated : ℚ))
      ∧ ((∀ c ∈ x.channels, ∀ r ∈ c, r.ac = []) → estimated = 2 * (x.channels.map List.length).sum + 128)

/-! ### The host's accesses -/

/-- 10_state sections 2 and 4, R30 to R34, R37: a host write to a read-only location changes nothing; a write of a
control register, REC_DC or REC_N stores the value, of ILEN `min(v, IMEM_SIZE)`, and changes nothing else. That the
pairs at a lowered REC_N and above are kept is the model's choice (log 9). -/
def Obligations.HostWritesKeepAccessRights : Prop :=
  ∀ s : State,
    (∀ v, perform s (.writeCtrl .status v) = .next s ∧ perform s (.writeCtrl .nchan v) = .next s)
      ∧ (∀ k v, perform s (.writeQt k v) = .next s) ∧ (∀ k v, perform s (.writeZz k v) = .next s)
      ∧ (∀ a v, a < s.build.omemSize.toNat → perform s (.writeOmem a v) = .next s)
      ∧ (∀ v : Word, ∃ t, perform s (.writeCtrl .ilen v) = .next t ∧ t = { s with ilen := t.ilen }
        ∧ t.ilen.toNat = min v.toNat s.build.imemSize.toNat)
      ∧ (∀ v : Word, perform s (.writeCtrl .height v) = .next { s with height := v }
        ∧ perform s (.writeCtrl .width v) = .next { s with width := v }
        ∧ perform s (.writeCtrl .blkcnt v) = .next { s with blkcnt := v }
        ∧ perform s (.writeCtrl .iptr v) = .next { s with iptr := v }
        ∧ perform s (.writeCtrl .optr v) = .next { s with optr := v })
      ∧ (∀ v : Half, perform s (.writeRecDc v) = .next { s with record := { s.record with dc := v } }
        ∧ perform s (.writeRecN v) = .next { s with record := { s.record with n := v } })

/-- 10_state R29, R37; 70_reset_and_hazards R261: a host read of any location answers the state with that location's
value read and nothing else changed, CMD reading 0; and, "once written, a location holds what was written", a host write
to a data location puts the value there and changes no other place, in its own space or outside it. The values read go
to the model's own `seen` (log 11). That a run or value written at REC.n or above, where R26 has no pair and 93 J2 gives
any value, is kept there, and that the pairs there stay, is the model's choice (log 9). -/
def Obligations.HostReadsWhatItWrote : Prop :=
  ∀ s : State,
    (∀ (l : Loc) (d : HostDatum), (l, d) ∈
        [(Loc.cmd, HostDatum.word 0), (.ctrl .status, .word s.status), (.ctrl .height, .word s.height),
         (.ctrl .width, .word s.width), (.ctrl .nchan, .word s.nchan), (.ctrl .blkcnt, .word s.blkcnt),
         (.ctrl .ilen, .word s.ilen), (.ctrl .iptr, .word s.iptr), (.ctrl .optr, .word s.optr),
         (.recDc, .half s.record.dc), (.recN, .half s.record.n)] →
        perform s (.read l) = .next (s.reading d))
      ∧ (∀ k : Fin 64, perform s (.read (.xb k)) = .next (s.reading (.real s.xb[k]))
        ∧ perform s (.read (.cb k)) = .next (s.reading (.real s.cb[k]))
        ∧ perform s (.read (.qb k)) = .next (s.reading (.half s.qb[k]))
        ∧ perform s (.read (.zb k)) = .next (s.reading (.half s.zb[k]))
        ∧ perform s (.read (.qt k)) = .next (s.reading (.real s.qt[k]))
        ∧ perform s (.read (.zz k)) = .next (s.reading (.coord s.zz[k])))
      ∧ (∀ p, p < s.record.n.toNat →
        perform s (.read (.recRun p)) = .next (s.reading (.byte (s.record.pairAt s.gen p).run))
        ∧ perform s (.read (.recVal p)) = .next (s.reading (.half (s.record.pairAt s.gen p).val)))
      ∧ (∀ a, a < s.build.imemSize.toNat →
        perform s (.read (.imem a)) = .next (s.reading (.byte (s.imemByte a))))
      ∧ (∀ a, a < s.build.omemSize.toNat →
        perform s (.read (.omem a)) = .next (s.reading (.byte (s.omemByte a))))
      ∧ (∀ (k : Fin 64) (v : XReal), ∃ t, perform s (.writeXb k v) = .next t ∧ t = { s with xb := t.xb }
        ∧ ∀ j : Fin 64, t.xb[j] = if j = k then v else s.xb[j])
      ∧ (∀ (k : Fin 64) (v : XReal), ∃ t, perform s (.writeCb k v) = .next t ∧ t = { s with cb := t.cb }
        ∧ ∀ j : Fin 64, t.cb[j] = if j = k then v else s.cb[j])
      ∧ (∀ (k : Fin 64) (v : Half), ∃ t, perform s (.writeQb k v) = .next t ∧ t = { s with qb := t.qb }
        ∧ ∀ j : Fin 64, t.qb[j] = if j = k then v else s.qb[j])
      ∧ (∀ (k : Fin 64) (v : Half), ∃ t, perform s (.writeZb k v) = .next t ∧ t = { s with zb := t.zb }
        ∧ ∀ j : Fin 64, t.zb[j] = if j = k then v else s.zb[j])
      ∧ (∀ (p : Fin 65535) (v : Byte), ∃ t, perform s (.writeRecRun p v) = .next t
        ∧ t = { s with record := t.record } ∧ t.record.dc = s.record.dc ∧ t.record.n = s.record.n
        ∧ ∀ q, t.record.pairAt t.gen q
          = if q = p.val then ⟨v, (s.record.pairAt s.gen q).val⟩ else s.record.pairAt s.gen q)
      ∧ (∀ (p : Fin 65535) (v : Half), ∃ t, perform s (.writeRecVal p v) = .next t
        ∧ t = { s with record := t.record } ∧ t.record.dc = s.record.dc ∧ t.record.n = s.record.n
        ∧ ∀ q, t.record.pairAt t.gen q
          = if q = p.val then ⟨(s.record.pairAt s.gen q).run, v⟩ else s.record.pairAt s.gen q)
      ∧ (∀ (a : Nat) (v : Byte), a < s.build.imemSize.toNat → ∃ t, perform s (.writeImem a v) = .next t
        ∧ t = { s with imem := t.imem } ∧ ∀ b, t.imemByte b = if b = a then v else s.imemByte b)
end

