-- ==== Sys2Proof/Laws/Memory.lean ====
section
/-! SUPPORT. The laws of a memory: what a write changes and that every memory operation keeps the canonical form. -/

namespace Sys2Proof.Machine

/-! ### Reading after writing -/

theorem Memory.get?_write (m : Memory) (a x : Nat) (b : Byte) :
    Memory.get? (Memory.write m a b) x = if x = a then some b else Memory.get? m x := by
  induction m with
  | nil => simp [Memory.write, Memory.get?, eq_comm]
  | cons c m ih =>
    obtain ⟨y, d⟩ := c
    simp only [Memory.write]
    split
    · simp only [Memory.get?, eq_comm]
    · split
      · subst a
        by_cases hx : x = y <;> simp [Memory.get?, hx, eq_comm]
      · simp only [Memory.get?, ih]
        by_cases hx : y = x
        · subst hx; simp [Ne.symm ‹¬a = y›]
        · simp [hx]

theorem Memory.get?_write_same (m : Memory) (a : Nat) (b : Byte) :
    Memory.get? (Memory.write m a b) a = some b := by simp [Memory.get?_write m a a b]

theorem Memory.get?_write_other (m : Memory) (a x : Nat) (b : Byte) (hx : x ≠ a) :
    Memory.get? (Memory.write m a b) x = Memory.get? m x := by simp [Memory.get?_write m a x b, hx]

/-! ### The canonical form -/

theorem Memory.mem_write {m : Memory} {a : Nat} {b : Byte} {c : Host.Cell} (h : c ∈ Memory.write m a b) :
    c.1 = a ∨ c ∈ m := by
  induction m with
  | nil => simp_all [Memory.write]
  | cons d m ih =>
    obtain ⟨y, e⟩ := d
    simp only [Memory.write] at h
    split at h
    · rcases List.mem_cons.1 h with rfl | h
      · exact .inl rfl
      · exact .inr h
    · split at h
      · rcases List.mem_cons.1 h with rfl | h
        · exact .inl rfl
        · exact .inr (List.mem_cons_of_mem _ h)
      · rcases List.mem_cons.1 h with rfl | h
        · exact .inr (List.mem_cons_self ..)
        · exact (ih h).imp_right (List.mem_cons_of_mem _)

theorem Memory.write_wf (m : Memory) (a : Nat) (b : Byte) (h : Memory.wf m) : Memory.wf (Memory.write m a b) := by
  induction m with
  | nil => exact List.pairwise_singleton _ _
  | cons c m ih =>
    obtain ⟨y, d⟩ := c
    have hw := List.pairwise_cons.1 h
    simp only [Memory.write]
    split
    · rename_i hlt
      refine List.pairwise_cons.2 ⟨fun c hc => ?_, h⟩
      rcases List.mem_cons.1 hc with rfl | hc
      · exact hlt
      · exact lt_trans hlt (hw.1 c hc)
    · split
      · subst a
        exact List.pairwise_cons.2 ⟨hw.1, hw.2⟩
      · refine List.pairwise_cons.2 ⟨fun c hc => ?_, ih hw.2⟩
        rcases Memory.mem_write hc with hc | hc
        · simp only [hc]; omega
        · exact hw.1 c hc

theorem Memory.store_wf (bs : List Byte) (m : Memory) (a : Nat) (h : Memory.wf m) :
    Memory.wf (Memory.store m a bs) := by
  induction bs generalizing m a with
  | nil => exact h
  | cons b bs ih => exact ih _ _ (Memory.write_wf m a b h)

theorem State.reset_imem_wf : Memory.wf State.reset.imem := List.Pairwise.nil

theorem State.reset_omem_wf : Memory.wf State.reset.omem := List.Pairwise.nil

/-! ### Storing several bytes -/

theorem Memory.mem_store {bs : List Byte} {m : Memory} {a : Nat} {c : Host.Cell} (h : c ∈ Memory.store m a bs) :
    (a ≤ c.1 ∧ c.1 < a + bs.length) ∨ c ∈ m := by
  induction bs generalizing m a with
  | nil => exact .inr h
  | cons b bs ih =>
    rcases ih h with hc | hc
    · left; simp only [List.length_cons]; omega
    · rcases Memory.mem_write hc with hc | hc
      · left; simp only [List.length_cons]; omega
      · exact .inr hc

theorem Memory.get?_store (bs : List Byte) (m : Memory) (a x : Nat) :
    Memory.get? (Memory.store m a bs) x = if a ≤ x ∧ x < a + bs.length then bs[x - a]? else Memory.get? m x := by
  induction bs generalizing m a with
  | nil => simp only [Memory.store, List.length_nil]; rw [if_neg (by omega)]
  | cons b bs ih =>
    rw [Memory.store, ih, Memory.get?_write]
    simp only [List.length_cons]
    by_cases h0 : x = a
    · subst h0; rw [if_neg (by omega), if_pos rfl, if_pos (by omega)]; simp
    · by_cases h1 : a + 1 ≤ x ∧ x < a + 1 + bs.length
      · rw [if_pos h1, if_pos (by omega), show x - a = (x - (a + 1)) + 1 by omega, List.getElem?_cons_succ]
      · rw [if_neg h1, if_neg h0, if_neg (by omega)]

theorem Memory.store_append (bs cs : List Byte) (m : Memory) (a : Nat) :
    Memory.store m a (bs ++ cs) = Memory.store (Memory.store m a bs) (a + bs.length) cs := by
  induction bs generalizing m a with
  | nil => simp [Memory.store]
  | cons b bs ih => simp [Memory.store, ih, Nat.add_assoc, Nat.add_comm 1]

/-! ### The block's two memories -/

@[simp] theorem State.imemBytes_length (s : State) (a n : Nat) : (s.imemBytes a n).length = n := by
  induction n generalizing a with
  | zero => rfl
  | succ n ih => simp [State.imemBytes, ih]

@[simp] theorem State.omemBytes_length (s : State) (a n : Nat) : (s.omemBytes a n).length = n := by
  induction n generalizing a with
  | zero => rfl
  | succ n ih => simp [State.omemBytes, ih]

theorem State.imemBytes_getElem? (s : State) (a n k : Nat) :
    (s.imemBytes a n)[k]? = if k < n then some (s.imemByte (a + k)) else none := by
  induction n generalizing a k with
  | zero => rfl
  | succ n ih => cases k <;> simp [State.imemBytes, ih, Nat.add_assoc, Nat.add_comm 1]

theorem State.omemBytes_getElem? (s : State) (a n k : Nat) :
    (s.omemBytes a n)[k]? = if k < n then some (s.omemByte (a + k)) else none := by
  induction n generalizing a k with
  | zero => rfl
  | succ n ih => cases k <;> simp [State.omemBytes, ih, Nat.add_assoc, Nat.add_comm 1]

theorem State.imemBytes_add (s : State) (a m n : Nat) :
    s.imemBytes a (m + n) = s.imemBytes a m ++ s.imemBytes (a + m) n := by
  induction m generalizing a with
  | zero => simp [State.imemBytes]
  | succ m ih => rw [Nat.add_right_comm, State.imemBytes, ih]; simp [State.imemBytes, Nat.add_assoc, Nat.add_comm 1]

theorem State.imemByte_store (s : State) (a x : Nat) (bs : List Byte) :
    State.imemByte { s with imem := Memory.store s.imem a bs } x
      = if a ≤ x ∧ x < a + bs.length then bs.getD (x - a) 0 else s.imemByte x := by
  simp only [State.imemByte, Memory.get?_store]
  split
  · rw [List.getD_eq_getElem?_getD, List.getElem?_eq_getElem (by omega)]; rfl
  · rfl

theorem State.omemBytes_store (s : State) (a : Nat) (bs : List Byte) :
    State.omemBytes { s with omem := Memory.store s.omem a bs } a bs.length = bs := by
  refine List.ext_getElem? fun k => ?_
  rw [State.omemBytes_getElem?]
  split
  · rw [State.omemByte, Memory.get?_store, if_pos (by omega), Nat.add_sub_cancel_left,
      List.getElem?_eq_getElem (by omega)]
    rfl
  · rw [List.getElem?_eq_none (by omega)]

theorem State.imemByte_write (s : State) (a x : Nat) (b : Byte) :
    State.imemByte { s with imem := Memory.write s.imem a b } x = if x = a then b else s.imemByte x := by
  simp only [State.imemByte, Memory.get?_write]
  split <;> rfl

theorem State.omemByte_store (s : State) (a x : Nat) (bs : List Byte) :
    State.omemByte { s with omem := Memory.store s.omem a bs } x
      = if a ≤ x ∧ x < a + bs.length then bs.getD (x - a) 0 else s.omemByte x := by
  simp only [State.omemByte, Memory.get?_store]
  split
  · rw [List.getD_eq_getElem?_getD, List.getElem?_eq_getElem (by omega)]; rfl
  · rfl

end Sys2Proof.Machine
end

