-- ==== Sys2Proof/Laws/State.lean ====
section
/-! SUPPORT. One lemma per field per update of State, true by unfolding: what each named update writes, and that it
leaves every other field as it was. -/

namespace Sys2Proof.Machine

/-! ### State.setErr -/

@[simp] theorem State.setErr_xb (s : State) (e : BitVec 4) : (s.setErr e).xb = s.xb := rfl
@[simp] theorem State.setErr_cb (s : State) (e : BitVec 4) : (s.setErr e).cb = s.cb := rfl
@[simp] theorem State.setErr_qb (s : State) (e : BitVec 4) : (s.setErr e).qb = s.qb := rfl
@[simp] theorem State.setErr_zb (s : State) (e : BitVec 4) : (s.setErr e).zb = s.zb := rfl
@[simp] theorem State.setErr_record (s : State) (e : BitVec 4) : (s.setErr e).record = s.record := rfl
@[simp] theorem State.setErr_qt (s : State) (e : BitVec 4) : (s.setErr e).qt = s.qt := rfl
@[simp] theorem State.setErr_zz (s : State) (e : BitVec 4) : (s.setErr e).zz = s.zz := rfl
@[simp] theorem State.setErr_status (s : State) (e : BitVec 4) : (s.setErr e).status = (s.status &&& 0xFFFFFFF0#32) ||| e.setWidth 32 := rfl
@[simp] theorem State.setErr_height (s : State) (e : BitVec 4) : (s.setErr e).height = s.height := rfl
@[simp] theorem State.setErr_width (s : State) (e : BitVec 4) : (s.setErr e).width = s.width := rfl
@[simp] theorem State.setErr_nchan (s : State) (e : BitVec 4) : (s.setErr e).nchan = s.nchan := rfl
@[simp] theorem State.setErr_blkcnt (s : State) (e : BitVec 4) : (s.setErr e).blkcnt = s.blkcnt := rfl
@[simp] theorem State.setErr_ilen (s : State) (e : BitVec 4) : (s.setErr e).ilen = s.ilen := rfl
@[simp] theorem State.setErr_iptr (s : State) (e : BitVec 4) : (s.setErr e).iptr = s.iptr := rfl
@[simp] theorem State.setErr_optr (s : State) (e : BitVec 4) : (s.setErr e).optr = s.optr := rfl
@[simp] theorem State.setErr_imem (s : State) (e : BitVec 4) : (s.setErr e).imem = s.imem := rfl
@[simp] theorem State.setErr_omem (s : State) (e : BitVec 4) : (s.setErr e).omem = s.omem := rfl
@[simp] theorem State.setErr_build (s : State) (e : BitVec 4) : (s.setErr e).build = s.build := rfl
@[simp] theorem State.setErr_gen (s : State) (e : BitVec 4) : (s.setErr e).gen = s.gen := rfl
@[simp] theorem State.setErr_queue (s : State) (e : BitVec 4) : (s.setErr e).queue = s.queue := rfl
@[simp] theorem State.setErr_seen (s : State) (e : BitVec 4) : (s.setErr e).seen = s.seen := rfl

/-! ### advance -/

@[simp] theorem advance_xb (n : Nat) (s : State) : (advance n s).xb = s.xb := rfl
@[simp] theorem advance_cb (n : Nat) (s : State) : (advance n s).cb = s.cb := rfl
@[simp] theorem advance_qb (n : Nat) (s : State) : (advance n s).qb = s.qb := rfl
@[simp] theorem advance_zb (n : Nat) (s : State) : (advance n s).zb = s.zb := rfl
@[simp] theorem advance_record (n : Nat) (s : State) : (advance n s).record = s.record := rfl
@[simp] theorem advance_qt (n : Nat) (s : State) : (advance n s).qt = s.qt := rfl
@[simp] theorem advance_zz (n : Nat) (s : State) : (advance n s).zz = s.zz := rfl
@[simp] theorem advance_status (n : Nat) (s : State) : (advance n s).status = s.status := rfl
@[simp] theorem advance_height (n : Nat) (s : State) : (advance n s).height = s.height := rfl
@[simp] theorem advance_width (n : Nat) (s : State) : (advance n s).width = s.width := rfl
@[simp] theorem advance_nchan (n : Nat) (s : State) : (advance n s).nchan = s.nchan := rfl
@[simp] theorem advance_blkcnt (n : Nat) (s : State) : (advance n s).blkcnt = s.blkcnt := rfl
@[simp] theorem advance_ilen (n : Nat) (s : State) : (advance n s).ilen = s.ilen := rfl
@[simp] theorem advance_iptr (n : Nat) (s : State) : (advance n s).iptr = s.iptr + BitVec.ofNat 32 n := rfl
@[simp] theorem advance_optr (n : Nat) (s : State) : (advance n s).optr = s.optr := rfl
@[simp] theorem advance_imem (n : Nat) (s : State) : (advance n s).imem = s.imem := rfl
@[simp] theorem advance_omem (n : Nat) (s : State) : (advance n s).omem = s.omem := rfl
@[simp] theorem advance_build (n : Nat) (s : State) : (advance n s).build = s.build := rfl
@[simp] theorem advance_gen (n : Nat) (s : State) : (advance n s).gen = s.gen := rfl
@[simp] theorem advance_queue (n : Nat) (s : State) : (advance n s).queue = s.queue := rfl
@[simp] theorem advance_seen (n : Nat) (s : State) : (advance n s).seen = s.seen := rfl

/-! ### loadHdr -/

@[simp] theorem loadHdr_xb (h w c : Word) (s : State) : (loadHdr h w c s).xb = s.xb := rfl
@[simp] theorem loadHdr_cb (h w c : Word) (s : State) : (loadHdr h w c s).cb = s.cb := rfl
@[simp] theorem loadHdr_qb (h w c : Word) (s : State) : (loadHdr h w c s).qb = s.qb := rfl
@[simp] theorem loadHdr_zb (h w c : Word) (s : State) : (loadHdr h w c s).zb = s.zb := rfl
@[simp] theorem loadHdr_record (h w c : Word) (s : State) : (loadHdr h w c s).record = s.record := rfl
@[simp] theorem loadHdr_qt (h w c : Word) (s : State) : (loadHdr h w c s).qt = s.qt := rfl
@[simp] theorem loadHdr_zz (h w c : Word) (s : State) : (loadHdr h w c s).zz = s.zz := rfl
@[simp] theorem loadHdr_status (h w c : Word) (s : State) : (loadHdr h w c s).status = s.status := rfl
@[simp] theorem loadHdr_height (h w c : Word) (s : State) : (loadHdr h w c s).height = h := rfl
@[simp] theorem loadHdr_width (h w c : Word) (s : State) : (loadHdr h w c s).width = w := rfl
@[simp] theorem loadHdr_nchan (h w c : Word) (s : State) : (loadHdr h w c s).nchan = c := rfl
@[simp] theorem loadHdr_blkcnt (h w c : Word) (s : State) : (loadHdr h w c s).blkcnt = s.blkcnt := rfl
@[simp] theorem loadHdr_ilen (h w c : Word) (s : State) : (loadHdr h w c s).ilen = s.ilen := rfl
@[simp] theorem loadHdr_iptr (h w c : Word) (s : State) : (loadHdr h w c s).iptr = s.iptr + 16 := rfl
@[simp] theorem loadHdr_optr (h w c : Word) (s : State) : (loadHdr h w c s).optr = s.optr := rfl
@[simp] theorem loadHdr_imem (h w c : Word) (s : State) : (loadHdr h w c s).imem = s.imem := rfl
@[simp] theorem loadHdr_omem (h w c : Word) (s : State) : (loadHdr h w c s).omem = s.omem := rfl
@[simp] theorem loadHdr_build (h w c : Word) (s : State) : (loadHdr h w c s).build = s.build := rfl
@[simp] theorem loadHdr_gen (h w c : Word) (s : State) : (loadHdr h w c s).gen = s.gen := rfl
@[simp] theorem loadHdr_queue (h w c : Word) (s : State) : (loadHdr h w c s).queue = s.queue := rfl
@[simp] theorem loadHdr_seen (h w c : Word) (s : State) : (loadHdr h w c s).seen = s.seen := rfl

/-! ### loadChn -/

@[simp] theorem loadChn_xb (k : Word) (s : State) : (loadChn k s).xb = s.xb := rfl
@[simp] theorem loadChn_cb (k : Word) (s : State) : (loadChn k s).cb = s.cb := rfl
@[simp] theorem loadChn_qb (k : Word) (s : State) : (loadChn k s).qb = s.qb := rfl
@[simp] theorem loadChn_zb (k : Word) (s : State) : (loadChn k s).zb = s.zb := rfl
@[simp] theorem loadChn_record (k : Word) (s : State) : (loadChn k s).record = s.record := rfl
@[simp] theorem loadChn_qt (k : Word) (s : State) : (loadChn k s).qt = s.qt := rfl
@[simp] theorem loadChn_zz (k : Word) (s : State) : (loadChn k s).zz = s.zz := rfl
@[simp] theorem loadChn_status (k : Word) (s : State) : (loadChn k s).status = s.status := rfl
@[simp] theorem loadChn_height (k : Word) (s : State) : (loadChn k s).height = s.height := rfl
@[simp] theorem loadChn_width (k : Word) (s : State) : (loadChn k s).width = s.width := rfl
@[simp] theorem loadChn_nchan (k : Word) (s : State) : (loadChn k s).nchan = s.nchan := rfl
@[simp] theorem loadChn_blkcnt (k : Word) (s : State) : (loadChn k s).blkcnt = k := rfl
@[simp] theorem loadChn_ilen (k : Word) (s : State) : (loadChn k s).ilen = s.ilen := rfl
@[simp] theorem loadChn_iptr (k : Word) (s : State) : (loadChn k s).iptr = s.iptr + 4 := rfl
@[simp] theorem loadChn_optr (k : Word) (s : State) : (loadChn k s).optr = s.optr := rfl
@[simp] theorem loadChn_imem (k : Word) (s : State) : (loadChn k s).imem = s.imem := rfl
@[simp] theorem loadChn_omem (k : Word) (s : State) : (loadChn k s).omem = s.omem := rfl
@[simp] theorem loadChn_build (k : Word) (s : State) : (loadChn k s).build = s.build := rfl
@[simp] theorem loadChn_gen (k : Word) (s : State) : (loadChn k s).gen = s.gen := rfl
@[simp] theorem loadChn_queue (k : Word) (s : State) : (loadChn k s).queue = s.queue := rfl
@[simp] theorem loadChn_seen (k : Word) (s : State) : (loadChn k s).seen = s.seen := rfl

/-! ### loadRecord -/

@[simp] theorem loadRecord_xb (d : Half) (ac : List AcPair) (s : State) : (loadRecord d ac s).xb = s.xb := rfl
@[simp] theorem loadRecord_cb (d : Half) (ac : List AcPair) (s : State) : (loadRecord d ac s).cb = s.cb := rfl
@[simp] theorem loadRecord_qb (d : Half) (ac : List AcPair) (s : State) : (loadRecord d ac s).qb = s.qb := rfl
@[simp] theorem loadRecord_zb (d : Half) (ac : List AcPair) (s : State) : (loadRecord d ac s).zb = s.zb := rfl
@[simp] theorem loadRecord_record (d : Half) (ac : List AcPair) (s : State) : (loadRecord d ac s).record = RecordReg.ofPairs d ac := rfl
@[simp] theorem loadRecord_qt (d : Half) (ac : List AcPair) (s : State) : (loadRecord d ac s).qt = s.qt := rfl
@[simp] theorem loadRecord_zz (d : Half) (ac : List AcPair) (s : State) : (loadRecord d ac s).zz = s.zz := rfl
@[simp] theorem loadRecord_status (d : Half) (ac : List AcPair) (s : State) : (loadRecord d ac s).status = s.status := rfl
@[simp] theorem loadRecord_height (d : Half) (ac : List AcPair) (s : State) : (loadRecord d ac s).height = s.height := rfl
@[simp] theorem loadRecord_width (d : Half) (ac : List AcPair) (s : State) : (loadRecord d ac s).width = s.width := rfl
@[simp] theorem loadRecord_nchan (d : Half) (ac : List AcPair) (s : State) : (loadRecord d ac s).nchan = s.nchan := rfl
@[simp] theorem loadRecord_blkcnt (d : Half) (ac : List AcPair) (s : State) : (loadRecord d ac s).blkcnt = s.blkcnt := rfl
@[simp] theorem loadRecord_ilen (d : Half) (ac : List AcPair) (s : State) : (loadRecord d ac s).ilen = s.ilen := rfl
@[simp] theorem loadRecord_iptr (d : Half) (ac : List AcPair) (s : State) : (loadRecord d ac s).iptr = s.iptr + BitVec.ofNat 32 (4 + 3 * ac.length) := rfl
@[simp] theorem loadRecord_optr (d : Half) (ac : List AcPair) (s : State) : (loadRecord d ac s).optr = s.optr := rfl
@[simp] theorem loadRecord_imem (d : Half) (ac : List AcPair) (s : State) : (loadRecord d ac s).imem = s.imem := rfl
@[simp] theorem loadRecord_omem (d : Half) (ac : List AcPair) (s : State) : (loadRecord d ac s).omem = s.omem := rfl
@[simp] theorem loadRecord_build (d : Half) (ac : List AcPair) (s : State) : (loadRecord d ac s).build = s.build := rfl
@[simp] theorem loadRecord_gen (d : Half) (ac : List AcPair) (s : State) : (loadRecord d ac s).gen = s.gen := rfl
@[simp] theorem loadRecord_queue (d : Half) (ac : List AcPair) (s : State) : (loadRecord d ac s).queue = s.queue := rfl
@[simp] theorem loadRecord_seen (d : Half) (ac : List AcPair) (s : State) : (loadRecord d ac s).seen = s.seen := rfl

/-! ### loadPair -/

@[simp] theorem loadPair_xb (p : AcPair) (s : State) : (loadPair p s).xb = s.xb := rfl
@[simp] theorem loadPair_cb (p : AcPair) (s : State) : (loadPair p s).cb = s.cb := rfl
@[simp] theorem loadPair_qb (p : AcPair) (s : State) : (loadPair p s).qb = s.qb := rfl
@[simp] theorem loadPair_zb (p : AcPair) (s : State) : (loadPair p s).zb = s.zb := rfl
@[simp] theorem loadPair_record (p : AcPair) (s : State) : (loadPair p s).record = RecordReg.ofPairs s.record.dc (s.record.pairs s.gen ++ [p]) := rfl
@[simp] theorem loadPair_qt (p : AcPair) (s : State) : (loadPair p s).qt = s.qt := rfl
@[simp] theorem loadPair_zz (p : AcPair) (s : State) : (loadPair p s).zz = s.zz := rfl
@[simp] theorem loadPair_status (p : AcPair) (s : State) : (loadPair p s).status = s.status := rfl
@[simp] theorem loadPair_height (p : AcPair) (s : State) : (loadPair p s).height = s.height := rfl
@[simp] theorem loadPair_width (p : AcPair) (s : State) : (loadPair p s).width = s.width := rfl
@[simp] theorem loadPair_nchan (p : AcPair) (s : State) : (loadPair p s).nchan = s.nchan := rfl
@[simp] theorem loadPair_blkcnt (p : AcPair) (s : State) : (loadPair p s).blkcnt = s.blkcnt := rfl
@[simp] theorem loadPair_ilen (p : AcPair) (s : State) : (loadPair p s).ilen = s.ilen := rfl
@[simp] theorem loadPair_iptr (p : AcPair) (s : State) : (loadPair p s).iptr = s.iptr + 3 := rfl
@[simp] theorem loadPair_optr (p : AcPair) (s : State) : (loadPair p s).optr = s.optr := rfl
@[simp] theorem loadPair_imem (p : AcPair) (s : State) : (loadPair p s).imem = s.imem := rfl
@[simp] theorem loadPair_omem (p : AcPair) (s : State) : (loadPair p s).omem = s.omem := rfl
@[simp] theorem loadPair_build (p : AcPair) (s : State) : (loadPair p s).build = s.build := rfl
@[simp] theorem loadPair_gen (p : AcPair) (s : State) : (loadPair p s).gen = s.gen := rfl
@[simp] theorem loadPair_queue (p : AcPair) (s : State) : (loadPair p s).queue = s.queue := rfl
@[simp] theorem loadPair_seen (p : AcPair) (s : State) : (loadPair p s).seen = s.seen := rfl

/-! ### fdctBody -/

@[simp] theorem fdctBody_xb (s : State) : (fdctBody s).xb = s.xb := rfl
@[simp] theorem fdctBody_cb (s : State) : (fdctBody s).cb = s.build.numerics.fdct s.xb := rfl
@[simp] theorem fdctBody_qb (s : State) : (fdctBody s).qb = s.qb := rfl
@[simp] theorem fdctBody_zb (s : State) : (fdctBody s).zb = s.zb := rfl
@[simp] theorem fdctBody_record (s : State) : (fdctBody s).record = s.record := rfl
@[simp] theorem fdctBody_qt (s : State) : (fdctBody s).qt = s.qt := rfl
@[simp] theorem fdctBody_zz (s : State) : (fdctBody s).zz = s.zz := rfl
@[simp] theorem fdctBody_status (s : State) : (fdctBody s).status = s.status := rfl
@[simp] theorem fdctBody_height (s : State) : (fdctBody s).height = s.height := rfl
@[simp] theorem fdctBody_width (s : State) : (fdctBody s).width = s.width := rfl
@[simp] theorem fdctBody_nchan (s : State) : (fdctBody s).nchan = s.nchan := rfl
@[simp] theorem fdctBody_blkcnt (s : State) : (fdctBody s).blkcnt = s.blkcnt := rfl
@[simp] theorem fdctBody_ilen (s : State) : (fdctBody s).ilen = s.ilen := rfl
@[simp] theorem fdctBody_iptr (s : State) : (fdctBody s).iptr = s.iptr := rfl
@[simp] theorem fdctBody_optr (s : State) : (fdctBody s).optr = s.optr := rfl
@[simp] theorem fdctBody_imem (s : State) : (fdctBody s).imem = s.imem := rfl
@[simp] theorem fdctBody_omem (s : State) : (fdctBody s).omem = s.omem := rfl
@[simp] theorem fdctBody_build (s : State) : (fdctBody s).build = s.build := rfl
@[simp] theorem fdctBody_gen (s : State) : (fdctBody s).gen = s.gen := rfl
@[simp] theorem fdctBody_queue (s : State) : (fdctBody s).queue = s.queue := rfl
@[simp] theorem fdctBody_seen (s : State) : (fdctBody s).seen = s.seen := rfl

/-! ### idctBody -/

@[simp] theorem idctBody_xb (s : State) : (idctBody s).xb = s.build.numerics.idct s.cb := rfl
@[simp] theorem idctBody_cb (s : State) : (idctBody s).cb = s.cb := rfl
@[simp] theorem idctBody_qb (s : State) : (idctBody s).qb = s.qb := rfl
@[simp] theorem idctBody_zb (s : State) : (idctBody s).zb = s.zb := rfl
@[simp] theorem idctBody_record (s : State) : (idctBody s).record = s.record := rfl
@[simp] theorem idctBody_qt (s : State) : (idctBody s).qt = s.qt := rfl
@[simp] theorem idctBody_zz (s : State) : (idctBody s).zz = s.zz := rfl
@[simp] theorem idctBody_status (s : State) : (idctBody s).status = s.status := rfl
@[simp] theorem idctBody_height (s : State) : (idctBody s).height = s.height := rfl
@[simp] theorem idctBody_width (s : State) : (idctBody s).width = s.width := rfl
@[simp] theorem idctBody_nchan (s : State) : (idctBody s).nchan = s.nchan := rfl
@[simp] theorem idctBody_blkcnt (s : State) : (idctBody s).blkcnt = s.blkcnt := rfl
@[simp] theorem idctBody_ilen (s : State) : (idctBody s).ilen = s.ilen := rfl
@[simp] theorem idctBody_iptr (s : State) : (idctBody s).iptr = s.iptr := rfl
@[simp] theorem idctBody_optr (s : State) : (idctBody s).optr = s.optr := rfl
@[simp] theorem idctBody_imem (s : State) : (idctBody s).imem = s.imem := rfl
@[simp] theorem idctBody_omem (s : State) : (idctBody s).omem = s.omem := rfl
@[simp] theorem idctBody_build (s : State) : (idctBody s).build = s.build := rfl
@[simp] theorem idctBody_gen (s : State) : (idctBody s).gen = s.gen := rfl
@[simp] theorem idctBody_queue (s : State) : (idctBody s).queue = s.queue := rfl
@[simp] theorem idctBody_seen (s : State) : (idctBody s).seen = s.seen := rfl

/-! ### quantBody -/

@[simp] theorem quantBody_xb (s : State) : (quantBody s).xb = s.xb := rfl
@[simp] theorem quantBody_cb (s : State) : (quantBody s).cb = s.cb := rfl
@[simp] theorem quantBody_qb (s : State) : (quantBody s).qb = Vector.zipWith (quantizeLane s.build.numerics) s.cb s.qt := rfl
@[simp] theorem quantBody_zb (s : State) : (quantBody s).zb = s.zb := rfl
@[simp] theorem quantBody_record (s : State) : (quantBody s).record = s.record := rfl
@[simp] theorem quantBody_qt (s : State) : (quantBody s).qt = s.qt := rfl
@[simp] theorem quantBody_zz (s : State) : (quantBody s).zz = s.zz := rfl
@[simp] theorem quantBody_status (s : State) : (quantBody s).status = s.status := rfl
@[simp] theorem quantBody_height (s : State) : (quantBody s).height = s.height := rfl
@[simp] theorem quantBody_width (s : State) : (quantBody s).width = s.width := rfl
@[simp] theorem quantBody_nchan (s : State) : (quantBody s).nchan = s.nchan := rfl
@[simp] theorem quantBody_blkcnt (s : State) : (quantBody s).blkcnt = s.blkcnt := rfl
@[simp] theorem quantBody_ilen (s : State) : (quantBody s).ilen = s.ilen := rfl
@[simp] theorem quantBody_iptr (s : State) : (quantBody s).iptr = s.iptr := rfl
@[simp] theorem quantBody_optr (s : State) : (quantBody s).optr = s.optr := rfl
@[simp] theorem quantBody_imem (s : State) : (quantBody s).imem = s.imem := rfl
@[simp] theorem quantBody_omem (s : State) : (quantBody s).omem = s.omem := rfl
@[simp] theorem quantBody_build (s : State) : (quantBody s).build = s.build := rfl
@[simp] theorem quantBody_gen (s : State) : (quantBody s).gen = s.gen := rfl
@[simp] theorem quantBody_queue (s : State) : (quantBody s).queue = s.queue := rfl
@[simp] theorem quantBody_seen (s : State) : (quantBody s).seen = s.seen := rfl

/-! ### dequantBody -/

@[simp] theorem dequantBody_xb (s : State) : (dequantBody s).xb = s.xb := rfl
@[simp] theorem dequantBody_cb (s : State) : (dequantBody s).cb = Vector.zipWith (dequantizeLane s.build.numerics) s.qb s.qt := rfl
@[simp] theorem dequantBody_qb (s : State) : (dequantBody s).qb = s.qb := rfl
@[simp] theorem dequantBody_zb (s : State) : (dequantBody s).zb = s.zb := rfl
@[simp] theorem dequantBody_record (s : State) : (dequantBody s).record = s.record := rfl
@[simp] theorem dequantBody_qt (s : State) : (dequantBody s).qt = s.qt := rfl
@[simp] theorem dequantBody_zz (s : State) : (dequantBody s).zz = s.zz := rfl
@[simp] theorem dequantBody_status (s : State) : (dequantBody s).status = s.status := rfl
@[simp] theorem dequantBody_height (s : State) : (dequantBody s).height = s.height := rfl
@[simp] theorem dequantBody_width (s : State) : (dequantBody s).width = s.width := rfl
@[simp] theorem dequantBody_nchan (s : State) : (dequantBody s).nchan = s.nchan := rfl
@[simp] theorem dequantBody_blkcnt (s : State) : (dequantBody s).blkcnt = s.blkcnt := rfl
@[simp] theorem dequantBody_ilen (s : State) : (dequantBody s).ilen = s.ilen := rfl
@[simp] theorem dequantBody_iptr (s : State) : (dequantBody s).iptr = s.iptr := rfl
@[simp] theorem dequantBody_optr (s : State) : (dequantBody s).optr = s.optr := rfl
@[simp] theorem dequantBody_imem (s : State) : (dequantBody s).imem = s.imem := rfl
@[simp] theorem dequantBody_omem (s : State) : (dequantBody s).omem = s.omem := rfl
@[simp] theorem dequantBody_build (s : State) : (dequantBody s).build = s.build := rfl
@[simp] theorem dequantBody_gen (s : State) : (dequantBody s).gen = s.gen := rfl
@[simp] theorem dequantBody_queue (s : State) : (dequantBody s).queue = s.queue := rfl
@[simp] theorem dequantBody_seen (s : State) : (dequantBody s).seen = s.seen := rfl

/-! ### zzfwdBody -/

@[simp] theorem zzfwdBody_xb (s : State) : (zzfwdBody s).xb = s.xb := rfl
@[simp] theorem zzfwdBody_cb (s : State) : (zzfwdBody s).cb = s.cb := rfl
@[simp] theorem zzfwdBody_qb (s : State) : (zzfwdBody s).qb = s.qb := rfl
@[simp] theorem zzfwdBody_zb (s : State) : (zzfwdBody s).zb = toZigzag s.zz s.qb := rfl
@[simp] theorem zzfwdBody_record (s : State) : (zzfwdBody s).record = s.record := rfl
@[simp] theorem zzfwdBody_qt (s : State) : (zzfwdBody s).qt = s.qt := rfl
@[simp] theorem zzfwdBody_zz (s : State) : (zzfwdBody s).zz = s.zz := rfl
@[simp] theorem zzfwdBody_status (s : State) : (zzfwdBody s).status = s.status := rfl
@[simp] theorem zzfwdBody_height (s : State) : (zzfwdBody s).height = s.height := rfl
@[simp] theorem zzfwdBody_width (s : State) : (zzfwdBody s).width = s.width := rfl
@[simp] theorem zzfwdBody_nchan (s : State) : (zzfwdBody s).nchan = s.nchan := rfl
@[simp] theorem zzfwdBody_blkcnt (s : State) : (zzfwdBody s).blkcnt = s.blkcnt := rfl
@[simp] theorem zzfwdBody_ilen (s : State) : (zzfwdBody s).ilen = s.ilen := rfl
@[simp] theorem zzfwdBody_iptr (s : State) : (zzfwdBody s).iptr = s.iptr := rfl
@[simp] theorem zzfwdBody_optr (s : State) : (zzfwdBody s).optr = s.optr := rfl
@[simp] theorem zzfwdBody_imem (s : State) : (zzfwdBody s).imem = s.imem := rfl
@[simp] theorem zzfwdBody_omem (s : State) : (zzfwdBody s).omem = s.omem := rfl
@[simp] theorem zzfwdBody_build (s : State) : (zzfwdBody s).build = s.build := rfl
@[simp] theorem zzfwdBody_gen (s : State) : (zzfwdBody s).gen = s.gen := rfl
@[simp] theorem zzfwdBody_queue (s : State) : (zzfwdBody s).queue = s.queue := rfl
@[simp] theorem zzfwdBody_seen (s : State) : (zzfwdBody s).seen = s.seen := rfl

/-! ### zzinvBody -/

@[simp] theorem zzinvBody_xb (s : State) : (zzinvBody s).xb = s.xb := rfl
@[simp] theorem zzinvBody_cb (s : State) : (zzinvBody s).cb = s.cb := rfl
@[simp] theorem zzinvBody_qb (s : State) : (zzinvBody s).qb = fromZigzag s.zz s.zb s.qb := rfl
@[simp] theorem zzinvBody_zb (s : State) : (zzinvBody s).zb = s.zb := rfl
@[simp] theorem zzinvBody_record (s : State) : (zzinvBody s).record = s.record := rfl
@[simp] theorem zzinvBody_qt (s : State) : (zzinvBody s).qt = s.qt := rfl
@[simp] theorem zzinvBody_zz (s : State) : (zzinvBody s).zz = s.zz := rfl
@[simp] theorem zzinvBody_status (s : State) : (zzinvBody s).status = s.status := rfl
@[simp] theorem zzinvBody_height (s : State) : (zzinvBody s).height = s.height := rfl
@[simp] theorem zzinvBody_width (s : State) : (zzinvBody s).width = s.width := rfl
@[simp] theorem zzinvBody_nchan (s : State) : (zzinvBody s).nchan = s.nchan := rfl
@[simp] theorem zzinvBody_blkcnt (s : State) : (zzinvBody s).blkcnt = s.blkcnt := rfl
@[simp] theorem zzinvBody_ilen (s : State) : (zzinvBody s).ilen = s.ilen := rfl
@[simp] theorem zzinvBody_iptr (s : State) : (zzinvBody s).iptr = s.iptr := rfl
@[simp] theorem zzinvBody_optr (s : State) : (zzinvBody s).optr = s.optr := rfl
@[simp] theorem zzinvBody_imem (s : State) : (zzinvBody s).imem = s.imem := rfl
@[simp] theorem zzinvBody_omem (s : State) : (zzinvBody s).omem = s.omem := rfl
@[simp] theorem zzinvBody_build (s : State) : (zzinvBody s).build = s.build := rfl
@[simp] theorem zzinvBody_gen (s : State) : (zzinvBody s).gen = s.gen := rfl
@[simp] theorem zzinvBody_queue (s : State) : (zzinvBody s).queue = s.queue := rfl
@[simp] theorem zzinvBody_seen (s : State) : (zzinvBody s).seen = s.seen := rfl

/-! ### rleencBody -/

@[simp] theorem rleencBody_xb (s : State) : (rleencBody s).xb = s.xb := rfl
@[simp] theorem rleencBody_cb (s : State) : (rleencBody s).cb = s.cb := rfl
@[simp] theorem rleencBody_qb (s : State) : (rleencBody s).qb = s.qb := rfl
@[simp] theorem rleencBody_zb (s : State) : (rleencBody s).zb = s.zb := rfl
@[simp] theorem rleencBody_record (s : State) : (rleencBody s).record = RecordReg.ofPairs s.zb[0] (rleEncode s.zb) := rfl
@[simp] theorem rleencBody_qt (s : State) : (rleencBody s).qt = s.qt := rfl
@[simp] theorem rleencBody_zz (s : State) : (rleencBody s).zz = s.zz := rfl
@[simp] theorem rleencBody_status (s : State) : (rleencBody s).status = s.status := rfl
@[simp] theorem rleencBody_height (s : State) : (rleencBody s).height = s.height := rfl
@[simp] theorem rleencBody_width (s : State) : (rleencBody s).width = s.width := rfl
@[simp] theorem rleencBody_nchan (s : State) : (rleencBody s).nchan = s.nchan := rfl
@[simp] theorem rleencBody_blkcnt (s : State) : (rleencBody s).blkcnt = s.blkcnt := rfl
@[simp] theorem rleencBody_ilen (s : State) : (rleencBody s).ilen = s.ilen := rfl
@[simp] theorem rleencBody_iptr (s : State) : (rleencBody s).iptr = s.iptr := rfl
@[simp] theorem rleencBody_optr (s : State) : (rleencBody s).optr = s.optr := rfl
@[simp] theorem rleencBody_imem (s : State) : (rleencBody s).imem = s.imem := rfl
@[simp] theorem rleencBody_omem (s : State) : (rleencBody s).omem = s.omem := rfl
@[simp] theorem rleencBody_build (s : State) : (rleencBody s).build = s.build := rfl
@[simp] theorem rleencBody_gen (s : State) : (rleencBody s).gen = s.gen := rfl
@[simp] theorem rleencBody_queue (s : State) : (rleencBody s).queue = s.queue := rfl
@[simp] theorem rleencBody_seen (s : State) : (rleencBody s).seen = s.seen := rfl

/-! ### rledecBody -/

@[simp] theorem rledecBody_xb (s : State) : (rledecBody s).xb = s.xb := rfl
@[simp] theorem rledecBody_cb (s : State) : (rledecBody s).cb = s.cb := rfl
@[simp] theorem rledecBody_qb (s : State) : (rledecBody s).qb = s.qb := rfl
@[simp] theorem rledecBody_zb (s : State) : (rledecBody s).zb = rleDecode s.record.dc (s.record.pairs s.gen) := rfl
@[simp] theorem rledecBody_record (s : State) : (rledecBody s).record = s.record := rfl
@[simp] theorem rledecBody_qt (s : State) : (rledecBody s).qt = s.qt := rfl
@[simp] theorem rledecBody_zz (s : State) : (rledecBody s).zz = s.zz := rfl
@[simp] theorem rledecBody_status (s : State) : (rledecBody s).status = s.status := rfl
@[simp] theorem rledecBody_height (s : State) : (rledecBody s).height = s.height := rfl
@[simp] theorem rledecBody_width (s : State) : (rledecBody s).width = s.width := rfl
@[simp] theorem rledecBody_nchan (s : State) : (rledecBody s).nchan = s.nchan := rfl
@[simp] theorem rledecBody_blkcnt (s : State) : (rledecBody s).blkcnt = s.blkcnt := rfl
@[simp] theorem rledecBody_ilen (s : State) : (rledecBody s).ilen = s.ilen := rfl
@[simp] theorem rledecBody_iptr (s : State) : (rledecBody s).iptr = s.iptr := rfl
@[simp] theorem rledecBody_optr (s : State) : (rledecBody s).optr = s.optr := rfl
@[simp] theorem rledecBody_imem (s : State) : (rledecBody s).imem = s.imem := rfl
@[simp] theorem rledecBody_omem (s : State) : (rledecBody s).omem = s.omem := rfl
@[simp] theorem rledecBody_build (s : State) : (rledecBody s).build = s.build := rfl
@[simp] theorem rledecBody_gen (s : State) : (rledecBody s).gen = s.gen := rfl
@[simp] theorem rledecBody_queue (s : State) : (rledecBody s).queue = s.queue := rfl
@[simp] theorem rledecBody_seen (s : State) : (rledecBody s).seen = s.seen := rfl

/-! ### resetState -/

@[simp] theorem resetState_xb (s : State) :
    (resetState s).xb = Vector.ofFn fun k => Config.freeReal (s.gen + 1) .xb k.val := by
  simp only [resetState, State.resetOf]
@[simp] theorem resetState_cb (s : State) :
    (resetState s).cb = Vector.ofFn fun k => Config.freeReal (s.gen + 1) .cb k.val := by
  simp only [resetState, State.resetOf]
@[simp] theorem resetState_qb (s : State) :
    (resetState s).qb = Vector.ofFn fun k => Config.freeHalf (s.gen + 1) .qb k.val := by
  simp only [resetState, State.resetOf]
@[simp] theorem resetState_zb (s : State) :
    (resetState s).zb = Vector.ofFn fun k => Config.freeHalf (s.gen + 1) .zb k.val := by
  simp only [resetState, State.resetOf]
@[simp] theorem resetState_record (s : State) :
    (resetState s).record = ⟨0, 0, []⟩ := by
  simp only [resetState, State.resetOf]
@[simp] theorem resetState_qt (s : State) :
    (resetState s).qt = s.qt := by
  simp only [resetState, State.resetOf]
@[simp] theorem resetState_zz (s : State) :
    (resetState s).zz = s.zz := by
  simp only [resetState, State.resetOf]
@[simp] theorem resetState_status (s : State) :
    (resetState s).status = 0 := by
  simp only [resetState, State.resetOf]
@[simp] theorem resetState_height (s : State) :
    (resetState s).height = 0 := by
  simp only [resetState, State.resetOf]
@[simp] theorem resetState_width (s : State) :
    (resetState s).width = 0 := by
  simp only [resetState, State.resetOf]
@[simp] theorem resetState_nchan (s : State) :
    (resetState s).nchan = 0 := by
  simp only [resetState, State.resetOf]
@[simp] theorem resetState_blkcnt (s : State) :
    (resetState s).blkcnt = 0 := by
  simp only [resetState, State.resetOf]
@[simp] theorem resetState_ilen (s : State) :
    (resetState s).ilen = 0 := by
  simp only [resetState, State.resetOf]
@[simp] theorem resetState_iptr (s : State) :
    (resetState s).iptr = 0 := by
  simp only [resetState, State.resetOf]
@[simp] theorem resetState_optr (s : State) :
    (resetState s).optr = 0 := by
  simp only [resetState, State.resetOf]
@[simp] theorem resetState_imem (s : State) :
    (resetState s).imem = [] := by
  simp only [resetState, State.resetOf]
@[simp] theorem resetState_omem (s : State) :
    (resetState s).omem = [] := by
  simp only [resetState, State.resetOf]
@[simp] theorem resetState_build (s : State) :
    (resetState s).build = s.build := by
  simp only [resetState, State.resetOf]
@[simp] theorem resetState_gen (s : State) :
    (resetState s).gen = s.gen + 1 := by
  simp only [resetState, State.resetOf]
@[simp] theorem resetState_queue (s : State) :
    (resetState s).queue = s.queue := by
  simp only [resetState, State.resetOf]
@[simp] theorem resetState_seen (s : State) :
    (resetState s).seen = s.seen := by
  simp only [resetState, State.resetOf]

end Sys2Proof.Machine
end

