-- ==== Sys2Proof/Laws/Ops.lean ====
section
/-! SUPPORT. One lemma per shared operation that says once everything it can do. -/

namespace Sys2Proof

/-! ### Fields as numbers and bytes -/

@[simp] theorem leBytes_length (n v : Nat) : (leBytes n v).length = n := by
  induction n generalizing v with
  | zero => rfl
  | succ n ih => simp [leBytes, ih]

theorem leNat_leBytes (n v : Nat) : leNat (leBytes n v) = v % 256 ^ n := by
  induction n generalizing v with
  | zero => simp [leBytes, leNat, Nat.mod_one]
  | succ n ih =>
    simp only [leBytes, leNat, ih, BitVec.toNat_ofNat]
    rw [show 256 ^ (n + 1) = 256 * 256 ^ n from Nat.pow_succ', Nat.mod_mul]

theorem leNat_lt (bs : List Byte) : leNat bs < 256 ^ bs.length := by
  induction bs with
  | nil => simp [leNat]
  | cons b bs ih => have := b.isLt; simp only [leNat, List.length_cons, Nat.pow_succ]; omega

theorem leBytes_leNat (bs : List Byte) : leBytes bs.length (leNat bs) = bs := by
  induction bs with
  | nil => rfl
  | cons b bs ih =>
    have hb := b.isLt
    have h1 : (b.toNat + 256 * leNat bs) / 256 = leNat bs := by omega
    have h2 : BitVec.ofNat 8 (b.toNat + 256 * leNat bs) = b := by
      apply BitVec.eq_of_toNat_eq; simp only [BitVec.toNat_ofNat]; omega
    simp only [List.length_cons, leBytes, leNat, h1, h2, ih]

namespace Machine

/-! ### STATUS.ERR -/

@[simp] theorem State.setErr_err (s : State) (e : BitVec 4) : (s.setErr e).err = e := by
  simp only [State.err, State.setErr_status]
  ext i hi
  have : i = 0 ∨ i = 1 ∨ i = 2 ∨ i = 3 := by omega
  rcases this with rfl | rfl | rfl | rfl <;> simp

theorem State.setErr_upper (s : State) (e : BitVec 4) :
    (s.setErr e).status.extractLsb' 4 28 = s.status.extractLsb' 4 28 := by
  simp only [State.setErr_status]
  ext i hi
  have h : (0xFFFFFFF0#32).getLsbD (4 + i) = true := by revert i; decide
  simp only [BitVec.getElem_extractLsb', BitVec.getLsbD_or, BitVec.getLsbD_and, BitVec.getLsbD_setWidth, h,
    BitVec.getLsbD_of_ge e (4 + i) (by omega)]
  simp

/-- Writing the code that is there changes nothing. -/
theorem State.setErr_self (s : State) : s.setErr s.err = s := by
  have h : (s.status &&& 0xFFFFFFF0#32) ||| s.err.setWidth 32 = s.status := by
    ext i hi
    have h2 : (0xFFFFFFF0#32)[i] = decide (4 ≤ i) := by revert i; decide
    simp only [State.err, BitVec.getElem_or, BitVec.getElem_and, BitVec.getElem_setWidth,
      BitVec.getLsbD_extractLsb', h2]
    by_cases h : 4 ≤ i <;> simp [h, BitVec.getLsbD_eq_getElem hi]
    omega
  simp only [State.setErr, h]

theorem State.setErr_onlyErrDiffers (s : State) (e : BitVec 4) : onlyErrDiffers s (s.setErr e) :=
  ⟨rfl, s.setErr_upper e⟩

/-- A code of at most 4 keeps STATUS at most 4. -/
theorem State.setErr_status_le (s : State) (e : BitVec 4) (h : s.status.toNat ≤ 4) (he : e.toNat ≤ 4) :
    (s.setErr e).status.toNat ≤ 4 := by
  have h0 : s.status &&& 0xFFFFFFF0#32 = 0#32 := by
    have hs : s.status = BitVec.ofNat 32 s.status.toNat := by simp
    rw [hs]
    revert h
    generalize s.status.toNat = n
    intro h
    interval_cases n <;> decide
  rw [State.setErr_status, h0, BitVec.zero_or, BitVec.toNat_setWidth]
  omega

theorem onlyErrDiffers.refl (s : State) : onlyErrDiffers s s := ⟨rfl, rfl⟩

theorem raise_of_clear {s : State} (e : ErrCode) (h : s.err = 0) : raise e s = s.setErr e.code := if_pos h

theorem raise_of_pending {s : State} (e : ErrCode) (h : s.err ≠ 0) : raise e s = s := if_neg h

theorem raise_onlyErrDiffers (e : ErrCode) (s : State) : onlyErrDiffers s (raise e s) := by
  unfold raise
  split
  · exact s.setErr_onlyErrDiffers _
  · exact .refl s

theorem ErrCode.code_ne_zero (e : ErrCode) : e.code ≠ 0 := by cases e <;> decide

theorem ErrCode.code_le (e : ErrCode) : e.code.toNat ≤ 4 := by cases e <;> decide

/-! ### Refusal and failure -/

theorem whenClear_of_clear {s : State} (r : Result) (h : s.err = 0) : whenClear s r = r := if_pos h

theorem whenClear_of_pending {s : State} (r : Result) (h : s.err ≠ 0) : whenClear s r = .next s := if_neg h

/-- A command that is refused while an error is pending either was, or ran. -/
theorem whenClear_cases {s t : State} {r : Result} (h : whenClear s r = .next t) :
    (s.err ≠ 0 ∧ t = s) ∨ (s.err = 0 ∧ r = .next t) := by
  unfold whenClear at h
  split at h
  · exact .inr ⟨‹_›, h⟩
  · cases h; exact .inl ⟨‹_›, rfl⟩

/-- A command that may fail raises its error or has its effect. -/
theorem settle_cases {s t : State} {r : Except ErrCode State} (h : settle s r = .next t) :
    (∃ e, r = .error e ∧ t = raise e s) ∨ r = .ok t := by
  cases r with
  | error e => cases h; exact .inl ⟨e, rfl, rfl⟩
  | ok u => cases h; exact .inr rfl

/-- A unit is refused, truncated, or consumed. -/
theorem consume_cases {n : Nat} {s t : State} {r : Result} (h : consume n s r = .next t) :
    (s.err ≠ 0 ∧ t = s)
      ∨ (s.err = 0 ∧ s.ilen.toNat < s.iptr.toNat + n ∧ t = raise .truncated s)
      ∨ (s.err = 0 ∧ s.iptr.toNat + n ≤ s.ilen.toNat ∧ r = .next t) := by
  rcases whenClear_cases h with h | ⟨he, h⟩
  · exact .inl h
  · split at h
    · cases h; exact .inr (.inl ⟨he, ‹_›, rfl⟩)
    · exact .inr (.inr ⟨he, Nat.le_of_not_lt ‹_›, h⟩)

theorem consume_of_fits {n : Nat} {s : State} (r : Result) (he : s.err = 0) (h : s.iptr.toNat + n ≤ s.ilen.toNat) :
    consume n s r = r := by
  rw [consume, whenClear_of_clear _ he, if_neg (by omega)]

/-! ### The memories -/

theorem imemRead_of_lt {s : State} {a n : Nat} (h : s.ilen.toNat < a + n) : imemRead s a n = .error .truncated :=
  if_pos h

theorem imemRead_of_le {s : State} {a n : Nat} (h : a + n ≤ s.ilen.toNat) :
    imemRead s a n = .ok (leNat (s.imemBytes a n)) := if_neg (by omega)

/-- Fields that fit are stored one after another and nothing else changes. -/
theorem writeFields_of_le (fs : List (Nat × Nat)) (a : Nat) (s : State)
    (h : a + fieldsLength fs ≤ s.build.omemSize.toNat) :
    writeFields fs a s = .ok { s with omem := Memory.store s.omem a (fs.flatMap fun f => leBytes f.1 f.2) } := by
  induction fs generalizing a s with
  | nil => rfl
  | cons f fs ih =>
    simp only [fieldsLength] at h
    have hw : omemWrite s a f.1 f.2 = .ok { s with omem := Memory.store s.omem a (leBytes f.1 f.2) } :=
      if_neg (by omega)
    have ht := ih (a + f.1) { s with omem := Memory.store s.omem a (leBytes f.1 f.2) } (by
      show a + f.1 + fieldsLength fs ≤ s.build.omemSize.toNat
      omega)
    simp only [writeFields, hw, List.flatMap_cons, Memory.store_append, leBytes_length]
    exact ht

/-- A WR command's unit is stored at OPTR and OPTR moves past it, or the unit does not fit. -/
theorem emit_eq (fs : List (Nat × Nat)) (s : State) :
    emit fs s = if s.build.omemSize.toNat < s.optr.toNat + fieldsLength fs then .error .outOverflow
      else .ok { s with
        omem := Memory.store s.omem s.optr.toNat (fs.flatMap fun f => leBytes f.1 f.2)
        optr := BitVec.ofNat 32 (s.optr.toNat + fieldsLength fs) } := by
  unfold emit
  split
  · rfl
  · rw [writeFields_of_le fs _ s (by omega)]; rfl

theorem emit_cases {fs : List (Nat × Nat)} {s t : State} (h : emit fs s = .ok t) :
    s.optr.toNat + fieldsLength fs ≤ s.build.omemSize.toNat
      ∧ t = { s with
        omem := Memory.store s.omem s.optr.toNat (fs.flatMap fun f => leBytes f.1 f.2)
        optr := BitVec.ofNat 32 (s.optr.toNat + fieldsLength fs) } := by
  rw [emit_eq] at h
  split at h
  · cases h
  · cases h; exact ⟨Nat.le_of_not_lt ‹_›, rfl⟩

theorem fieldsLength_append (fs gs : List (Nat × Nat)) :
    fieldsLength (fs ++ gs) = fieldsLength fs + fieldsLength gs := by
  induction fs with
  | nil => simp [fieldsLength]
  | cons f fs ih => simp [fieldsLength, ih, Nat.add_assoc]

theorem fieldsLength_pairs (ps : List AcPair) : fieldsLength (ps.flatMap pairFields) = 3 * ps.length := by
  induction ps with
  | nil => rfl
  | cons p ps ih =>
    rw [List.flatMap_cons, fieldsLength_append, ih]
    simp only [pairFields, fieldsLength, List.length_cons]
    omega

/-! ### The record register -/

@[simp] theorem RecordReg.pairs_length (gen : Nat) (r : RecordReg) : (r.pairs gen).length = r.n.toNat := by
  simp only [RecordReg.pairs, freePairs, List.length_append, List.length_take, List.length_map, List.length_range']
  omega

theorem RecordReg.pairs_getElem? (gen : Nat) (r : RecordReg) (p : Nat) :
    (r.pairs gen)[p]? = if p < r.n.toNat then some (r.pairAt gen p) else none := by
  by_cases hp : p < r.n.toNat
  · rw [if_pos hp, RecordReg.pairs, RecordReg.pairAt, List.getD_eq_getElem?_getD]
    by_cases hl : p < r.ac.length
    · rw [List.getElem?_append_left (by rw [List.length_take]; omega), List.getElem?_take, if_pos hp,
        List.getElem?_eq_getElem hl]
      rfl
    · rw [List.getElem?_append_right (by rw [List.length_take]; omega), List.getElem?_eq_none (l := r.ac) (by omega),
        List.length_take, Nat.min_eq_right (by omega), freePairs, List.getElem?_map, List.getElem?_range' (by omega)]
      simp only [Option.map_some, Option.getD_none, Nat.one_mul]
      congr 2
      omega
  · rw [if_neg hp, List.getElem?_eq_none (by rw [RecordReg.pairs_length]; omega)]

/-- A record register made of pairs holds those pairs. -/
theorem RecordReg.pairs_ofPairs (gen : Nat) (d : Half) (ac : List AcPair) (h : ac.length ≤ recCap) :
    (RecordReg.ofPairs d ac).pairs gen = ac := by
  have hn : (BitVec.ofNat 16 ac.length).toNat = ac.length := by
    rw [BitVec.toNat_ofNat]; unfold recCap at h; omega
  simp only [RecordReg.ofPairs, RecordReg.pairs, hn, Nat.sub_self, List.take_length]
  exact List.append_nil ac

/-- What a host write to one pair does to each pair, below the count or not. -/
theorem RecordReg.pairAt_updatePair (gen : Nat) (r : RecordReg) (p q : Nat) (f : AcPair → AcPair) :
    (r.updatePair gen p f).pairAt gen q = if q = p then f (r.pairAt gen q) else r.pairAt gen q := by
  simp only [RecordReg.updatePair, RecordReg.pairAt, freePairs, List.getD_eq_getElem?_getD, List.getElem?_modify,
    List.getElem?_append, eq_comm (a := q)]
  by_cases hq : q < r.ac.length
  · split <;> simp [hq]
  · have hn : r.ac[q]? = none := List.getElem?_eq_none (by omega)
    rw [if_neg hq, hn, List.getElem?_map]
    by_cases hl : q - r.ac.length < p + 1 - r.ac.length
    · rw [List.getElem?_range' hl]
      have : r.ac.length + (q - r.ac.length) = q := by omega
      split <;> simp [this]
    · rw [List.getElem?_eq_none (by simpa using hl)]
      have : ¬p = q := by omega
      simp [this]

/-! ### Units and the cursor -/

theorem advance_iptr_toNat (n : Nat) (s : State) (h : s.iptr.toNat + n < 2 ^ 32) :
    (advance n s).iptr.toNat = s.iptr.toNat + n := by
  rw [advance_iptr, BitVec.toNat_add, BitVec.toNat_ofNat]; omega

end Machine

end Sys2Proof
end

