-- ==== Sys2Proof/Laws/PerInstr.lean ====
section
/-! SUPPORT. Laws of the instructions as syntax, one lemma per constructor. -/

namespace Sys2Proof.Laws.OneByteCommand

/-- Exactly the commands take one byte (30_encoding R80, R89), and no encoding is empty. -/
def Statement (i : Instr) : Prop := (i.format = .c8 ↔ i.size = 1) ∧ encode i ≠ []

theorem nop : Statement .nop := ⟨iff_of_true rfl rfl, by decide⟩

theorem fdct : Statement .fdct := ⟨iff_of_true rfl rfl, by decide⟩

theorem idct : Statement .idct := ⟨iff_of_true rfl rfl, by decide⟩

theorem quant : Statement .quant := ⟨iff_of_true rfl rfl, by decide⟩

theorem dequant : Statement .dequant := ⟨iff_of_true rfl rfl, by decide⟩

theorem zzfwd : Statement .zzfwd := ⟨iff_of_true rfl rfl, by decide⟩

theorem zzinv : Statement .zzinv := ⟨iff_of_true rfl rfl, by decide⟩

theorem rleenc : Statement .rleenc := ⟨iff_of_true rfl rfl, by decide⟩

theorem rledec : Statement .rledec := ⟨iff_of_true rfl rfl, by decide⟩

theorem encblk : Statement .encblk := ⟨iff_of_true rfl rfl, by decide⟩

theorem decblk : Statement .decblk := ⟨iff_of_true rfl rfl, by decide⟩

theorem wrhdr : Statement .wrhdr := ⟨iff_of_true rfl rfl, by decide⟩

theorem wrchn : Statement .wrchn := ⟨iff_of_true rfl rfl, by decide⟩

theorem wrrec : Statement .wrrec := ⟨iff_of_true rfl rfl, by decide⟩

theorem rdhdr : Statement .rdhdr := ⟨iff_of_true rfl rfl, by decide⟩

theorem rdchn : Statement .rdchn := ⟨iff_of_true rfl rfl, by decide⟩

theorem rdrec : Statement .rdrec := ⟨iff_of_true rfl rfl, by decide⟩

theorem clrerr : Statement .clrerr := ⟨iff_of_true rfl rfl, by decide⟩

theorem srst : Statement .srst := ⟨iff_of_true rfl rfl, by decide⟩

theorem hdr (height width channels : Word) : Statement (.hdr height width channels) :=
  ⟨iff_of_false (by simp [Instr.format]) (by simp [Instr.size]), by simp [encode, magicBytes]⟩

theorem chn (blocks : Word) : Statement (.chn blocks) :=
  ⟨iff_of_false (by simp [Instr.format]) (by simp [Instr.size]), by simp [encode, leBytes]⟩

theorem record (dc : Half) (ac : List AcPair) : Statement (.record dc ac) :=
  ⟨iff_of_false (by simp [Instr.format]) (by simp only [Instr.size]; omega), by simp [encode, leBytes]⟩

theorem pair (run : Byte) (val : Half) : Statement (.pair run val) :=
  ⟨iff_of_false (by simp [Instr.format]) (by simp [Instr.size]), by simp [encode, encodePair]⟩

end Sys2Proof.Laws.OneByteCommand
end

