-- ==== Sys2Proof/Tests/Slice0.lean ====
section
/-! SUPPORT. The model's own tests: the expected results are the worked examples of the command rules and the vectors of
95_test_vectors (named V.. and S.. below), and, for every obligation with hypotheses, a witness that meets them. -/

namespace Sys2Proof.Tests

open Sys2Proof.Machine

/-! ### Helpers -/

/-- A block built with the reference NUMERICS, two memories of 64 bytes and a table of 16s; nothing is unspecified. -/
def blank : State where
  xb := Vector.replicate 64 XReal.zero
  cb := Vector.replicate 64 XReal.zero
  qb := Vector.replicate 64 0
  zb := Vector.replicate 64 0
  record := ⟨0, 0, []⟩
  qt := Vector.replicate 64 (XReal.ofInt 16)
  zz := zigzagTable
  status := 0
  height := 0
  width := 0
  nchan := 0
  blkcnt := 0
  ilen := 0
  iptr := 0
  optr := 0
  imem := []
  omem := []
  build := ⟨.exact, 64, 64⟩
  gen := 0
  queue := []
  seen := []

/-- `TRUNCATED` is pending. -/
def pending : State := { blank with status := 2 }

/-- IMEM holds these bytes from address 0 up and ILEN covers them. -/
def loaded (bs : List Byte) : State :=
  { blank with imem := Memory.store [] 0 bs, ilen := BitVec.ofNat 32 bs.length }

/-- The result is a next state with this property. -/
def after (r : Result) (p : State → Bool) : Bool :=
  match r with
  | .next t => p t
  | _ => false

/-- The values of a block or sequence that are not zero, by index. -/
def nonzero (v : IntBlock) : List (Nat × Half) :=
  ((List.range 64).zip v.toList).filter fun x => decide (x.2 ≠ 0)

/-- A constant spatial block. -/
def flat (c : Int) : RealBlock := Vector.replicate 64 (XReal.ofInt c)

/-- The 16 bytes of V70. -/
def headerBytes : List Byte :=
  [0x4A, 0x51, 0x5A, 0x31, 0x0A, 0, 0, 0, 8, 0, 0, 0, 3, 0, 0, 0]

/-- The image of Frame 2 (95_test_vectors 2.7). -/
def frame2 : CompressedImage :=
  ⟨[[⟨5, [⟨0, 5⟩, ⟨1, BitVec.ofInt 16 (-2)⟩]⟩], [⟨5, []⟩], [⟨5, []⟩]], 8, 8, 3⟩

/-- The 46 bytes of Frame 2. -/
def frame2Bytes : List Byte :=
  [0x4A, 0x51, 0x5A, 0x31, 0x08, 0x00, 0x00, 0x00, 0x08, 0x00, 0x00, 0x00, 0x03, 0x00, 0x00, 0x00,
   0x01, 0x00, 0x00, 0x00, 0x05, 0x00, 0x02, 0x00, 0x00, 0x05, 0x00, 0x01, 0xFE, 0xFF, 0x01, 0x00,
   0x00, 0x00, 0x05, 0x00, 0x00, 0x00, 0x01, 0x00, 0x00, 0x00, 0x05, 0x00, 0x00, 0x00]

theorem blank_tablePositive : blank.tablePositive := fun k => by
  simp [blank, Numerics.entry]

theorem blank_orderBijective : blank.orderBijective := by
  unfold State.orderBijective
  decide +kernel

/-! ### Well-formedness and encodings -/

/-- The one check of WellFormed: a record of 65536 pairs is refused, one of 65535 is not. -/
theorem test_wf_refuses_long_record :
    (Instr.record 0 (List.replicate 65536 ⟨0, 0⟩)).wf = false
      ∧ (Instr.record 0 (List.replicate 65535 ⟨0, 0⟩)).wf = true := by
  simp only [Instr.wf, List.length_replicate, recCap]
  decide

/-- 30_encoding R82, block operations. -/
theorem test_decode_block_commands :
    decodeTableWord 8 0b00000000 = some .nop ∧ decodeTableWord 8 0b00000001 = some .fdct
      ∧ decodeTableWord 8 0b00000010 = some .idct ∧ decodeTableWord 8 0b00000011 = some .quant
      ∧ decodeTableWord 8 0b00000100 = some .dequant ∧ decodeTableWord 8 0b00000101 = some .zzfwd
      ∧ decodeTableWord 8 0b00000110 = some .zzinv ∧ decodeTableWord 8 0b00000111 = some .rleenc
      ∧ decodeTableWord 8 0b00001000 = some .rledec ∧ decodeTableWord 8 0b00001001 = some .encblk
      ∧ decodeTableWord 8 0b00001010 = some .decblk := by decide

/-- 30_encoding R82, serializer, deserializer and system commands. -/
theorem test_decode_other_commands :
    decodeTableWord 8 0b00010000 = some .wrhdr ∧ decodeTableWord 8 0b00010001 = some .wrchn
      ∧ decodeTableWord 8 0b00010010 = some .wrrec ∧ decodeTableWord 8 0b00011000 = some .rdhdr
      ∧ decodeTableWord 8 0b00011001 = some .rdchn ∧ decodeTableWord 8 0b00011010 = some .rdrec
      ∧ decodeTableWord 8 0b00011110 = some .clrerr ∧ decodeTableWord 8 0b00011111 = some .srst := by decide

/-- 30_encoding R83: the 237 illegal words, counted. -/
theorem test_illegal_words :
    ((List.range 256).filter fun c => (decodeCommand (BitVec.ofNat 8 c)).isNone).length = 237
      ∧ decodeTableWord 8 0x0B = none ∧ decodeTableWord 8 0x1D = none ∧ decodeTableWord 8 0xFF = none := by
  decide +kernel

/-- 30_encoding R85 to R87: units as table words, the first byte in the low bits. -/
theorem test_decode_units :
    decodeTableWord 128 0x00000003_FFFFFFFF_01020304_315A514A = some (.hdr 0x01020304 0xFFFFFFFF 3)
      ∧ decodeTableWord 32 0x00000004 = some (.chn 4)
      ∧ decodeTableWord 56 0xFFFD02_0001_FFE6 = some (.record (BitVec.ofInt 16 (-26)) [⟨2, BitVec.ofInt 16 (-3)⟩])
      ∧ decodeTableWord 24 0x8000FF = some (.pair 255 (BitVec.ofInt 16 (-32768)))
      ∧ decodeTableWord 128 0x00000003_FFFFFFFF_01020304_305A514A = none := by decide

/-- 30_encoding R88: the byte pairs it lists. -/
theorem test_signed_fields :
    [-1, -26, -32768, 32767, 5].map (fun x => leBytes 2 (BitVec.ofInt 16 x).toNat)
      = [[0xFF, 0xFF], [0xE6, 0xFF], [0x00, 0x80], [0xFF, 0x7F], [0x05, 0x00]] := by decide

/-- 45_container R165, R239: which fault of a header is found first (V91, V93, V94). -/
theorem test_decode_hdr_order :
    decode .hdr [0, 0, 0] = .error .truncated ∧ decode .hdr [0x4A, 0x51, 0x5A, 0x30] = .error .badMagic
      ∧ decode .hdr [0x4A, 0x51, 0x5A, 0x31] = .error .truncated := ⟨rfl, rfl, rfl⟩

/-- The unit that withFetchWord places is the one the next step runs. -/
theorem test_fetch_word :
    after (step (blank.withFetchWord 128 0x00000003_FFFFFFFF_01020304_315A514A))
        (fun t => t.height == 0x01020304 && t.width == 0xFFFFFFFF && t.nchan == 3 && t.iptr == 16) = true
      ∧ after (step (blank.withFetchWord 24 0xFFFD02))
        (fun t => t.record.pairs 0 == [⟨2, BitVec.ofInt 16 (-3)⟩] && t.record.dc == 0) = true
      ∧ after (step (blank.withFetchWord 8 0x0B)) (fun t => t.err == 3) = true := by decide

/-! ### System commands -/

/-- V9H. -/
theorem test_nop : exec .nop pending = .next pending := rfl

/-- V9I. -/
theorem test_clrerr : exec .clrerr { pending with iptr := 20 } = .next { blank with iptr := 20 } := rfl

/-- V9K. -/
theorem test_srst :
    after (exec .srst { blank with status := 4, height := 9, optr := 16 })
      (fun t => t.status == 0 && t.height == 0 && t.optr == 0 && t.record == ⟨0, 0, []⟩ && t.omem == []) = true := by
  decide

/-- V9D, V9F. -/
theorem test_illegal_word :
    after (issue 0x0B blank) (fun t => t.status == 3) = true
      ∧ after (issue 0x0B pending) (fun t => t.status == 2) = true := by decide

/-- V9G. -/
theorem test_refused : exec .fdct pending = .next pending := rfl

/-! ### Transform -/

/-- V11. -/
theorem test_fdct_constant :
    (fdctBody { blank with xb := flat (-128) }).cb[0] = XReal.ofInt (-1024)
      ∧ (fdctBody { blank with xb := flat (-128) }).cb[1] = XReal.zero
      ∧ (fdctBody { blank with xb := flat (-128) }).cb[63] = XReal.zero := by
  simp only [fdctBody, Numerics.fdct, fdctExact, transform2, blockOfList, Vector.getElem_ofFn, blank]
  decide +kernel

/-- V14: an impulse gives `CB[1][1] = g1²`, `g1` being `cos(π/16)/2`. -/
theorem test_fdct_impulse :
    (fdctBody { blank with xb := (flat 0).set 0 (XReal.ofInt 1) }).cb[9]
        = XReal.mul (.alg ⟨0, 1 / 4, 0, 0, 0, 0, 0, 0⟩) (.alg ⟨0, 1 / 4, 0, 0, 0, 0, 0, 0⟩) := by
  simp only [fdctBody, Numerics.fdct, fdctExact, transform2, blockOfList, Vector.getElem_ofFn, blank]
  decide +kernel

/-- V17. -/
theorem test_idct_constant :
    (idctBody { blank with cb := (flat 0).set 0 (XReal.ofInt 8) }).xb[0] = XReal.ofInt 1
      ∧ (idctBody { blank with cb := (flat 0).set 0 (XReal.ofInt 8) }).xb[42] = XReal.ofInt 1 := by
  simp only [idctBody, Numerics.idct, idctExact, transform2, blockOfList, Vector.getElem_ofFn, blank]
  decide +kernel

/-- V19, P2: the coefficient (0, 1) is horizontal, `XB[0][0] − XB[0][1]` changes with it and `XB[0][0] − XB[1][0]` does
not. -/
theorem test_idct_direction :
    let x := (idctBody { blank with cb := (flat 0).set 1 (XReal.ofInt 55) }).xb
    x[0] = x[8] ∧ x[0] ≠ x[1] := by
  simp only [idctBody, Numerics.idct, idctExact, transform2, blockOfList, Vector.getElem_ofFn, blank]
  decide +kernel

/-! ### Quantization -/

/-- V20 to V27: ties go to the even integer. -/
theorem test_quant_ties :
    ([0, 8, 24, 40, -8, -24, -40, 80001 / 10000].map fun x : ℚ =>
        (quantizeLane .exact (XReal.ofRat x) (XReal.ofInt 16)).toInt) = [0, 0, 2, 2, 0, -2, -2, 1] := by
  decide +kernel

/-- V28 to V2D: saturation. -/
theorem test_quant_saturates :
    ([-3323 / 8, 640000, -640000, 524280, -524296, -1024].map fun x : ℚ =>
        (quantizeLane .exact (XReal.ofRat x) (XReal.ofInt 16)).toInt) = [-26, 32767, -32768, 32767, -32768, -64] := by
  decide +kernel

/-- V2E, V2G: the products. -/
theorem test_dequant :
    dequantizeLane .exact (BitVec.ofInt 16 (-26)) (XReal.ofInt 16) = XReal.ofInt (-416)
      ∧ dequantizeLane .exact (BitVec.ofInt 16 (-32768)) (XReal.ofInt 99) = XReal.ofInt (-3244032) := by
  decide +kernel

/-- V2G: a lane of DEQUANT meets its own table entry. -/
theorem test_dequant_lane :
    (dequantBody { blank with
      qb := (Vector.replicate 64 0).set 63 (BitVec.ofInt 16 (-32768))
      qt := quantTable Config.qtBase Config.qScale }).cb[63] = XReal.ofInt (-3244032) := by
  simp only [dequantBody, Vector.getElem_zipWith]
  decide +kernel

/-- 10_state R22, R27: an entry may be any real number; 3 times it, and the number itself back (41_quantization R124,
R127). -/
theorem test_named_real (h : 0 < (XReal.named 7).toReal) :
    (dequantizeLane .exact 3 (.named 7)).toReal = 3 * Config.reals.named 7
      ∧ quantizeLane .exact (dequantizeLane .exact 3 (.named 7)) (.named 7) = 3 := by
  have hq : (dequantizeLane .exact 3 (.named 7)).toReal = 3 * Config.reals.named 7 := by
    simp [dequantizeLane, Numerics.qmul]
  refine ⟨hq, ?_⟩
  have h3 := XReal.roundQuot_spec (dequantizeLane .exact 3 (.named 7)) (.named 7) h.ne'
  rw [hq, XReal.toReal_named, mul_div_cancel_right₀ _ (by simpa using h.ne')] at h3
  rw [quantizeLane, Numerics.qdiv, h3.unique (by exact_mod_cast IsRoundHe.intCast 3)]
  decide

/-! ### Zigzag -/

/-- V30. -/
theorem test_zzfwd :
    after (exec .zzfwd { blank with qb := Vector.ofFn (fun k => BitVec.ofNat 16 k.val) }) (fun t =>
      t.zb.toList.map BitVec.toNat == [0, 1, 8, 16, 9, 2, 3, 10, 17, 24, 32, 25, 18, 11, 4, 5, 12, 19, 26, 33, 40, 48,
        41, 34, 27, 20, 13, 6, 7, 14, 21, 28, 35, 42, 49, 56, 57, 50, 43, 36, 29, 22, 15, 23, 30, 37, 44, 51, 58, 59,
        52, 45, 38, 31, 39, 46, 53, 60, 61, 54, 47, 55, 62, 63]) = true := by decide +kernel

/-- V31, first and last row. -/
theorem test_zzinv :
    after (exec .zzinv { blank with zb := Vector.ofFn (fun k => BitVec.ofNat 16 k.val) }) (fun t =>
      (t.qb.toList.take 8).map BitVec.toNat == [0, 1, 5, 6, 14, 15, 27, 28]
        && (t.qb.toList.drop 56).map BitVec.toNat == [35, 36, 48, 49, 57, 58, 62, 63]) = true := by decide +kernel

/-! ### Run-length codec -/

/-- V52b. -/
theorem test_rleenc :
    after (exec .rleenc { blank with zb := (((Vector.replicate 64 0).set 0 5).set 3 3).set 4 (BitVec.ofInt 16 (-2)) })
      (fun t => t.record == ⟨5, 2, [⟨2, 3⟩, ⟨0, BitVec.ofInt 16 (-2)⟩]⟩) = true := by decide +kernel

/-- V52, the largest run. -/
theorem test_rleenc_last :
    after (exec .rleenc { blank with zb := (Vector.replicate 64 0).set 63 (BitVec.ofInt 16 (-1)) })
      (fun t => t.record == ⟨0, 1, [⟨62, BitVec.ofInt 16 (-1)⟩]⟩) = true := by decide +kernel

/-- V56, V55: over-long data and the marker end the walk. -/
theorem test_rledec_truncates :
    after (exec .rledec { blank with record := ⟨3, 3, [⟨61, 4⟩, ⟨0, 5⟩, ⟨0, 6⟩]⟩ })
        (fun t => nonzero t.zb == [(0, 3), (62, 4), (63, 5)]) = true
      ∧ after (exec .rledec { blank with record := ⟨1, 3, [⟨0, 2⟩, ⟨255, 0⟩, ⟨0, 7⟩]⟩ })
        (fun t => nonzero t.zb == [(0, 1), (1, 2)]) = true := by decide +kernel

/-- V57, V5A: a zero-valued pair moves the cursor, and the old sequence does not show through. -/
theorem test_rledec_fills :
    after (exec .rledec { blank with record := ⟨0, 2, [⟨2, 0⟩, ⟨0, 8⟩]⟩ }) (fun t => nonzero t.zb == [(4, 8)]) = true
      ∧ after (exec .rledec { blank with zb := Vector.replicate 64 77, record := ⟨9, 1, [⟨0, 6⟩]⟩ })
        (fun t => nonzero t.zb == [(0, 9), (1, 6)]) = true := by decide +kernel

/-! ### Fused pipelines -/

/-- V61: `REC.dc` after ENCBLK on XB all −128. -/
theorem test_encblk :
    (rleencBody (zzfwdBody (quantBody (fdctBody { blank with xb := flat (-128) })))).record.dc
      = BitVec.ofInt 16 (-64) := by
  decide +kernel

/-- V65, V67: the bodies of DECBLK before IDCT, on a record without pairs. -/
theorem test_decblk :
    after (.next (zzinvBody (rledecBody { blank with record := ⟨BitVec.ofInt 16 (-64), 0, []⟩ })))
        (fun t => nonzero t.zb == [(0, BitVec.ofInt 16 (-64))] && nonzero t.qb == [(0, BitVec.ofInt 16 (-64))]) = true := by
  decide +kernel

/-! ### Container commands -/

/-- V71. -/
theorem test_wrhdr :
    after (exec .wrhdr { blank with height := 0x01020304, width := 0xFFFFFFFF }) (fun t => t.optr == 16
      && t.omemBytes 0 16 == [0x4A, 0x51, 0x5A, 0x31, 4, 3, 2, 1, 0xFF, 0xFF, 0xFF, 0xFF, 3, 0, 0, 0]) = true := by
  decide

/-- V72, V9C: the block count, and an overflow that writes nothing. -/
theorem test_wrchn :
    after (exec .wrchn { blank with blkcnt := 4, optr := 16 })
        (fun t => t.optr == 20 && t.omem == [(16, 4), (17, 0), (18, 0), (19, 0)]) = true
      ∧ after (exec .wrchn { blank with optr := 61 }) (fun t => t.err == 4 && t.optr == 61 && t.omem == []) = true := by
  decide

/-- V73, V74. -/
theorem test_wrrec :
    after (exec .wrrec { blank with record := ⟨5, 2, [⟨0, 5⟩, ⟨1, BitVec.ofInt 16 (-2)⟩]⟩, optr := 20 })
        (fun t => t.optr == 30 && t.omemBytes 20 10 == [5, 0, 2, 0, 0, 5, 0, 1, 0xFE, 0xFF]) = true
      ∧ after (exec .wrrec { blank with record := ⟨BitVec.ofInt 16 (-32768), 1, [⟨255, 32767⟩]⟩ })
        (fun t => t.optr == 7 && t.omemBytes 0 7 == [0, 0x80, 1, 0, 0xFF, 0xFF, 0x7F]) = true := by decide

/-- V76, V9B: a header, and a cursor that must not wrap. -/
theorem test_rdhdr :
    after (exec .rdhdr (loaded headerBytes))
        (fun t => t.height == 10 && t.width == 8 && t.nchan == 3 && t.iptr == 16 && t.err == 0) = true
      ∧ after (exec .rdhdr { loaded headerBytes with iptr := 0xFFFFFFFE })
        (fun t => t.err == 2 && t.iptr == 0xFFFFFFFE) = true := by decide

/-- V91, V93, V95: the order of the tests. -/
theorem test_rdhdr_fails :
    after (exec .rdhdr (loaded [0, 0, 0])) (fun t => t.err == 2) = true
      ∧ after (exec .rdhdr (loaded [0x4A, 0x51, 0x5A, 0x30])) (fun t => t.err == 1 && t.iptr == 0) = true
      ∧ after (exec .rdhdr (loaded (frame2Bytes.take 15))) (fun t => t.err == 2 && t.height == 0) = true := by decide

/-- V78, V97. -/
theorem test_rdchn :
    after (exec .rdchn { loaded (headerBytes ++ [4, 0, 0, 0]) with iptr := 16 })
        (fun t => t.blkcnt == 4 && t.iptr == 20) = true
      ∧ after (exec .rdchn { loaded (headerBytes ++ [4, 0, 0]) with iptr := 16 })
        (fun t => t.err == 2 && t.blkcnt == 0 && t.iptr == 16) = true := by decide

/-- V79, V98: a record, and one cut after the low byte of its last value. -/
theorem test_rdrec :
    after (exec .rdrec (loaded [0xE6, 0xFF, 1, 0, 2, 0xFD, 0xFF])) (fun t => t.iptr == 7
        && t.record == ⟨BitVec.ofInt 16 (-26), 1, [⟨2, BitVec.ofInt 16 (-3)⟩]⟩) = true
      ∧ after (exec .rdrec { loaded (frame2Bytes.take 29) with iptr := 20 })
        (fun t => t.err == 2 && t.iptr == 20 && t.record == ⟨0, 0, []⟩) = true := by decide

/-- 45_container R165 to R167, per unit: the valid bytes end with the unit, and one byte earlier. -/
theorem test_units :
    after (exec (.hdr 10 8 3) (loaded headerBytes)) (fun t => t.height == 10 && t.iptr == 16) = true
      ∧ after (exec (.chn 4) { blank with ilen := 4 }) (fun t => t.blkcnt == 4 && t.iptr == 4) = true
      ∧ after (exec (.chn 4) { blank with ilen := 3 }) (fun t => t.err == 2 && t.blkcnt == 0) = true
      ∧ after (exec (.record 5 [⟨0, 5⟩]) { blank with ilen := 7 })
        (fun t => t.record == ⟨5, 1, [⟨0, 5⟩]⟩ && t.iptr == 7) = true
      ∧ after (exec (.pair 1 9) { blank with ilen := 3, record := ⟨5, 1, [⟨0, 5⟩]⟩ })
        (fun t => t.record == ⟨5, 2, [⟨0, 5⟩, ⟨1, 9⟩]⟩ && t.iptr == 3) = true := by decide

/-! ### Whole containers and the host -/

/-- Frame 2. -/
theorem test_serialize : serialize frame2 = some frame2Bytes := by decide

/-- 47_host_procedures R213: Frame 2 through an OMEM of 16 bytes. -/
theorem test_serialize_in_pieces :
    serializeInPieces { blank with build := ⟨.exact, 64, 16⟩ } frame2 = some frame2Bytes := by decide +kernel

/-- Frame 2, and the same with a byte missing. -/
theorem test_parse :
    (parse frame2Bytes).toOption = some frame2 ∧ (parse (frame2Bytes.take 45)).toOption = none := by decide +kernel

/-- 45_container R160: an image of four channels and one taller than its field are outside the domain. -/
theorem test_serialize_domain :
    serialize ⟨[[], [], [], []], 8, 8, 3⟩ = none ∧ serialize ⟨[[], [], []], 2 ^ 32, 8, 3⟩ = none := by decide

/-- V91, 47_host_procedures R214: PARSE of 3 bytes reports `TRUNCATED` and issues CLRERR; Frame 2 parses. -/
theorem test_parse_on_block :
    (parseOnBlock (loaded [0x4A, 0x51, 0x5A])).2.err = 0
      ∧ (match (parseOnBlock (loaded [0x4A, 0x51, 0x5A])).1 with | .error e => e == 2 | .ok _ => false) = true
      ∧ (parseOnBlock (loaded frame2Bytes)).1.toOption = some frame2 := by decide +kernel

/-- 10_state R26: of a record of 65536 pairs 65535 are loaded. -/
theorem test_long_record :
    (recordActions ⟨0, List.replicate 65536 ⟨0, 9⟩⟩)[1]? = some (.writeRecN 65535) := by
  change some (HostAction.writeRecN (BitVec.ofNat 16 (min (List.replicate 65536 (⟨0, 9⟩ : AcPair)).length recCap))) = _
  rw [List.length_replicate]
  rfl

/-- V9N; R30, R37: ILEN is capped, STATUS is read-only, and CMD reads 0. -/
theorem test_host_writes :
    after (perform blank (.writeCtrl .ilen 69)) (fun t => t.ilen == 64) = true
      ∧ after (perform pending (.writeCtrl .status 0)) (fun t => t.err == 2) = true
      ∧ after (perform pending (.read .cmd)) (fun t => t.seen == [.word 0]) = true := by decide

/-- V80: rows 0 and 7 of the block of a 3 by 2 raster. -/
theorem test_tile :
    let b := tileBlock ⟨3, 2, [10, 0, 0, 20, 0, 0, 30, 0, 0, 40, 0, 0, 50, 0, 0, 60, 0, 0]⟩ 0 (0, 0)
    b[0] = XReal.ofInt (-118) ∧ b[1] = XReal.ofInt (-108) ∧ b[7] = XReal.ofInt (-108)
      ∧ b[56] = XReal.ofInt (-78) ∧ b[63] = XReal.ofInt (-68) := by
  simp only [tileBlock, Vector.getElem_ofFn]
  decide +kernel

/-- V87. -/
theorem test_to_sample :
    toSample .truncate (XReal.ofRat (-401 / 2)) = 0 ∧ toSample .truncate (XReal.ofRat (21 / 2)) = 138
      ∧ toSample .roundHalfEven (XReal.ofRat (21 / 2)) = 138 ∧ toSample .truncate (XReal.ofInt 200) = 255 := by
  decide +kernel

/-- V82, V84: the tiles of a 10 by 10 raster in order, and `2N + 128` for three records without pairs. -/
theorem test_tiles_and_estimate :
    tileGrid 10 10 = [(0, 0), (0, 1), (1, 0), (1, 1)]
      ∧ estimatedBytes ⟨[[⟨5, []⟩], [⟨5, []⟩], [⟨5, []⟩]], 8, 8, 3⟩ = 134 := by decide

/-! ### Witnesses: a concrete case of every obligation's hypotheses, at the boundary where there is one -/

/-- The state with this action next. -/
def acting (a : HostAction) : State := { blank with queue := [a] }

theorem blank_inv : blank.Inv where
  status := by decide
  ilen := by decide
  imemForm := List.Pairwise.nil
  omemForm := List.Pairwise.nil
  imemRange := by simp [blank]
  omemRange := by simp [blank]
  table := blank_tablePositive
  order := blank_orderBijective

theorem witness_DecodeOfEncode :
    (Instr.record 0 (List.replicate 65535 ⟨255, 0⟩)).wf = true ∧ Instr.srst.wf = true
      ∧ (Instr.hdr 0 0xFFFFFFFF 7).wf = true := by
  refine ⟨?_, rfl, rfl⟩
  simp only [Instr.wf, List.length_replicate, recCap]
  decide

theorem witness_EncodeOfDecode :
    decode .record [5, 0, 1, 0, 2, 0xFD, 0xFF, 9] = .ok (.record 5 [⟨2, 0xFFFD#16⟩], [9])
      ∧ decode .c8 [0x1F] = .ok (.srst, []) := ⟨rfl, rfl⟩

theorem witness_StepRunsTheCommand :
    (acting (.command 0x05)).queue = .command 0x05 :: [] ∧ decodeCommand 0x05 = some .zzfwd := ⟨rfl, rfl⟩

theorem witness_IllegalWordSetsIllegalCmd : ∀ c ∈ [0x0B#8, 0x0F#8, 0x13#8, 0x17#8, 0x1B#8, 0x1D#8, 0x20#8, 0xFF#8],
    (acting (.command c)).queue = .command c :: [] ∧
      (c.toNat ∈ [0x0B, 0x0C, 0x0D, 0x0E, 0x0F, 0x13, 0x14, 0x15, 0x16, 0x17, 0x1B, 0x1C, 0x1D] ∨ 0x20 ≤ c.toNat) := by
  intro c hc
  exact ⟨rfl, by revert c hc; decide⟩

theorem witness_RdRunsTheDecodedUnit :
    decode .hdr ((loaded headerBytes).imemBytes 0 16) = .ok (.hdr 10 8 3, [])
      ∧ decode .chn ((loaded headerBytes).imemBytes 0 16) = .ok (.chn 0x315A514A, headerBytes.drop 4)
      ∧ decode .record ((loaded [5, 0, 0, 0]).imemBytes 0 4) = .ok (.record 5 [], []) := ⟨rfl, rfl, rfl⟩

theorem witness_OnlyHostAccessesStop :
    step (acting (.read (.imem 64))) = .fault (.absentAddress 64)
      ∧ step (acting (.writeImem 64 0)) = .fault (.absentAddress 64)
      ∧ step (acting (.read (.omem 64))) = .fault (.absentAddress 64)
      ∧ step (acting (.writeOmem 64 0)) = .fault (.absentAddress 64)
      ∧ step (acting (.read (.recRun 0))) = .refused (.absentPair 0)
      ∧ step (acting (.read (.recVal 0))) = .refused (.absentPair 0) := ⟨rfl, rfl, rfl, rfl, rfl, rfl⟩

theorem witness_CommandsNeverStop : Instr.nop.format = .c8 ∧ Instr.srst.format = .c8 := ⟨rfl, rfl⟩

theorem witness_ClrerrClearsTheCode : blank.err = 0 := by decide

theorem witness_RefusedWhilePending :
    Instr.fdct.format = .c8 ∧ pending.err ≠ 0 ∧ Instr.fdct ≠ .nop ∧ Instr.fdct ≠ .clrerr ∧ Instr.fdct ≠ .srst := by
  decide

theorem witness_FirstErrorIsKept :
    blank.err = 0 ∧ pending.err ≠ 0
      ∧ step { pending with queue := [.command 0x0B] } = .next pending
      ∧ HostAction.command 0x0B ≠ .command 0x1E#8 ∧ HostAction.command 0x0B ≠ .command 0x1F#8
      ∧ HostAction.command 0x0B ≠ .reset := by
  refine ⟨by decide, by decide, rfl, ?_, ?_, ?_⟩ <;> simp

theorem witness_FailuresArePrecise :
    step (acting (.command 0x18)) = .next pending ∧ (acting (.command 0x18)).err = 0 ∧ pending.err ≠ 0 := by
  exact ⟨rfl, by decide, by decide⟩

/-- One case for each code an instruction can leave: none, BAD_MAGIC, TRUNCATED, OUT_OVERFLOW. -/
theorem witness_ErrorCauses :
    exec .nop blank = .next blank ∧ blank.err = 0
      ∧ after (exec .rdhdr (loaded [0, 0, 0, 0])) (fun t => t.err == 1) = true
      ∧ after (exec .rdchn blank) (fun t => t.err == 2) = true
      ∧ after (exec (.pair 0 0) blank) (fun t => t.err == 2) = true
      ∧ after (exec .wrhdr { blank with optr := 49 }) (fun t => t.err == 4) = true := by
  refine ⟨rfl, ?_⟩; decide

/-- NOP meets every clause's condition at once. -/
theorem witness_OnlyTheNamedWritersWrite :
    exec .nop blank = .next blank ∧ Instr.nop ≠ .srst ∧ Instr.nop.format = .c8
      ∧ Instr.nop ∉ [Instr.idct, .fdct, .dequant, .quant, .zzinv, .zzfwd, .rledec, .encblk, .decblk, .rleenc, .rdrec,
        .rdhdr, .rdchn, .wrhdr, .wrchn, .wrrec, .clrerr] := by
  refine ⟨rfl, ?_⟩; decide

theorem witness_ConstantsNeverChange :
    (∃ t, step (acting (.command 0x1F)) = .next t) ∧ (∃ t, step (acting .reset) = .next t)
      ∧ ∃ t, step (acting (.writeQt 0 XReal.zero)) = .next t := ⟨⟨_, rfl⟩, ⟨_, rfl⟩, ⟨_, rfl⟩⟩

theorem witness_StepKeepsTheInvariant :
    (acting (.writeImem 63 7)).Inv
      ∧ step (acting (.writeImem 63 7)) = .next { blank with imem := [(63, 7)] } :=
  ⟨⟨blank_inv.1, blank_inv.2, blank_inv.3, blank_inv.4, blank_inv.5, blank_inv.6, blank_inv.7, blank_inv.8⟩, rfl⟩

/-- Serves every statement that asks for no pending error, the reference NUMERICS, a positive table and a bijective
order, in any combination: FdctIsTheCosineTransform, IdctIsTheInverseSum, TransformsUndoEachOther,
BlockCommandsApplyNumerics, QuantRoundsTheQuotient, DequantIsTheProduct, ZigzagCommandsReindex, ZigzagRoundTrips,
BlockCodecRoundTrips. -/
theorem witness_block_commands :
    blank.err = 0 ∧ blank.build.numerics = .exact ∧ blank.tablePositive ∧ blank.orderBijective
      ∧ blank.qb = Vector.replicate 64 0 := ⟨by decide, rfl, blank_tablePositive, blank_orderBijective, rfl⟩

/-- A tie: one half is as near to 0 as to 1. -/
theorem witness_RoundHalfToEven :
    |(XReal.ofRat (1 / 2)).toReal - ((XReal.ofRat (1 / 2)).roundHe : ℝ)| = 1 / 2 := by
  have h : (XReal.ofRat (1 / 2)).roundHe = 0 := by decide +kernel
  rw [h, XReal.toReal_ofRat]
  norm_num

theorem witness_QuantUndoesDequant :
    blank.err = 0 ∧ blank.tablePositive
      ∧ blank.build.numerics.qdiv (blank.build.numerics.qmul blank.qb[(63 : Fin 64)] blank.qt[(63 : Fin 64)])
        blank.qt[(63 : Fin 64)] = (blank.qb[(63 : Fin 64)]).toInt := by
  refine ⟨by decide, blank_tablePositive, ?_⟩
  simp only [blank, Fin.getElem_fin, Vector.getElem_replicate]
  decide +kernel

/-- Both clauses with a nonzero value at position 63 (V52). -/
theorem witness_RleencMakesTheRecord :
    blank.err = 0 ∧ 0 < (63 : Fin 64).val
      ∧ ((Vector.replicate 64 0 : IntBlock).set 63 (BitVec.ofInt 16 (-1)))[(63 : Fin 64)] ≠ 0 := by
  decide +kernel

/-- Position 63 with a pair there (V53) and position 63 without one. -/
theorem witness_RledecPlacesThePairs :
    blank.err = 0 ∧ 0 < (63 : Fin 64).val
      ∧ pairPosition (RecordReg.pairs 0 ⟨3, 1, [⟨62, 9⟩]⟩) 0 = 63
      ∧ pairPosition (RecordReg.pairs 0 ⟨3, 1, [⟨63, 9⟩]⟩) 0 = 64 := by decide

theorem witness_EncodedRecordIsStable :
    ∃ a b c, blank.err = 0 ∧ blank.build.numerics = .exact ∧ blank.tablePositive ∧ blank.orderBijective
      ∧ exec .encblk blank = .next a ∧ exec .decblk a = .next b ∧ exec .encblk b = .next c := by
  have h : ∀ (s : State) (r : Result), s.status = blank.status → whenClear s r = r := fun s r hs =>
    whenClear_of_clear r (by rw [State.err, hs]; decide)
  exact ⟨_, _, _, by decide, rfl, blank_tablePositive, blank_orderBijective, h _ _ rfl, h _ _ rfl, h _ _ rfl⟩

theorem witness_GrayRasterIsExact :
    blank.err = 0 ∧ blank.tablePositive ∧ blank.orderBijective :=
  ⟨by decide, blank_tablePositive, blank_orderBijective⟩

/-- The clauses on an all-zero block and on the empty record. -/
theorem witness_FusedCommandsAreTheirParts :
    blank.err = 0 ∧ blank.tablePositive ∧ blank.orderBijective ∧ blank.xb = Vector.replicate 64 XReal.zero
      ∧ blank.record.dc = 0 ∧ blank.record.n = 0 :=
  ⟨by decide, blank_tablePositive, blank_orderBijective, rfl, rfl, rfl⟩

/-- The last address that can be read and the first that can't. -/
theorem witness_ImemReadIsBounded :
    4 ∈ [1, 2, 4] ∧ 12 + 4 ≤ (loaded headerBytes).ilen.toNat ∧ (loaded headerBytes).ilen.toNat < 13 + 4 := by decide

/-- The last address that can be written, the first that can't, and a command that fails. -/
theorem witness_OmemWriteIsBounded :
    4 ∈ [1, 2, 4] ∧ 0xFFFFFFFF < 256 ^ 4 ∧ 60 + 4 ≤ blank.build.omemSize.toNat ∧ blank.build.omemSize.toNat < 61 + 4
      ∧ Instr.wrchn ∈ [Instr.wrhdr, .wrchn, .wrrec]
      ∧ after (exec .wrchn { blank with optr := 61 }) (fun t => decide (t.err ≠ 0)) = true := by decide

theorem witness_WrhdrWritesTheHeader :
    pending.err ≠ 0 ∧ blank.err = 0 ∧ blank.build.omemSize.toNat < (49#32).toNat + 16
      ∧ (48#32).toNat + 16 ≤ blank.build.omemSize.toNat := by decide

theorem witness_WrchnWritesTheBlockCount :
    pending.err ≠ 0 ∧ blank.err = 0 ∧ blank.build.omemSize.toNat < (61#32).toNat + 4
      ∧ (60#32).toNat + 4 ≤ blank.build.omemSize.toNat := by decide

/-- A record of two pairs, 10 bytes. -/
theorem witness_WrrecWritesTheRecord :
    pending.err ≠ 0 ∧ blank.err = 0 ∧ blank.build.omemSize.toNat < (55#32).toNat + (4 + 3 * (2#16).toNat)
      ∧ (54#32).toNat + (4 + 3 * (2#16).toNat) ≤ blank.build.omemSize.toNat := by decide

/-- 3 valid bytes; 4 with a wrong tag; 15 with the right one; 16. -/
theorem witness_RdhdrReadsTheHeader :
    pending.err ≠ 0 ∧ (loaded headerBytes).err = 0
      ∧ (loaded [0x4A, 0x51, 0x5A]).ilen.toNat < 0 + 4
      ∧ (0 + 4 ≤ (loaded [0x4A, 0x51, 0x5A, 0x30]).ilen.toNat ∧ (loaded [0x4A, 0x51, 0x5A, 0x30]).imemByte 3 ≠ 0x31#8)
      ∧ (0 + 4 ≤ (loaded (headerBytes.take 15)).ilen.toNat ∧ (loaded (headerBytes.take 15)).ilen.toNat < 0 + 16
        ∧ (loaded (headerBytes.take 15)).imemBytes 0 4 = [0x4A#8, 0x51#8, 0x5A#8, 0x31#8])
      ∧ (0 + 16 ≤ (loaded headerBytes).ilen.toNat
        ∧ (loaded headerBytes).imemBytes 0 4 = [0x4A#8, 0x51#8, 0x5A#8, 0x31#8]) := by decide

theorem witness_RdchnReadsTheBlockCount :
    pending.err ≠ 0 ∧ blank.err = 0 ∧ (loaded [4, 0, 0]).ilen.toNat < 0 + 4
      ∧ 0 + 4 ≤ (loaded [4, 0, 0, 0]).ilen.toNat := by decide

/-- One pair: 3 valid bytes, 6 and 7. -/
theorem witness_RdrecReadsTheRecord :
    pending.err ≠ 0 ∧ blank.err = 0 ∧ (loaded [5, 0, 1]).ilen.toNat < 0 + 4
      ∧ ((loaded [5, 0, 1, 0, 2, 9]).ilen.toNat < 0 + 4 + 3 * 1 ∧ (loaded [5, 0, 1, 0, 2, 9]).imemByte 2 = 1)
      ∧ (0 + 4 + 3 * 1 ≤ (loaded [5, 0, 1, 0, 2, 9, 0]).ilen.toNat
        ∧ (loaded [5, 0, 1, 0, 2, 9, 0]).imemByte 2 = 1) := by decide

/-- WRHDR, WRCHN and WRREC of a record of one pair, each copied to IMEM at the same offsets. -/
theorem witness_RdMirrorsWr :
    ∀ i ∈ [Instr.wrhdr, .wrchn, .wrrec],
      after (exec i { blank with height := 10, blkcnt := 4, record := ⟨5, 1, [⟨0, 5⟩]⟩, optr := 2 }) (fun t =>
        let u : State := { blank with imem := t.omem, ilen := t.optr, iptr := 2 }
        t.err == 0 && u.err == 0 && decide (t.optr.toNat ≤ u.ilen.toNat)
          && (List.range 64).all fun a => !(decide (2 ≤ a) && decide (a < t.optr.toNat)) || u.imemByte a == t.omemByte a)
        = true := by decide +kernel

/-- Units that end where the valid bytes end, and the last pair REC can take. -/
theorem witness_UnitsLoadTheirFields :
    blank.err = 0 ∧ (0#32).toNat + 16 ≤ (16#32).toNat ∧ (0#32).toNat + 4 ≤ (4#32).toNat
      ∧ [(⟨0, 5⟩ : AcPair)].length ≤ recCap ∧ (0#32).toNat + (4 + 3 * [(⟨0, 5⟩ : AcPair)].length) ≤ (7#32).toNat
      ∧ (65534#16).toNat < recCap ∧ (0#32).toNat + 3 ≤ (3#32).toNat := by decide

theorem witness_UnitsPastIlenAreTruncated :
    ∀ i ∈ [Instr.hdr 10 8 3, .chn 4, .record 5 [⟨0, 5⟩], .pair 0 5],
      i.format ≠ .c8 ∧ blank.err = 0 ∧ (BitVec.ofNat 32 (i.size - 1)).toNat < blank.iptr.toNat + i.size
        ∧ pending.err ≠ 0 := by decide

theorem witness_RecordIsItsPairs :
    [(⟨0, 5⟩ : AcPair), ⟨1, 9⟩].length ≤ recCap
      ∧ blank.iptr.toNat + (4 + 3 * [(⟨0, 5⟩ : AcPair), ⟨1, 9⟩].length) ≤ (loaded (headerBytes.take 10)).ilen.toNat := by
  decide

theorem witness_ParseOfSerialize :
    frame2.wf = true ∧ (parse frame2Bytes).toOption = some frame2 ∧ frame2.count = 3
      ∧ frame2Bytes.length = containerSize frame2 := by decide +kernel

theorem witness_SerializeOnTheBlock :
    frame2.wf = true ∧ blank.err = 0 ∧ containerSize frame2 ≤ blank.build.omemSize.toNat := by decide

/-- A record of ten bytes in an OMEM of 16. -/
theorem witness_SerializeInPieces :
    let s : State := { blank with build := ⟨.exact, 64, 16⟩ }
    frame2.wf = true ∧ s.err = 0 ∧ 16 ≤ s.build.omemSize.toNat
      ∧ ∀ c ∈ frame2.channels, ∀ r ∈ c, 4 + 3 * r.ac.length ≤ s.build.omemSize.toNat := by decide

theorem witness_ParseOnTheBlock : blank.err = 0 ∧ frame2Bytes.length ≤ blank.build.imemSize.toNat := by decide

/-- An image with pairs (Frame 2) and one without. -/
theorem witness_EstimateOfEmptyRecords :
    let x : CompressedImage := ⟨[[⟨5, []⟩], [⟨5, []⟩], []], 8, 8, 3⟩
    frame2.channels.length = 3 ∧ x.channels.length = 3 ∧ ∀ c ∈ x.channels, ∀ r ∈ c, r.ac = [] := by decide

theorem witness_ContainerHasItsSize :
    frame2.wf = true ∧ (⟨[[], [], []], 2 ^ 32, 8, 3⟩ : CompressedImage).wf = false := by decide

theorem witness_HostWritesKeepAccessRights : 63 < blank.build.omemSize.toNat := by decide

/-- The last pair of a record of two, the last address of each memory, and a register. -/
theorem witness_HostReadsWhatItWrote :
    1 < (2#16).toNat ∧ 63 < blank.build.imemSize.toNat ∧ 63 < blank.build.omemSize.toNat
      ∧ (Loc.ctrl .status, HostDatum.word blank.status)
        ∈ [(Loc.cmd, HostDatum.word 0), (Loc.ctrl .status, HostDatum.word blank.status)] := by decide

end Sys2Proof.Tests
end

section
/-! Rounding (00_scope R11): the integer `XReal.roundHe` computes is the one `IsRoundHe` describes, and since a number
has only one such integer, every consequence R11 lists is an instance of `IsRoundHe`. -/

namespace Sys2Proof

/-- Negation keeps both the distance to the integer and the integer's parity. -/
theorem IsRoundHe.neg {y : ℝ} {n : Int} (h : IsRoundHe y n) : IsRoundHe (-y) (-n) := by
  obtain ⟨hnear, heven⟩ := h
  have hdist : |-y - ((-n : Int) : ℝ)| = |y - n| := by
    rw [Int.cast_neg, neg_sub_neg, abs_sub_comm]
  exact ⟨hdist.trans_le hnear, fun htie => by have := heven (hdist.symm.trans htie); omega⟩

/-- On a tie the even neighbour is the rounding. -/
theorem IsRoundHe.of_tie {y : ℝ} {n : Int} (htie : |y - n| = 1 / 2) (heven : n % 2 = 0) : IsRoundHe y n :=
  ⟨htie.le, fun _ => heven⟩

/-- What `round_he` gives, for numbers computed exactly and for those with a named number in them. -/
theorem XReal.roundHe_spec (y : XReal) : IsRoundHe y.toReal y.roundHe := by
  have hquot : IsRoundHe y.toReal (y.roundQuot (XReal.ofInt 1)) := by
    simpa using y.roundQuot_spec (XReal.ofInt 1) (by simp)
  cases y with
  | alg a => exact a.roundHe_spec
  | named _ | sum _ _ | prod _ _ => exact hquot

/-- The rounding of a number is found by exhibiting it. -/
theorem XReal.roundHe_eq {y : XReal} {n : Int} (h : IsRoundHe y.toReal n) : y.roundHe = n :=
  y.roundHe_spec.unique h

theorem XReal.roundHe_zero_sub (y : XReal) : (XReal.zero.sub y).roundHe = -y.roundHe :=
  XReal.roundHe_eq (by simpa using y.roundHe_spec.neg)

theorem XReal.roundHe_ofInt (z : Int) : (XReal.ofInt z).roundHe = z :=
  XReal.roundHe_eq (by simpa using IsRoundHe.intCast z)

theorem XReal.roundHe_ofRat_of_tie {q : ℚ} {n : Int} (htie : |q - n| = 1 / 2) (heven : n % 2 = 0) :
    (XReal.ofRat q).roundHe = n := by
  have hreal : ((|q - n| : ℚ) : ℝ) = (1 / 2 : ℚ) := by rw [htie]
  push_cast at hreal
  exact XReal.roundHe_eq (by simpa using IsRoundHe.of_tie hreal heven)

/-- Settles O28: nearest and ties to even by `XReal.roundHe_spec`; the rest because a number has one rounding. -/
theorem roundHalfToEven : Obligations.RoundHalfToEven := by
  refine ⟨fun y => ?_, XReal.roundHe_ofInt, ?_, ?_, ?_, ?_, ?_, ?_⟩
  · obtain ⟨hnear, heven⟩ := y.roundHe_spec
    exact ⟨hnear, heven, y.roundHe_zero_sub⟩
  all_goals exact XReal.roundHe_ofRat_of_tie (by norm_num [abs_of_pos, abs_of_neg]) (by decide)

end Sys2Proof
end

section
/-! The memory primitives (20_memory R52, R53): a field read is the base-256 number of its bytes, a field written is the
base-256 digits of its value, and a WR command that leaves an error has touched STATUS alone. -/

namespace Sys2Proof

/-- Each byte of a little-endian field is one base-256 digit of its value (20_memory R53). -/
theorem leBytes_getElem? {n b : Nat} (v : Nat) (h : b < n) :
    (leBytes n v)[b]? = some (BitVec.ofNat 8 (v / 256 ^ b)) := by
  induction n generalizing v b with
  | zero => omega
  | succ n ih =>
    cases b with
    | zero => simp [leBytes]
    | succ b => rw [leBytes, List.getElem?_cons_succ, ih _ (by omega), Nat.div_div_eq_div_mul, ← Nat.pow_succ']

namespace Machine

/-- The assembled number weighs the byte at offset `b` by `256 ^ b` (20_memory R52). -/
theorem leNat_imemBytes (s : State) (a n : Nat) :
    leNat (s.imemBytes a n) = ((List.range n).map fun b => 256 ^ b * (s.imemByte (a + b)).toNat).sum := by
  induction n generalizing a with
  | zero => rfl
  | succ n ih =>
    have hshift (b : Nat) : 256 ^ (b + 1) * (s.imemByte (a + (b + 1))).toNat
        = 256 * (256 ^ b * (s.imemByte (a + 1 + b)).toNat) := by
      rw [Nat.pow_succ', Nat.mul_assoc, Nat.add_assoc, Nat.add_comm 1]
    simp [State.imemBytes, leNat, ih, List.range_succ_eq_map, Function.comp_def, hshift, List.sum_map_mul_left]

theorem leNat_imemBytes_lt (s : State) (a n : Nat) : leNat (s.imemBytes a n) < 256 ^ n := by
  simpa using leNat_lt (s.imemBytes a n)

theorem omemWrite_of_lt {s : State} {a n : Nat} (v : Nat) (h : s.build.omemSize.toNat < a + n) :
    omemWrite s a n v = .error .outOverflow := if_pos h

theorem omemWrite_of_le {s : State} {a n : Nat} (v : Nat) (h : a + n ≤ s.build.omemSize.toNat) :
    omemWrite s a n v = .ok { s with omem := Memory.store s.omem a (leBytes n v) } := if_neg (by omega)

/-- A byte of the field stored at `a`. -/
theorem State.omemByte_store_leBytes (s : State) (a v : Nat) {n b : Nat} (h : b < n) :
    State.omemByte { s with omem := Memory.store s.omem a (leBytes n v) } (a + b)
      = BitVec.ofNat 8 (v / 256 ^ b) := by
  rw [State.omemByte_store, leBytes_length, if_pos (by omega), Nat.add_sub_cancel_left,
    List.getD_eq_getElem?_getD, leBytes_getElem? v h, Option.getD_some]

/-- A byte outside the field stored at `a`. -/
theorem State.omemByte_store_leBytes_outside (s : State) (v : Nat) {a n x : Nat} (h : x < a ∨ a + n ≤ x) :
    State.omemByte { s with omem := Memory.store s.omem a (leBytes n v) } x = s.omemByte x := by
  rw [State.omemByte_store, leBytes_length, if_neg (by omega)]

/-- The three WR commands differ only in their fields (45_container R161 to R163). -/
theorem exec_wr_eq_emit {i : Instr} (s : State) (hi : i ∈ [Instr.wrhdr, .wrchn, .wrrec]) :
    ∃ fs, exec i s = whenClear s (settle s (emit fs s)) := by
  simp only [List.mem_cons, List.not_mem_nil, or_false] at hi
  rcases hi with rfl | rfl | rfl
  · exact ⟨hdrFields s, rfl⟩
  · exact ⟨chnFields s, rfl⟩
  · exact ⟨recordFields s, rfl⟩

/-- A WR command that ends with an error pending was refused or raised it before its first byte; the remaining case, a
unit written from a clear state, leaves the state clear. -/
theorem emit_failure_onlyErrDiffers {fs : List (Nat × Nat)} {s t : State}
    (h : whenClear s (settle s (emit fs s)) = .next t) (ht : t.err ≠ 0) : onlyErrDiffers s t := by
  rcases whenClear_cases h with ⟨-, rfl⟩ | ⟨hclear, hrun⟩
  · exact .refl t
  · rcases settle_cases hrun with ⟨e, -, rfl⟩ | hok
    · exact raise_onlyErrDiffers e s
    · obtain ⟨-, rfl⟩ := emit_cases hok
      exact absurd hclear ht

theorem onlyErrDiffers.omem_eq {s t : State} (h : onlyErrDiffers s t) : t.omem = s.omem := by rw [h.1]

theorem onlyErrDiffers.optr_eq {s t : State} (h : onlyErrDiffers s t) : t.optr = s.optr := by rw [h.1]

/-- Settles O41: `leNat_imemBytes` turns the number read into the sum, and `leNat_imemBytes_lt` bounds it. -/
theorem imemReadIsBounded : Obligations.ImemReadIsBounded := by
  intro s addr n _
  refine ⟨imemRead_of_lt, fun hfits => ?_⟩
  rw [← leNat_imemBytes]
  exact ⟨imemRead_of_le hfits, leNat_imemBytes_lt s addr n⟩

/-- Settles O42: the bytes and their frame are those of a little-endian store; a failing WR command changes only
STATUS, by `emit_failure_onlyErrDiffers`. -/
theorem omemWriteIsBounded : Obligations.OmemWriteIsBounded := by
  refine ⟨fun s addr n v _ _ => ⟨omemWrite_of_lt v, fun hfits => ?_⟩, fun i s t hi hexec ht => ?_⟩
  · exact ⟨_, omemWrite_of_le v hfits, rfl, fun b hb => s.omemByte_store_leBytes addr v hb,
      fun a ha => s.omemByte_store_leBytes_outside v ha⟩
  · obtain ⟨fs, hemit⟩ := exec_wr_eq_emit s hi
    have hframe := emit_failure_onlyErrDiffers (hemit ▸ hexec) ht
    exact ⟨hframe.omem_eq, hframe.optr_eq⟩

end Machine

end Sys2Proof
end

section
/-! The command map (30_encoding R82): the decoder answers a command exactly for the one byte that encodes it, so the
map can be read off the encoder, instruction by instruction. -/

namespace Sys2Proof

theorem format_and_encode_of_decodeCommand {c : Byte} {i : Instr} (h : decodeCommand c = some i) :
    i.format = .c8 ∧ encode i = [c] := by
  unfold decodeCommand at h
  split at h
  case h_20 => exact nomatch h
  all_goals
    rename_i hcode
    obtain rfl := Option.some.inj h
    exact ⟨rfl, congrArg ([·]) (BitVec.eq_of_toNat_eq hcode).symm⟩

theorem decodeCommand_of_encode {c : Byte} {i : Instr} (hformat : i.format = .c8) (hcode : encode i = [c]) :
    decodeCommand c = some i := by
  cases i
  case hdr | chn | record | pair => exact nomatch hformat
  all_goals
    obtain rfl := List.singleton_inj.1 hcode
    rfl

/-- `decodeCommand` inverts `encode` on the commands, and answers nothing else. -/
theorem decodeCommand_eq_some_iff {c : Byte} {i : Instr} :
    decodeCommand c = some i ↔ i.format = .c8 ∧ encode i = [c] :=
  ⟨format_and_encode_of_decodeCommand, fun ⟨hformat, hcode⟩ => decodeCommand_of_encode hformat hcode⟩

/-- Settles O1: by `decodeCommand_eq_some_iff`, each command has its encoding as its one row, and a container unit has
no row. -/
theorem commandMapIsTheTable : Obligations.CommandMapIsTheTable := by
  intro c i
  rw [decodeCommand_eq_some_iff]
  cases i
  case hdr | chn | record | pair => simp [Instr.format]
  all_goals simpa [Instr.format, encode] using eq_comm

end Sys2Proof
end

section
/-! The serializer's and deserializer's commands (45_container R161 to R166): a WR command writes the bytes of its
fields at OPTR or overflows; an RD command loads what its reads give or raises the error they stop with. -/

namespace Sys2Proof.Machine

/-! ### Fields as bytes -/

theorem leBytes_toNat_byte (v : Byte) : leBytes 1 v.toNat = [v] := by simp [leBytes]

theorem leBytes_toNat_half (v : Half) : leBytes 2 v.toNat = halfBytes v := by
  simp [leBytes, halfBytes, BitVec.extractLsb', Nat.shiftRight_eq_div_pow]

theorem leBytes_toNat_word (v : Word) : leBytes 4 v.toNat = wordBytes v := by
  simp [leBytes, wordBytes, BitVec.extractLsb', Nat.shiftRight_eq_div_pow, Nat.div_div_eq_div_mul]

theorem toNat_append_byte {n : Nat} (x : BitVec n) (b : Byte) : (x ++ b).toNat = b.toNat + 256 * x.toNat := by
  rw [BitVec.toNat_append, ← Nat.shiftLeft_add_eq_or_of_lt b.isLt, Nat.shiftLeft_eq]
  omega

/-- The 4-byte field of IMEM at `a`, its first byte lowest (20_memory R52, R54). -/
def State.imemWord (s : State) (a : Nat) : Word :=
  s.imemByte (a + 3) ++ s.imemByte (a + 2) ++ s.imemByte (a + 1) ++ s.imemByte a

theorem ofNat_leNat_imemBytes_four (s : State) (a : Nat) :
    BitVec.ofNat 32 (leNat (s.imemBytes a 4)) = s.imemWord a := by
  have hsum : leNat (s.imemBytes a 4) = (s.imemWord a).toNat := by
    simp only [State.imemBytes, leNat, State.imemWord, toNat_append_byte, Nat.mul_zero, Nat.add_zero, Nat.add_assoc,
      Nat.reduceAdd]
  rw [hsum, BitVec.ofNat_toNat, BitVec.setWidth_eq]

/-! ### Writing a unit -/

/-- The bytes of fields given as (size, value), one field after another. -/
def fieldsBytes (fs : List (Nat × Nat)) : List Byte := fs.flatMap fun f => leBytes f.1 f.2

@[simp] theorem fieldsBytes_length (fs : List (Nat × Nat)) : (fieldsBytes fs).length = fieldsLength fs := by
  induction fs with
  | nil => rfl
  | cons f fs ih =>
    have hcons : fieldsBytes (f :: fs) = leBytes f.1 f.2 ++ fieldsBytes fs := rfl
    simp [hcons, fieldsLength, ih]

/-- A command that stops with an error fails with its code and changes nothing else (60_exceptions R236). -/
theorem failsWith_of_error {i : Instr} {s : State} {r : Except ErrCode State} {e : ErrCode}
    (hexec : exec i s = whenClear s (settle s r)) (hclear : s.err = 0) (hr : r = .error e) :
    FailsWith i s e.code := by
  refine ⟨raise e s, ?_, raise_onlyErrDiffers e s, ?_⟩
  · rw [hexec, whenClear_of_clear _ hclear, hr]; rfl
  · rw [raise_of_clear e hclear, State.setErr_err]

/-- A command whose body succeeds answers the body's state. -/
theorem exec_of_ok {i : Instr} {s t : State} {r : Except ErrCode State}
    (hexec : exec i s = whenClear s (settle s r)) (hclear : s.err = 0) (hr : r = .ok t) : exec i s = .next t := by
  rw [hexec, whenClear_of_clear _ hclear, hr]; rfl

/-- The state after a unit's bytes have been written at OPTR. -/
def State.emitted (s : State) (bs : List Byte) : State :=
  { s with omem := Memory.store s.omem s.optr.toNat bs, optr := BitVec.ofNat 32 (s.optr.toNat + bs.length) }

theorem emit_of_lt {fs : List (Nat × Nat)} {s : State}
    (h : s.build.omemSize.toNat < s.optr.toNat + fieldsLength fs) : emit fs s = .error .outOverflow := if_pos h

theorem emit_of_le {fs : List (Nat × Nat)} {s : State}
    (h : s.optr.toNat + fieldsLength fs ≤ s.build.omemSize.toNat) : emit fs s = .ok (s.emitted (fieldsBytes fs)) := by
  rw [emit_eq, if_neg (by omega), State.emitted, fieldsBytes_length]
  rfl

theorem State.emitted_optr_toNat {s : State} {bs : List Byte}
    (h : s.optr.toNat + bs.length ≤ s.build.omemSize.toNat) :
    (s.emitted bs).optr.toNat = s.optr.toNat + bs.length := by
  have := s.build.omemSize.isLt
  exact Nat.mod_eq_of_lt (by omega)

/-- The bytes of OMEM depend on nothing else of the state. -/
theorem State.omemBytes_congr {s t : State} (h : t.omemByte = s.omemByte) (a n : Nat) :
    t.omemBytes a n = s.omemBytes a n := by
  refine List.ext_getElem? fun k => ?_
  rw [State.omemBytes_getElem?, State.omemBytes_getElem?, h]

theorem State.omemBytes_emitted (s : State) (bs : List Byte) :
    (s.emitted bs).omemBytes s.optr.toNat bs.length = bs :=
  (State.omemBytes_congr (t := s.emitted bs) (s := { s with omem := Memory.store s.omem s.optr.toNat bs }) rfl ..).trans
    (s.omemBytes_store s.optr.toNat bs)

theorem State.omemByte_emitted_outside (s : State) (bs : List Byte) {a : Nat}
    (h : a < s.optr.toNat ∨ s.optr.toNat + bs.length ≤ a) : (s.emitted bs).omemByte a = s.omemByte a :=
  (s.omemByte_store s.optr.toNat a bs).trans (if_neg (by omega))

/-- A WR command is refused, overflows, or writes the bytes of its fields at OPTR (45_container R161 to R163). -/
theorem wr_refused_or_overflows_or_writes {i : Instr} {s : State} {fs : List (Nat × Nat)} {bs : List Byte} {n : Nat}
    (hexec : exec i s = whenClear s (settle s (emit fs s))) (hlen : fieldsLength fs = n)
    (hbytes : fieldsBytes fs = bs) :
    (s.err ≠ 0 → exec i s = .next s)
      ∧ (s.err = 0 → s.build.omemSize.toNat < s.optr.toNat + n → FailsWith i s 4)
      ∧ (s.err = 0 → s.optr.toNat + n ≤ s.build.omemSize.toNat →
        ∃ t, exec i s = .next t ∧ t = { s with omem := t.omem, optr := t.optr }
          ∧ t.optr.toNat = s.optr.toNat + n
          ∧ t.omemBytes s.optr.toNat n = bs
          ∧ ∀ a, a < s.optr.toNat ∨ s.optr.toNat + n ≤ a → t.omemByte a = s.omemByte a) := by
  subst hbytes
  rw [← fieldsBytes_length] at hlen
  subst hlen
  refine ⟨fun hpending => ?_, fun hclear hlong => ?_, fun hclear hfits => ?_⟩
  · rw [hexec, whenClear_of_pending _ hpending]
  · exact failsWith_of_error hexec hclear (emit_of_lt (by simpa using hlong))
  · exact ⟨s.emitted (fieldsBytes fs), exec_of_ok hexec hclear (emit_of_le (by simpa using hfits)), rfl,
      State.emitted_optr_toNat hfits, s.omemBytes_emitted _, fun a ha => s.omemByte_emitted_outside _ ha⟩

theorem fieldsBytes_hdrFields (s : State) :
    fieldsBytes (hdrFields s)
      = [0x4A#8, 0x51#8, 0x5A#8, 0x31#8] ++ wordBytes s.height ++ wordBytes s.width ++ [3#8, 0#8, 0#8, 0#8] := by
  rw [← leBytes_toNat_word, ← leBytes_toNat_word]
  rfl

theorem fieldsBytes_chnFields (s : State) : fieldsBytes (chnFields s) = wordBytes s.blkcnt := by
  rw [← leBytes_toNat_word]
  rfl

theorem fieldsBytes_pairFields (p : AcPair) : fieldsBytes (pairFields p) = p.run :: halfBytes p.val := by
  rw [← leBytes_toNat_half]
  simp [fieldsBytes, pairFields, leBytes_toNat_byte]

theorem fieldsBytes_pairs (ps : List AcPair) :
    fieldsBytes (ps.flatMap pairFields) = ps.flatMap fun p => p.run :: halfBytes p.val := by
  simp only [← fieldsBytes_pairFields]
  exact List.flatMap_assoc

/-- The record's pairs, index by index (10_state R26). -/
theorem RecordReg.pairs_eq_map_pairAt (gen : Nat) (r : RecordReg) :
    r.pairs gen = (List.range r.n.toNat).map (r.pairAt gen) := by
  refine List.ext_getElem? fun p => ?_
  rw [RecordReg.pairs_getElem?, List.getElem?_map]
  split
  case isTrue hp => rw [List.getElem?_range hp]; rfl
  case isFalse hp => rw [List.getElem?_eq_none (by simpa using hp)]; rfl

theorem fieldsLength_recordFields (s : State) : fieldsLength (recordFields s) = 4 + 3 * s.record.n.toNat := by
  simp only [recordFields, fieldsLength, fieldsLength_pairs, RecordReg.pairs_length]
  omega

theorem fieldsBytes_recordFields (s : State) :
    fieldsBytes (recordFields s) = halfBytes s.record.dc ++ halfBytes s.record.n
      ++ ((List.range s.record.n.toNat).flatMap fun p =>
        (s.record.pairAt s.gen p).run :: halfBytes (s.record.pairAt s.gen p).val) := by
  have hpairs : ((List.range s.record.n.toNat).flatMap fun p =>
        (s.record.pairAt s.gen p).run :: halfBytes (s.record.pairAt s.gen p).val)
      = fieldsBytes ((s.record.pairs s.gen).flatMap pairFields) := by
    rw [fieldsBytes_pairs, RecordReg.pairs_eq_map_pairAt, List.flatMap_map]
  rw [hpairs, ← leBytes_toNat_half, ← leBytes_toNat_half, List.append_assoc]
  rfl

/-- Settles O43: WRHDR writes `hdrFields`, whose bytes are the header's. -/
theorem wrhdrWritesTheHeader : Obligations.WrhdrWritesTheHeader :=
  ⟨rfl, fun s => wr_refused_or_overflows_or_writes rfl rfl (fieldsBytes_hdrFields s)⟩

/-- Settles O44: WRCHN writes `chnFields`, whose bytes are those of BLKCNT. -/
theorem wrchnWritesTheBlockCount : Obligations.WrchnWritesTheBlockCount :=
  ⟨rfl, fun s => wr_refused_or_overflows_or_writes rfl rfl (fieldsBytes_chnFields s)⟩

/-- Settles O45: WRREC writes `recordFields`, whose bytes are those of dc, the count and every pair. -/
theorem wrrecWritesTheRecord : Obligations.WrrecWritesTheRecord :=
  ⟨rfl, fun s => wr_refused_or_overflows_or_writes rfl (fieldsLength_recordFields s) (fieldsBytes_recordFields s)⟩

/-! ### Reading a unit -/

theorem imemRead_cases (s : State) (a n : Nat) :
    imemRead s a n = .error .truncated ∨ ∃ v, imemRead s a n = .ok v := by
  unfold imemRead
  split
  · exact .inl rfl
  · exact .inr ⟨_, rfl⟩

/-- The magic number is that of the four tag bytes only (45_container R165). -/
theorem leNat_eq_magicNat_iff (b₀ b₁ b₂ b₃ : Byte) :
    leNat [b₀, b₁, b₂, b₃] = magicNat ↔ b₀ = 0x4A#8 ∧ b₁ = 0x51#8 ∧ b₂ = 0x5A#8 ∧ b₃ = 0x31#8 := by
  constructor
  · intro hnat
    have hbytes : [b₀, b₁, b₂, b₃] = magicBytes := by
      rw [← leBytes_leNat [b₀, b₁, b₂, b₃], hnat]
      rfl
    simpa [magicBytes] using hbytes
  · rintro ⟨rfl, rfl, rfl, rfl⟩
    rfl

section
variable {i : Instr} {s : State} {α : Type} {r : Except ErrCode α} {load : α → State}

/-- An RD command whose reads stop fails with their code. -/
theorem failsWith_of_read_error {e : ErrCode} (hexec : exec i s = whenClear s (settle s (r.map load)))
    (hclear : s.err = 0) (hr : r = .error e) : FailsWith i s e.code :=
  failsWith_of_error hexec hclear (by rw [hr]; rfl)

/-- An RD command whose reads succeed loads what they read. -/
theorem exec_of_read_ok {u : α} (hexec : exec i s = whenClear s (settle s (r.map load)))
    (hclear : s.err = 0) (hr : r = .ok u) : exec i s = .next (load u) :=
  exec_of_ok hexec hclear (by rw [hr]; rfl)

end

section
variable {s : State}

theorem readHdr_of_noMagicField (h : s.ilen.toNat < s.iptr.toNat + 4) : readHdr s = .error .truncated := by
  simp only [readHdr, imemRead_of_lt h]
  rfl

theorem readHdr_of_badMagic (h : s.iptr.toNat + 4 ≤ s.ilen.toNat)
    (hmagic : leNat (s.imemBytes s.iptr.toNat 4) ≠ magicNat) : readHdr s = .error .badMagic := by
  simp only [readHdr, imemRead_of_le h, bind, Except.bind, if_pos hmagic]
  rfl

/-- Behind the tag, the first field that reaches past ILEN truncates the header (60_exceptions R239). -/
theorem readHdr_of_truncated (h : s.iptr.toNat + 4 ≤ s.ilen.toNat)
    (hmagic : leNat (s.imemBytes s.iptr.toNat 4) = magicNat) (hend : s.ilen.toNat < s.iptr.toNat + 16) :
    readHdr s = .error .truncated := by
  have hchannels : imemRead s (s.iptr.toNat + 12) 4 = .error .truncated := imemRead_of_lt (by omega)
  simp only [readHdr, imemRead_of_le h, hmagic, hchannels]
  rcases imemRead_cases s (s.iptr.toNat + 4) 4 with hheight | ⟨_, hheight⟩
  · rw [hheight]; rfl
  · rcases imemRead_cases s (s.iptr.toNat + 8) 4 with hwidth | ⟨_, hwidth⟩
    · rw [hheight, hwidth]; rfl
    · rw [hheight, hwidth]; rfl

theorem readHdr_of_fits (hmagic : leNat (s.imemBytes s.iptr.toNat 4) = magicNat)
    (hfits : s.iptr.toNat + 16 ≤ s.ilen.toNat) :
    readHdr s = .ok (s.imemWord (s.iptr.toNat + 4), s.imemWord (s.iptr.toNat + 8), s.imemWord (s.iptr.toNat + 12)) := by
  have htag : imemRead s s.iptr.toNat 4 = .ok magicNat := by rw [imemRead_of_le (by omega), hmagic]
  have hfield {o : Nat} (ho : o ≤ 12) :
      imemRead s (s.iptr.toNat + o) 4 = .ok (leNat (s.imemBytes (s.iptr.toNat + o) 4)) :=
    imemRead_of_le (by omega)
  simp only [readHdr, htag, hfield (o := 4) (by omega), hfield (o := 8) (by omega), hfield (o := 12) (by omega),
    ← ofNat_leNat_imemBytes_four]
  rfl

theorem readChn_of_lt (h : s.ilen.toNat < s.iptr.toNat + 4) : readChn s = .error .truncated := by
  rw [readChn, imemRead_of_lt h]
  rfl

theorem readChn_of_le (h : s.iptr.toNat + 4 ≤ s.ilen.toNat) :
    readChn s = .ok (s.imemWord s.iptr.toNat) := by
  rw [readChn, imemRead_of_le h, ← ofNat_leNat_imemBytes_four]
  rfl

end

/-- IPTR moves past a unit within the valid bytes without wrapping (10_state R33). -/
theorem advance_iptr_toNat_of_fits (n : Nat) (s : State) (h : s.iptr.toNat + n ≤ s.ilen.toNat) :
    (advance n s).iptr.toNat = s.iptr.toNat + n :=
  advance_iptr_toNat n s (by have := s.ilen.isLt; omega)

/-- Settles O46: each test by what `readHdr` answers there, the tag by `leNat_eq_magicNat_iff`. -/
theorem rdhdrReadsTheHeader : Obligations.RdhdrReadsTheHeader := by
  refine ⟨rfl, fun s => ?_⟩
  intro B magic
  have hexec : exec .rdhdr s = whenClear s (settle s ((readHdr s).map fun u => loadHdr u.1 u.2.1 u.2.2 s)) := rfl
  have hmagic : leNat (s.imemBytes s.iptr.toNat 4) = magicNat ↔ magic := leNat_eq_magicNat_iff ..
  refine ⟨whenClear_of_pending _, fun hclear hshort => ?_, fun hclear h4 hbad => ?_, fun hclear h4 htag hshort => ?_,
    fun hclear htag hfits => ?_⟩
  · exact failsWith_of_read_error hexec hclear (readHdr_of_noMagicField hshort)
  · exact failsWith_of_read_error hexec hclear (readHdr_of_badMagic h4 (mt hmagic.1 hbad))
  · exact failsWith_of_read_error hexec hclear (readHdr_of_truncated h4 (hmagic.2 htag) hshort)
  · have hrun := exec_of_read_ok hexec hclear (readHdr_of_fits (hmagic.2 htag) hfits)
    exact ⟨_, hrun, rfl, rfl, rfl, rfl, advance_iptr_toNat_of_fits 16 _ hfits⟩

/-- Settles O47: the test and the field by what `readChn` answers. -/
theorem rdchnReadsTheBlockCount : Obligations.RdchnReadsTheBlockCount := by
  refine ⟨rfl, fun s => ?_⟩
  intro B
  have hexec : exec .rdchn s = whenClear s (settle s ((readChn s).map fun k => loadChn k s)) := rfl
  refine ⟨whenClear_of_pending _, fun hclear hshort => ?_, fun hclear hfits => ?_⟩
  · exact failsWith_of_read_error hexec hclear (readChn_of_lt hshort)
  · have hrun := exec_of_read_ok hexec hclear (readChn_of_le hfits)
    exact ⟨_, hrun, rfl, rfl, advance_iptr_toNat_of_fits 4 _ hfits⟩

end Sys2Proof.Machine
end

section
/-! The system commands and the illegal words (46_system_ops R191 to R193): each leaves the state as it is or writes
`STATUS.ERR` alone, so its frame is that of `State.setErr`. -/

namespace Sys2Proof

/-- No row of the command map is an illegal word (30_encoding R83). -/
theorem decodeCommand_eq_none_of_illegal {c : Byte}
    (h : c.toNat ∈ [0x0B, 0x0C, 0x0D, 0x0E, 0x0F, 0x13, 0x14, 0x15, 0x16, 0x17, 0x1B, 0x1C, 0x1D] ∨ 0x20 ≤ c.toNat) :
    decodeCommand c = none := by
  refine Option.eq_none_iff_forall_ne_some.2 fun i hi => ?_
  obtain ⟨hformat, hcode⟩ := format_and_encode_of_decodeCommand hi
  cases i
  case hdr | chn | record | pair => exact nomatch hformat
  all_goals
    obtain rfl := List.singleton_inj.1 hcode
    exact absurd h (by decide)

namespace Machine

/-- A step with a command pending issues it (10_state R29). -/
theorem step_of_command {s : State} {c : Byte} {rest : List HostAction} (h : s.queue = .command c :: rest) :
    step s = issue c { s with queue := rest } := by
  simp only [step, h, perform]

/-- A word without a command takes ILLEGAL_CMD (46_system_ops R193). -/
theorem issue_of_decodeCommand_eq_none {c : Byte} (s : State) (h : decodeCommand c = none) :
    issue c s = .next (raise .illegalCmd s) := by
  simp only [issue, h, illegalWord]

/-- The first error is kept (60_exceptions R237). -/
theorem raise_err (e : ErrCode) (s : State) : (raise e s).err = if s.err = 0 then e.code else s.err := by
  split
  next hclear => rw [raise_of_clear e hclear, State.setErr_err]
  next hpending => rw [raise_of_pending e hpending]

theorem clearErr_of_clear {s : State} (h : s.err = 0) : clearErr s = s :=
  (congrArg s.setErr h.symm).trans s.setErr_self

/-- Settles O7: an illegal word has no command, so its step raises ILLEGAL_CMD, which writes ERR alone and only where it
was 0. -/
theorem illegalWordSetsIllegalCmd : Obligations.IllegalWordSetsIllegalCmd := by
  intro s c rest hqueue hillegal
  have hstep : step s = .next (raise .illegalCmd { s with queue := rest }) :=
    (step_of_command hqueue).trans
      (issue_of_decodeCommand_eq_none _ (decodeCommand_eq_none_of_illegal hillegal))
  exact ⟨_, hstep, raise_onlyErrDiffers .illegalCmd _, raise_err .illegalCmd _⟩

/-- Settles O11: NOP's meaning is the state it is given. -/
theorem nopChangesNothing : Obligations.NopChangesNothing := ⟨rfl, fun _ => rfl⟩

/-- Settles O12: CLRERR is `State.setErr` of 0, which changes ERR alone, and changes nothing where 0 is the code that is
there. -/
theorem clrerrClearsTheCode : Obligations.ClrerrClearsTheCode :=
  ⟨rfl, fun s => ⟨clearErr s, rfl, s.setErr_onlyErrDiffers 0, s.setErr_err 0, clearErr_of_clear⟩⟩

end Machine

end Sys2Proof
end

section
/-! Exceptions (60_exceptions R236 to R238): with an error pending every instruction but CLRERR and SRST does nothing,
and everything else that a step can do to STATUS is to raise an error, which writes `STATUS.ERR` alone and only where it
was 0. -/

namespace Sys2Proof.Machine

/-! ### Refusal -/

/-- An instruction that is neither CLRERR nor SRST does nothing while an error is pending (60_exceptions R238): NOP
never does anything, and each of the others is behind `whenClear`. -/
theorem exec_of_pending {i : Instr} {s : State} (hpending : s.err ≠ 0) (hclrerr : i ≠ .clrerr) (hsrst : i ≠ .srst) :
    exec i s = .next s := by
  cases i
  case clrerr => exact absurd rfl hclrerr
  case srst => exact absurd rfl hsrst
  case nop => rfl
  all_goals exact whenClear_of_pending _ hpending

/-- Settles O15: a case of `exec_of_pending`, which holds for the container units too. -/
theorem refusedWhilePending : Obligations.RefusedWhilePending :=
  fun _ _ _ hpending _ hclrerr hsrst => exec_of_pending hpending hclrerr hsrst

/-! ### What an instruction does to STATUS -/

/-- `t` is `s` with an error raised, or has the STATUS of `s`. -/
def RaisesOrKeepsStatus (s t : State) : Prop := (∃ e, t = raise e s) ∨ t.status = s.status

theorem State.err_congr {s t : State} (h : t.status = s.status) : t.err = s.err :=
  congrArg (BitVec.extractLsb' 0 4) h

/-- The pending error stays (60_exceptions R237). -/
theorem RaisesOrKeepsStatus.err_of_pending {s t : State} (h : RaisesOrKeepsStatus s t) (hpending : s.err ≠ 0) :
    t.err = s.err := by
  rcases h with ⟨e, rfl⟩ | hstatus
  · rw [raise_of_pending e hpending]
  · exact State.err_congr hstatus

/-- A new error comes with no other change (60_exceptions R236). -/
theorem RaisesOrKeepsStatus.onlyErrDiffers {s t : State} (h : RaisesOrKeepsStatus s t) (hne : t.err ≠ s.err) :
    onlyErrDiffers s t := by
  rcases h with ⟨e, rfl⟩ | hstatus
  · exact raise_onlyErrDiffers e s
  · exact absurd (State.err_congr hstatus) hne

section
variable {s t : State}

theorem raisesOrKeepsStatus_of_whenClear {r : Result} (h : whenClear s r = .next t)
    (hrun : r = .next t → RaisesOrKeepsStatus s t) : RaisesOrKeepsStatus s t := by
  rcases whenClear_cases h with ⟨_, rfl⟩ | ⟨_, hr⟩
  · exact .inr rfl
  · exact hrun hr

/-- A command that cannot fail. -/
theorem raisesOrKeepsStatus_of_body {u : State} (h : whenClear s (.next u) = .next t)
    (hbody : u.status = s.status) : RaisesOrKeepsStatus s t :=
  raisesOrKeepsStatus_of_whenClear h fun hu => by cases hu; exact .inr hbody

/-- A command that may fail. -/
theorem raisesOrKeepsStatus_of_settle {r : Except ErrCode State} (h : whenClear s (settle s r) = .next t)
    (hok : r = .ok t → t.status = s.status) : RaisesOrKeepsStatus s t :=
  raisesOrKeepsStatus_of_whenClear h fun hsettle => by
    rcases settle_cases hsettle with ⟨e, _, ht⟩ | hr
    · exact .inl ⟨e, ht⟩
    · exact .inr (hok hr)

/-- A WR command. -/
theorem raisesOrKeepsStatus_of_emit {fs : List (Nat × Nat)} (h : whenClear s (settle s (emit fs s)) = .next t) :
    RaisesOrKeepsStatus s t :=
  raisesOrKeepsStatus_of_settle h fun hemit => by
    obtain ⟨_, rfl⟩ := emit_cases hemit
    rfl

/-- An RD command. -/
theorem raisesOrKeepsStatus_of_read {α : Type} {r : Except ErrCode α} {load : α → State}
    (h : whenClear s (settle s (r.map load)) = .next t) (hload : ∀ u, (load u).status = s.status) :
    RaisesOrKeepsStatus s t :=
  raisesOrKeepsStatus_of_settle h fun hmap => by
    cases r with
    | error e => exact nomatch hmap
    | ok u => cases hmap; exact hload u

/-- A container unit. -/
theorem raisesOrKeepsStatus_of_consume {n : Nat} {r : Result} (h : consume n s r = .next t)
    (hrun : r = .next t → t.status = s.status) : RaisesOrKeepsStatus s t := by
  rcases consume_cases h with ⟨_, rfl⟩ | ⟨_, _, ht⟩ | ⟨_, _, hr⟩
  · exact .inr rfl
  · exact .inl ⟨_, ht⟩
  · exact .inr (hrun hr)

/-- A reset leaves no error (10_state R41). -/
theorem resetState_err (s : State) : (resetState s).err = 0 := by
  rw [State.err, resetState_status]
  rfl

/-- Everything an instruction can do to STATUS. -/
theorem exec_status_cases {i : Instr} (h : exec i s = .next t) :
    RaisesOrKeepsStatus s t ∨ (t.err = 0 ∧ (i = .clrerr ∨ i = .srst)) := by
  cases i
  case clrerr => cases h; exact .inr ⟨s.setErr_err 0, .inl rfl⟩
  case srst =>
    obtain rfl := Host.Outcome.next.inj h
    exact .inr ⟨resetState_err s, .inr rfl⟩
  all_goals left
  case nop => cases h; exact .inr rfl
  case fdct | idct | quant | dequant | zzfwd | zzinv | rleenc | rledec | encblk | decblk =>
    exact raisesOrKeepsStatus_of_body h rfl
  case wrhdr | wrchn | wrrec => exact raisesOrKeepsStatus_of_emit h
  case rdhdr | rdchn | rdrec => exact raisesOrKeepsStatus_of_read h fun _ => rfl
  case hdr | chn | record => exact raisesOrKeepsStatus_of_consume h fun hload => by cases hload; rfl
  case pair =>
    refine raisesOrKeepsStatus_of_consume h fun hload => ?_
    split at hload
    · cases hload; rfl
    · exact nomatch hload

/-! ### What a host action does to STATUS -/

theorem atAddress_cases {size : Word} {a : Nat} {r : Result} (h : atAddress size a r = .next t) : r = .next t := by
  unfold atAddress at h
  split at h
  · exact h
  · exact nomatch h

theorem writeCtrl_status (s : State) (v : Word) (r : CtrlReg) : (writeCtrl s v r).status = s.status := by
  cases r <;> rfl

/-- A host read that is a step adds one value to what the host has read (10_state R37). -/
theorem hostRead_cases {l : Loc} (h : hostRead s l = .next t) : ∃ d, t = s.reading d := by
  cases l
  case imem | omem => cases atAddress_cases h; exact ⟨_, rfl⟩
  case recRun | recVal =>
    simp only [hostRead] at h
    split at h
    · cases h; exact ⟨_, rfl⟩
    · exact nomatch h
  all_goals cases h; exact ⟨_, rfl⟩

/-- Everything a command word can do to STATUS. -/
theorem issue_status_cases {c : Byte} (h : issue c s = .next t) :
    RaisesOrKeepsStatus s t ∨ (t.err = 0 ∧ (c = 0x1E#8 ∨ c = 0x1F#8)) := by
  cases hdecode : decodeCommand c with
  | none =>
    rw [issue_of_decodeCommand_eq_none s hdecode] at h
    cases h
    exact .inl (.inl ⟨_, rfl⟩)
  | some i =>
    obtain ⟨_, hcode⟩ := format_and_encode_of_decodeCommand hdecode
    simp only [issue, hdecode] at h
    refine (exec_status_cases h).imp_right (And.imp_right ?_)
    rintro (rfl | rfl)
    · exact .inl (List.singleton_inj.1 hcode).symm
    · exact .inr (List.singleton_inj.1 hcode).symm

/-- Everything a host action can do to STATUS. -/
theorem perform_status_cases {a : HostAction} (h : perform s a = .next t) :
    RaisesOrKeepsStatus s t
      ∨ (t.err = 0 ∧ (a = .command 0x1E#8 ∨ a = .command 0x1F#8 ∨ a = .reset)) := by
  cases a
  case command c =>
    refine (issue_status_cases h).imp_right (And.imp_right ?_)
    rintro (rfl | rfl)
    · exact .inl rfl
    · exact .inr (.inl rfl)
  case reset =>
    obtain rfl := Host.Outcome.next.inj h
    exact .inr ⟨resetState_err s, .inr (.inr rfl)⟩
  all_goals refine .inl (.inr ?_)
  case writeCtrl r v => cases h; exact writeCtrl_status s v r
  case writeImem | writeOmem => cases atAddress_cases h; rfl
  case read => obtain ⟨d, rfl⟩ := hostRead_cases h; rfl
  all_goals cases h; rfl

end

theorem step_of_queue {s : State} {a : HostAction} {rest : List HostAction} (h : s.queue = a :: rest) :
    step s = perform { s with queue := rest } a := by
  simp only [step, h]

/-- Settles O16: `raise` by its two cases; a step by `perform_status_cases`, whose last case is one of the three
actions. -/
theorem firstErrorIsKept : Obligations.FirstErrorIsKept := by
  refine ⟨fun e s hclear => ⟨?_, raise_onlyErrDiffers e s⟩, fun e s hpending => raise_of_pending e hpending,
    fun s t a rest hqueue hpending hstep hclrerr hsrst hreset => ?_⟩
  · rw [raise_err, if_pos hclear]
  · rw [step_of_queue hqueue] at hstep
    rcases perform_status_cases hstep with hkeeps | ⟨_, ha⟩
    · exact hkeeps.err_of_pending hpending
    · simp [hclrerr, hsrst, hreset] at ha

/-- Settles O17: of the cases of `perform_status_cases`, only a raised error leads from no error to one. -/
theorem failuresArePrecise : Obligations.FailuresArePrecise := by
  intro s t hstep hclear hfailed
  cases hqueue : s.queue with
  | nil =>
    simp only [step, hqueue] at hstep
    cases hstep
    exact absurd hclear hfailed
  | cons a rest =>
    rw [step_of_queue hqueue] at hstep
    rcases perform_status_cases hstep with hkeeps | ⟨hnone, _⟩
    · exact hkeeps.onlyErrDiffers fun herr => hfailed (herr.trans hclear)
    · exact absurd hnone hfailed

end Sys2Proof.Machine
end

section
/-! Encodings (30_encoding R82, R85 to R89): a decoder answers a unit exactly for the bytes that encode it. Each
direction is one lemma about `decodeField`, carried through pairs, records and headers. -/

namespace Sys2Proof

/-! ### Fields -/

/-- A decoder in several parts answers where each part does. -/
theorem bind_eq_ok {ε α β : Type} {x : Except ε α} {f : α → Except ε β} {b : β} (h : (x >>= f) = .ok b) :
    ∃ a, x = .ok a ∧ f a = .ok b := by
  cases x with
  | error e => exact nomatch h
  | ok a => exact ⟨a, rfl, h⟩

theorem ok_bind {ε α β : Type} (a : α) (f : α → Except ε β) : (Except.ok a >>= f) = f a := rfl

/-- A field is read back from its bytes, whatever follows. -/
theorem decodeField_leBytes {n v : Nat} (h : v < 256 ^ n) (rest : List Byte) :
    decodeField n (leBytes n v ++ rest) = .ok (v, rest) := by
  have hlen := leBytes_length n v
  rw [decodeField, if_neg (by simp), List.take_left' hlen, List.drop_left' hlen, leNat_leBytes, Nat.mod_eq_of_lt h]

theorem decodeField_byte (b : Byte) (rest : List Byte) : decodeField 1 (b :: rest) = .ok (b.toNat, rest) := by
  have hfield := decodeField_leBytes (n := 1) b.isLt rest
  rwa [Machine.leBytes_toNat_byte] at hfield

theorem decodeField_half (v : Half) (rest : List Byte) :
    decodeField 2 (leBytes 2 v.toNat ++ rest) = .ok (v.toNat, rest) := decodeField_leBytes v.isLt rest

theorem decodeField_word (v : Word) (rest : List Byte) :
    decodeField 4 (leBytes 4 v.toNat ++ rest) = .ok (v.toNat, rest) := decodeField_leBytes v.isLt rest

/-- A field that is read is bounded by its length, and the bytes are its own and the rest. -/
theorem lt_and_eq_of_decodeField {n v : Nat} {bs rest : List Byte} (h : decodeField n bs = .ok (v, rest)) :
    v < 256 ^ n ∧ bs = leBytes n v ++ rest := by
  unfold decodeField at h
  split at h
  · exact nomatch h
  · rename_i hlen
    obtain ⟨rfl, rfl⟩ := Prod.mk.inj (Except.ok.inj h)
    have htake : (bs.take n).length = n := List.length_take_of_le (Nat.le_of_not_lt hlen)
    have hbytes := leBytes_leNat (bs.take n)
    have hbound := leNat_lt (bs.take n)
    rw [htake] at hbytes hbound
    exact ⟨hbound, by rw [hbytes, List.take_append_drop]⟩

/-- The bytes of a field's number are those of the word it is stored in. -/
theorem leBytes_toNat_ofNat {n w v : Nat} (hw : 256 ^ n = 2 ^ w) (hv : v < 256 ^ n) :
    leBytes n (BitVec.ofNat w v).toNat = leBytes n v := by
  rw [BitVec.toNat_ofNat, ← hw, Nat.mod_eq_of_lt hv]

/-! ### Pairs -/

theorem decodePair_encodePair (p : AcPair) (rest : List Byte) : decodePair (encodePair p ++ rest) = .ok (p, rest) := by
  simp only [decodePair, encodePair, List.cons_append, decodeField_byte, ok_bind, decodeField_half,
    BitVec.ofNat_toNat, BitVec.setWidth_eq]
  rfl

theorem decodePairs_encodePairs (ps : List AcPair) (rest : List Byte) :
    decodePairs ps.length (ps.flatMap encodePair ++ rest) = .ok (ps, rest) := by
  induction ps with
  | nil => rfl
  | cons p ps ih =>
    simp only [List.length_cons, decodePairs, List.flatMap_cons, List.append_assoc, decodePair_encodePair, ok_bind, ih]
    rfl

theorem eq_encodePair_of_decodePair {p : AcPair} {bs rest : List Byte} (h : decodePair bs = .ok (p, rest)) :
    bs = encodePair p ++ rest := by
  obtain ⟨⟨r, bs₁⟩, hr, h⟩ := bind_eq_ok h
  obtain ⟨⟨v, bs₂⟩, hv, h⟩ := bind_eq_ok h
  obtain ⟨rfl, rfl⟩ := Prod.mk.inj (Except.ok.inj h)
  obtain ⟨_, rfl⟩ := lt_and_eq_of_decodeField hr
  obtain ⟨hlt, rfl⟩ := lt_and_eq_of_decodeField hv
  simp only [encodePair, leBytes_toNat_ofNat (n := 2) (w := 16) rfl hlt]
  rfl

theorem eq_encodePairs_of_decodePairs {n : Nat} {ps : List AcPair} {bs rest : List Byte}
    (h : decodePairs n bs = .ok (ps, rest)) : ps.length = n ∧ bs = ps.flatMap encodePair ++ rest := by
  induction n generalizing ps bs with
  | zero =>
    obtain ⟨rfl, rfl⟩ := Prod.mk.inj (Except.ok.inj h)
    exact ⟨rfl, rfl⟩
  | succ n ih =>
    obtain ⟨⟨p, bs₁⟩, hp, h⟩ := bind_eq_ok h
    obtain ⟨⟨qs, bs₂⟩, hqs, h⟩ := bind_eq_ok h
    obtain ⟨rfl, rfl⟩ := Prod.mk.inj (Except.ok.inj h)
    obtain ⟨rfl, rfl⟩ := ih hqs
    exact ⟨rfl, by rw [eq_encodePair_of_decodePair hp, List.flatMap_cons, List.append_assoc]⟩

/-! ### Headers and records -/

/-- The tag is read as the magic number. -/
theorem decodeField_magicBytes (rest : List Byte) : decodeField 4 (magicBytes ++ rest) = .ok (magicNat, rest) :=
  decodeField_leBytes (n := 4) (v := magicNat) (by decide) rest

theorem decodeHdr_encode (h w c : Word) (rest : List Byte) :
    decodeHdr (encode (.hdr h w c) ++ rest) = .ok (.hdr h w c, rest) := by
  simp only [decodeHdr, encode, List.append_assoc, decodeField_magicBytes, ok_bind, decodeField_word,
    BitVec.ofNat_toNat, BitVec.setWidth_eq]
  rfl

theorem eq_encode_of_decodeHdr {i : Instr} {bs rest : List Byte} (h : decodeHdr bs = .ok (i, rest)) :
    ∃ height width channels, i = .hdr height width channels ∧ bs = encode i ++ rest := by
  obtain ⟨⟨m, bs₁⟩, hm, h⟩ := bind_eq_ok h
  by_cases hmagic : m = magicNat
  case neg => simp only [if_pos hmagic] at h; exact nomatch h
  subst hmagic
  obtain ⟨⟨height, bs₂⟩, hheight, h⟩ := bind_eq_ok h
  obtain ⟨⟨width, bs₃⟩, hwidth, h⟩ := bind_eq_ok h
  obtain ⟨⟨channels, bs₄⟩, hchannels, h⟩ := bind_eq_ok h
  obtain ⟨rfl, rfl⟩ := Prod.mk.inj (Except.ok.inj h)
  obtain ⟨_, rfl⟩ := lt_and_eq_of_decodeField hm
  obtain ⟨hh, rfl⟩ := lt_and_eq_of_decodeField hheight
  obtain ⟨hw, rfl⟩ := lt_and_eq_of_decodeField hwidth
  obtain ⟨hc, rfl⟩ := lt_and_eq_of_decodeField hchannels
  refine ⟨_, _, _, rfl, ?_⟩
  simp only [encode, leBytes_toNat_ofNat (n := 4) (w := 32) rfl, hh, hw, hc, List.append_assoc]
  rfl

theorem decodeRecord_encode {ac : List AcPair} (dc : Half) (hac : ac.length ≤ recCap) (rest : List Byte) :
    decodeRecord (encode (.record dc ac) ++ rest) = .ok (.record dc ac, rest) := by
  have hcount := decodeField_leBytes (n := 2) (Nat.lt_succ_of_le hac) (ac.flatMap encodePair ++ rest)
  simp only [decodeRecord, encode, List.append_assoc, decodeField_half, ok_bind, hcount, decodePairs_encodePairs,
    BitVec.ofNat_toNat, BitVec.setWidth_eq]
  rfl

theorem eq_encode_of_decodeRecord {i : Instr} {bs rest : List Byte} (h : decodeRecord bs = .ok (i, rest)) :
    ∃ dc ac, i = .record dc ac ∧ ac.length ≤ recCap ∧ bs = encode i ++ rest := by
  obtain ⟨⟨d, bs₁⟩, hd, h⟩ := bind_eq_ok h
  obtain ⟨⟨n, bs₂⟩, hn, h⟩ := bind_eq_ok h
  obtain ⟨⟨ps, bs₃⟩, hps, h⟩ := bind_eq_ok h
  obtain ⟨rfl, rfl⟩ := Prod.mk.inj (Except.ok.inj h)
  obtain ⟨hdc, rfl⟩ := lt_and_eq_of_decodeField hd
  obtain ⟨hcount, rfl⟩ := lt_and_eq_of_decodeField hn
  obtain ⟨rfl, rfl⟩ := eq_encodePairs_of_decodePairs hps
  refine ⟨_, _, rfl, Nat.le_of_lt_succ hcount, ?_⟩
  simp only [encode, leBytes_toNat_ofNat (n := 2) (w := 16) rfl hdc, List.append_assoc]

/-! ### The obligations -/

/-- Every command has an encoding (30_encoding R80). -/
theorem wf_of_format_c8 {i : Instr} (h : i.format = .c8) : i.wf = true := by
  cases i
  case hdr | chn | record | pair => exact nomatch h
  all_goals rfl

/-- Settles O3: a command by the command map, a unit by its own decoder on its own fields. -/
theorem decodeOfEncode : Obligations.DecodeOfEncode := by
  intro i rest hwf
  cases i
  case hdr h w c => exact decodeHdr_encode h w c rest
  case chn b =>
    simp only [Instr.format, decode, encode, decodeField_word, ok_bind, BitVec.ofNat_toNat, BitVec.setWidth_eq]
    rfl
  case record dc ac => exact decodeRecord_encode dc (of_decide_eq_true hwf) rest
  case pair r v =>
    simp only [Instr.format, decode, encode, decodePair_encodePair, ok_bind]
    rfl
  all_goals rfl

/-- Settles O4: a command word by `format_and_encode_of_decodeCommand`, a unit by the converse lemma of its decoder. -/
theorem encodeOfDecode : Obligations.EncodeOfDecode := by
  intro f bs rest i h
  cases f
  case c8 =>
    cases bs with
    | nil => exact nomatch h
    | cons c bs =>
      simp only [decode] at h
      split at h
      case h_1 j hj =>
        obtain ⟨rfl, rfl⟩ := Prod.mk.inj (Except.ok.inj h)
        obtain ⟨hformat, hcode⟩ := format_and_encode_of_decodeCommand hj
        exact ⟨wf_of_format_c8 hformat, hformat, by rw [hcode]; rfl⟩
      case h_2 => exact nomatch h
  case hdr =>
    obtain ⟨_, _, _, rfl, rfl⟩ := eq_encode_of_decodeHdr h
    exact ⟨rfl, rfl, rfl⟩
  case chn =>
    obtain ⟨⟨b, bs₁⟩, hb, h⟩ := bind_eq_ok h
    obtain ⟨rfl, rfl⟩ := Prod.mk.inj (Except.ok.inj h)
    obtain ⟨hblocks, rfl⟩ := lt_and_eq_of_decodeField hb
    exact ⟨rfl, rfl, by simp only [encode, leBytes_toNat_ofNat (n := 4) (w := 32) rfl hblocks]⟩
  case record =>
    obtain ⟨dc, ac, rfl, hac, rfl⟩ := eq_encode_of_decodeRecord h
    exact ⟨decide_eq_true hac, rfl, rfl⟩
  case pair =>
    obtain ⟨⟨p, bs₁⟩, hp, h⟩ := bind_eq_ok h
    obtain ⟨rfl, rfl⟩ := Prod.mk.inj (Except.ok.inj h)
    exact ⟨rfl, rfl, (eq_encodePair_of_decodePair hp).symm⟩

/-- Settles O2: the literal bytes, decoded. -/
theorem unitBytesDecode : Obligations.UnitBytesDecode := by
  refine ⟨?_, ?_, ?_, ?_, ?_⟩ <;> rfl

@[simp] theorem encodePairs_length (ps : List AcPair) : (ps.flatMap encodePair).length = 3 * ps.length := by
  simp [List.length_flatMap, encodePair, Nat.mul_comm]

/-- Settles O5: a command is one byte, a unit the sum of its fields' lengths. -/
theorem encodingHasItsLength : Obligations.EncodingHasItsLength := by
  intro i
  cases i
  case hdr | chn | pair => rfl
  case record dc ac =>
    simp only [encode, Instr.size, List.length_append, leBytes_length, encodePairs_length]
  all_goals rfl

end Sys2Proof
end

section
/-! What an instruction can do, said once (`exec_cases`): nothing, raise one of its error codes, or have its effect.
From it follow the causes of errors, the frame of every instruction, the constants and the machine's invariant. -/

namespace Sys2Proof.Machine

/-! ### The effect of an instruction -/

/-- The instruction can raise the code (60_exceptions section 2). -/
def MayRaise (i : Instr) : ErrCode → Prop
  | .badMagic => i = .rdhdr
  | .truncated => i = .rdhdr ∨ i = .rdchn ∨ i = .rdrec ∨ i.format ≠ .c8
  | .illegalCmd => False
  | .outOverflow => i = .wrhdr ∨ i = .wrchn ∨ i = .wrrec

/-- `t` is the state after an instruction that was neither refused nor failed in `s`. -/
def Effect : Instr → State → State → Prop
  | .nop, s, t => t = s
  | .fdct, s, t => t = fdctBody s
  | .idct, s, t => t = idctBody s
  | .quant, s, t => t = quantBody s
  | .dequant, s, t => t = dequantBody s
  | .zzfwd, s, t => t = zzfwdBody s
  | .zzinv, s, t => t = zzinvBody s
  | .rleenc, s, t => t = rleencBody s
  | .rledec, s, t => t = rledecBody s
  | .encblk, s, t => t = rleencBody (zzfwdBody (quantBody (fdctBody s)))
  | .decblk, s, t => t = idctBody (dequantBody (zzinvBody (rledecBody s)))
  | .wrhdr, s, t | .wrchn, s, t | .wrrec, s, t =>
    ∃ bs, s.optr.toNat + bs.length ≤ s.build.omemSize.toNat ∧ t = s.emitted bs
  | .rdhdr, s, t | .hdr _ _ _, s, t => ∃ h w c, t = loadHdr h w c s
  | .rdchn, s, t | .chn _, s, t => ∃ k, t = loadChn k s
  | .rdrec, s, t | .record _ _, s, t => ∃ dc ac, t = loadRecord dc ac s
  | .pair _ _, s, t => ∃ p, t = loadPair p s
  | .clrerr, s, t => t = s.setErr 0
  | .srst, s, t => t = resetState s

/-- `t` is `s`, or `s` with an error raised that instruction `i` can raise, or what `i` makes of `s`. -/
def Answers (i : Instr) (s t : State) : Prop :=
  t = s ∨ (∃ e, MayRaise i e ∧ t = raise e s) ∨ Effect i s t

section
variable {i : Instr} {s t : State}

theorem answers_of_whenClear {r : Result} (h : whenClear s r = .next t) (hrun : r = .next t → Answers i s t) :
    Answers i s t := by
  rcases whenClear_cases h with ⟨_, ht⟩ | ⟨_, hr⟩
  · exact .inl ht
  · exact hrun hr

/-- A command that cannot fail. -/
theorem answers_of_body {u : State} (h : whenClear s (.next u) = .next t) (hbody : Effect i s u) : Answers i s t :=
  answers_of_whenClear h fun hu => by cases hu; exact .inr (.inr hbody)

/-- A WR command. -/
theorem answers_of_emit {fs : List (Nat × Nat)} (h : whenClear s (settle s (emit fs s)) = .next t)
    (hraise : MayRaise i .outOverflow)
    (heffect : ∀ bs, s.optr.toNat + bs.length ≤ s.build.omemSize.toNat → Effect i s (s.emitted bs)) :
    Answers i s t :=
  answers_of_whenClear h fun hsettle => by
    by_cases hfits : s.optr.toNat + fieldsLength fs ≤ s.build.omemSize.toNat
    · rw [emit_of_le hfits] at hsettle
      cases hsettle
      exact .inr (.inr (heffect _ (by simpa using hfits)))
    · rw [emit_of_lt (Nat.lt_of_not_le hfits)] at hsettle
      cases hsettle
      exact .inr (.inl ⟨_, hraise, rfl⟩)

/-- An RD command. -/
theorem answers_of_read {α : Type} {r : Except ErrCode α} {load : α → State}
    (h : whenClear s (settle s (r.map load)) = .next t) (hraise : ∀ e, r = .error e → MayRaise i e)
    (heffect : ∀ u, Effect i s (load u)) : Answers i s t :=
  answers_of_whenClear h fun hsettle => by
    cases r with
    | error e => cases hsettle; exact .inr (.inl ⟨e, hraise e rfl, rfl⟩)
    | ok u => cases hsettle; exact .inr (.inr (heffect u))

/-- A container unit. -/
theorem answers_of_consume {n : Nat} {r : Result} (h : consume n s r = .next t) (hunit : i.format ≠ .c8)
    (hrun : r = .next t → Effect i s t) : Answers i s t := by
  rcases consume_cases h with ⟨_, ht⟩ | ⟨_, _, ht⟩ | ⟨_, _, hr⟩
  · exact .inl ht
  · exact .inr (.inl ⟨.truncated, .inr (.inr (.inr hunit)), ht⟩)
  · exact .inr (.inr (hrun hr))

/-! ### The codes the reads of an RD command stop with -/

theorem imemRead_error {a n : Nat} {e : ErrCode} (h : imemRead s a n = .error e) : e = .truncated := by
  rcases imemRead_cases s a n with hr | ⟨v, hr⟩
  · exact (Except.error.inj (hr.symm.trans h)).symm
  · exact nomatch hr.symm.trans h

/-- Reads one after another stop with the code of the first that stops. -/
theorem bind_error_cases {ε α β : Type} {x : Except ε α} {f : α → Except ε β} {e : ε} (h : (x >>= f) = .error e) :
    x = .error e ∨ ∃ a, x = .ok a ∧ f a = .error e := by
  cases x with
  | error e' =>
    obtain rfl : e' = e := Except.error.inj h
    exact .inl rfl
  | ok a => exact .inr ⟨a, rfl, h⟩

theorem readHdr_error {e : ErrCode} (h : readHdr s = .error e) : e = .badMagic ∨ e = .truncated := by
  rcases bind_error_cases h with h | ⟨m, _, h⟩
  · exact .inr (imemRead_error h)
  by_cases hmagic : m = magicNat
  case neg =>
    simp only [if_pos hmagic] at h
    exact .inl (Except.error.inj h).symm
  subst hmagic
  rcases bind_error_cases h with h | ⟨_, _, h⟩
  · exact .inr (imemRead_error h)
  rcases bind_error_cases h with h | ⟨_, _, h⟩
  · exact .inr (imemRead_error h)
  rcases bind_error_cases h with h | ⟨_, _, h⟩
  · exact .inr (imemRead_error h)
  · exact nomatch h

theorem readChn_error {e : ErrCode} (h : readChn s = .error e) : e = .truncated := by
  rcases bind_error_cases h with h | ⟨_, _, h⟩
  · exact imemRead_error h
  · exact nomatch h

theorem readPairs_error {n a : Nat} {e : ErrCode} (h : readPairs s n a = .error e) : e = .truncated := by
  induction n generalizing a with
  | zero => exact nomatch h
  | succ n ih =>
    rcases bind_error_cases h with h | ⟨_, _, h⟩
    · exact imemRead_error h
    rcases bind_error_cases h with h | ⟨_, _, h⟩
    · exact imemRead_error h
    rcases bind_error_cases h with h | ⟨_, _, h⟩
    · exact ih h
    · exact nomatch h

theorem readRecord_error {e : ErrCode} (h : readRecord s = .error e) : e = .truncated := by
  rcases bind_error_cases h with h | ⟨_, _, h⟩
  · exact imemRead_error h
  rcases bind_error_cases h with h | ⟨_, _, h⟩
  · exact imemRead_error h
  rcases bind_error_cases h with h | ⟨_, _, h⟩
  · exact readPairs_error h
  · exact nomatch h

/-- Everything an instruction can do. -/
theorem exec_cases (h : exec i s = .next t) : Answers i s t := by
  cases i
  case nop | clrerr => cases h; exact .inr (.inr rfl)
  case srst => exact .inr (.inr (Host.Outcome.next.inj h).symm)
  case fdct | idct | quant | dequant | zzfwd | zzinv | rleenc | rledec | encblk | decblk =>
    exact answers_of_body h rfl
  case wrhdr => exact answers_of_emit h (.inl rfl) fun bs hfits => ⟨bs, hfits, rfl⟩
  case wrchn => exact answers_of_emit h (.inr (.inl rfl)) fun bs hfits => ⟨bs, hfits, rfl⟩
  case wrrec => exact answers_of_emit h (.inr (.inr rfl)) fun bs hfits => ⟨bs, hfits, rfl⟩
  case rdhdr =>
    refine answers_of_read h (fun e he => ?_) fun _ => ⟨_, _, _, rfl⟩
    rcases readHdr_error he with rfl | rfl
    · exact rfl
    · exact .inl rfl
  case rdchn =>
    refine answers_of_read h (fun e he => ?_) fun _ => ⟨_, rfl⟩
    obtain rfl := readChn_error he
    exact .inr (.inl rfl)
  case rdrec =>
    refine answers_of_read h (fun e he => ?_) fun _ => ⟨_, _, rfl⟩
    obtain rfl := readRecord_error he
    exact .inr (.inr (.inl rfl))
  case hdr => exact answers_of_consume h Format.noConfusion fun hr => ⟨_, _, _, (Host.Outcome.next.inj hr).symm⟩
  case chn => exact answers_of_consume h Format.noConfusion fun hr => ⟨_, (Host.Outcome.next.inj hr).symm⟩
  case record => exact answers_of_consume h Format.noConfusion fun hr => ⟨_, _, (Host.Outcome.next.inj hr).symm⟩
  case pair =>
    refine answers_of_consume h Format.noConfusion fun hr => ?_
    split at hr
    · exact ⟨_, (Host.Outcome.next.inj hr).symm⟩
    · exact nomatch hr

/-! ### Causes of errors -/

/-- An effect leaves STATUS as it is, or clears the code. -/
theorem Effect.err_eq_zero (h : Effect i s t) (hclear : s.err = 0) : t.err = 0 := by
  cases i
  case clrerr => cases h; exact s.setErr_err 0
  case srst =>
    obtain rfl : t = resetState s := h
    exact resetState_err s
  case wrhdr | wrchn | wrrec => obtain ⟨_, _, rfl⟩ := h; exact hclear
  case rdhdr | hdr => obtain ⟨_, _, _, rfl⟩ := h; exact hclear
  case rdchn | chn | pair => obtain ⟨_, rfl⟩ := h; exact hclear
  case rdrec | record => obtain ⟨_, _, rfl⟩ := h; exact hclear
  all_goals cases h; exact hclear

/-- Settles O18: of the cases of `exec_cases` only a raised error leaves a code, and `MayRaise` says whose. -/
theorem errorCauses : Obligations.ErrorCauses := by
  intro i s t hclear hexec
  have hzero (h : t.err = 0) : (t.err = 0 ∨ t.err = 1 ∨ t.err = 2 ∨ t.err = 4) ∧ (t.err = 1 → i = .rdhdr)
      ∧ (t.err = 2 → i = .rdhdr ∨ i = .rdchn ∨ i = .rdrec ∨ i.format ≠ .c8)
      ∧ (t.err = 4 → i = .wrhdr ∨ i = .wrchn ∨ i = .wrrec) := by
    simp [h]
  rcases exec_cases hexec with rfl | ⟨e, hraise, rfl⟩ | heffect
  · exact hzero hclear
  · rw [raise_of_clear e hclear, State.setErr_err]
    cases e
    case illegalCmd => exact hraise.elim
    all_goals simpa [ErrCode.code, MayRaise] using hraise
  · exact hzero (heffect.err_eq_zero hclear)

end

end Sys2Proof.Machine
end

section
/-! Frames: what each instruction leaves as it was (10_state sections 2 and 4), what no step changes (R27, R28), and the
machine's invariant, each by the cases of `exec_cases` and `perform`. -/

namespace Sys2Proof.Machine

section
variable {i : Instr} {s t : State}

/-! ### The frame of an instruction -/

/-- What the tables of 10_state leave as it was under an instruction other than SRST. -/
def Framed (i : Instr) (s t : State) : Prop :=
  (i ∉ [Instr.idct, .decblk] → t.xb = s.xb)
    ∧ (i ∉ [Instr.fdct, .dequant, .encblk, .decblk] → t.cb = s.cb)
    ∧ (i ∉ [Instr.quant, .zzinv, .encblk, .decblk] → t.qb = s.qb)
    ∧ (i ∉ [Instr.zzfwd, .rledec, .encblk, .decblk] → t.zb = s.zb)
    ∧ (i ∉ [Instr.rleenc, .encblk, .rdrec] → i.format ≠ .record → i.format ≠ .pair → t.record = s.record)
    ∧ (i ≠ .rdhdr → i.format ≠ .hdr → t.height = s.height ∧ t.width = s.width ∧ t.nchan = s.nchan)
    ∧ (i ≠ .rdchn → i.format ≠ .chn → t.blkcnt = s.blkcnt)
    ∧ (i ∉ [Instr.rdhdr, .rdchn, .rdrec] → i.format = .c8 → t.iptr = s.iptr)
    ∧ (i ∉ [Instr.wrhdr, .wrchn, .wrrec] → t.optr = s.optr ∧ t.omem = s.omem)
    ∧ (i ∉ [Instr.wrhdr, .wrchn, .wrrec, .rdhdr, .rdchn, .rdrec, .clrerr] → i.format = .c8 → t.status = s.status)
    ∧ t.ilen = s.ilen ∧ t.imem = s.imem ∧ t.gen = s.gen ∧ t.queue = s.queue ∧ t.seen = s.seen

theorem Framed.refl (i : Instr) (s : State) : Framed i s s := by
  simp [Framed]

/-- Only an instruction that can fail may write STATUS. -/
theorem MayRaise.writes_status {e : ErrCode} (h : MayRaise i e) (hformat : i.format = .c8) :
    i ∈ [Instr.wrhdr, .wrchn, .wrrec, .rdhdr, .rdchn, .rdrec, .clrerr] := by
  cases e
  case badMagic => obtain rfl : i = .rdhdr := h; decide
  case truncated =>
    rcases h with rfl | rfl | rfl | hunit
    case inr.inr.inr => exact absurd hformat hunit
    all_goals decide
  case illegalCmd => exact h.elim
  case outOverflow => rcases h with rfl | rfl | rfl <;> decide

theorem Framed.raise {e : ErrCode} (h : MayRaise i e) : Framed i s (raise e s) := by
  obtain ⟨hframe, _⟩ := raise_onlyErrDiffers e s
  rw [hframe]
  simp only [Framed, implies_true, true_and, and_true, and_self]
  exact fun hnone hformat => absurd (h.writes_status hformat) hnone

theorem Effect.framed (h : Effect i s t) (hsrst : i ≠ .srst) : Framed i s t := by
  cases i
  case srst => exact absurd rfl hsrst
  case wrhdr | wrchn | wrrec => obtain ⟨_, _, rfl⟩ := h; simp [Framed, Instr.format, State.emitted]
  case rdhdr | hdr => obtain ⟨_, _, _, rfl⟩ := h; simp [Framed, Instr.format]
  case rdchn | chn | pair => obtain ⟨_, rfl⟩ := h; simp [Framed, Instr.format]
  case rdrec | record => obtain ⟨_, _, rfl⟩ := h; simp [Framed, Instr.format]
  all_goals cases h; simp [Framed, Instr.format]

theorem exec_framed (h : exec i s = .next t) (hsrst : i ≠ .srst) : Framed i s t := by
  rcases exec_cases h with rfl | ⟨e, hraise, rfl⟩ | heffect
  · exact .refl i _
  · exact .raise hraise
  · exact heffect.framed hsrst

/-- Settles O19: `exec_framed`. -/
theorem onlyTheNamedWritersWrite : Obligations.OnlyTheNamedWritersWrite :=
  fun _ _ _ hexec hsrst => exec_framed hexec hsrst

/-! ### The constants -/

/-- The tables and the build parameters are the same in both states (10_state R27, R28; 00_scope R8). -/
def SameConstants (s t : State) : Prop := t.qt = s.qt ∧ t.zz = s.zz ∧ t.build = s.build

theorem onlyErrDiffers.sameConstants (h : onlyErrDiffers s t) : SameConstants s t := by
  rw [h.1]
  exact ⟨rfl, rfl, rfl⟩

theorem Effect.sameConstants (h : Effect i s t) : SameConstants s t := by
  cases i
  case srst =>
    obtain rfl : t = resetState s := h
    exact ⟨resetState_qt s, resetState_zz s, resetState_build s⟩
  case wrhdr | wrchn | wrrec => obtain ⟨_, _, rfl⟩ := h; exact ⟨rfl, rfl, rfl⟩
  case rdhdr | hdr => obtain ⟨_, _, _, rfl⟩ := h; exact ⟨rfl, rfl, rfl⟩
  case rdchn | chn | pair => obtain ⟨_, rfl⟩ := h; exact ⟨rfl, rfl, rfl⟩
  case rdrec | record => obtain ⟨_, _, rfl⟩ := h; exact ⟨rfl, rfl, rfl⟩
  all_goals cases h; exact ⟨rfl, rfl, rfl⟩

theorem exec_sameConstants (h : exec i s = .next t) : SameConstants s t := by
  rcases exec_cases h with rfl | ⟨e, _, rfl⟩ | heffect
  · exact ⟨rfl, rfl, rfl⟩
  · exact (raise_onlyErrDiffers e s).sameConstants
  · exact heffect.sameConstants

/-- A command word runs a command or raises ILLEGAL_CMD. -/
theorem issue_cases {c : Byte} (h : issue c s = .next t) :
    (∃ i, exec i s = .next t) ∨ t = Machine.raise .illegalCmd s := by
  cases hdecode : decodeCommand c with
  | none =>
    rw [issue_of_decodeCommand_eq_none s hdecode] at h
    exact .inr (Host.Outcome.next.inj h).symm
  | some i =>
    simp only [issue, hdecode] at h
    exact .inl ⟨i, h⟩

theorem issue_sameConstants {c : Byte} (h : issue c s = .next t) : SameConstants s t := by
  rcases issue_cases h with ⟨i, hexec⟩ | rfl
  · exact exec_sameConstants hexec
  · exact (raise_onlyErrDiffers .illegalCmd s).sameConstants

theorem perform_sameConstants {a : HostAction} (h : perform s a = .next t) : SameConstants s t := by
  cases a
  case command => exact issue_sameConstants h
  case writeCtrl r v => cases h; cases r <;> exact ⟨rfl, rfl, rfl⟩
  case writeImem | writeOmem => cases atAddress_cases h; exact ⟨rfl, rfl, rfl⟩
  case read => obtain ⟨d, rfl⟩ := hostRead_cases h; exact ⟨rfl, rfl, rfl⟩
  case reset => exact Effect.sameConstants (i := .srst) (Host.Outcome.next.inj h).symm
  all_goals cases h; exact ⟨rfl, rfl, rfl⟩

/-- A step does the next action, or nothing. -/
theorem step_cases (h : step s = .next t) :
    t = s ∨ ∃ a rest, s.queue = a :: rest ∧ perform { s with queue := rest } a = .next t := by
  cases hqueue : s.queue with
  | nil =>
    simp only [step, hqueue] at h
    exact .inl (Host.Outcome.next.inj h).symm
  | cons a rest => exact .inr ⟨a, rest, rfl, step_of_queue hqueue ▸ h⟩

/-- Settles O20: no host action changes the constants, so no step does. -/
theorem constantsNeverChange : Obligations.ConstantsNeverChange := by
  intro s t h
  rcases step_cases h with rfl | ⟨a, rest, _, hperform⟩
  · exact ⟨rfl, rfl, rfl⟩
  · have hconst : SameConstants { s with queue := rest } t := perform_sameConstants hperform
    exact hconst

/-! ### The invariant -/

/-- The fields the invariant speaks of. -/
def State.invFields (s : State) : Word × Word × Memory × Memory × Build × RealBlock × Vector Coord 64 :=
  (s.status, s.ilen, s.imem, s.omem, s.build, s.qt, s.zz)

/-- The invariant depends on its fields alone. -/
theorem State.Inv.of_invFields (h : s.Inv) (heq : t.invFields = s.invFields) : t.Inv := by
  simp only [State.invFields, Prod.mk.injEq] at heq
  obtain ⟨hstatus, hilen, himem, homem, hbuild, hqt, hzz⟩ := heq
  constructor
  · rw [hstatus]; exact h.status
  · rw [hilen, hbuild]; exact h.ilen
  · rw [himem]; exact h.imemForm
  · rw [homem]; exact h.omemForm
  · rw [himem, hbuild]; exact h.imemRange
  · rw [homem, hbuild]; exact h.omemRange
  · rw [State.tablePositive, hbuild, hqt]; exact h.table
  · rw [State.orderBijective, hzz]; exact h.order

theorem State.Inv.setErr (h : s.Inv) {e : BitVec 4} (he : e.toNat ≤ 4) : (s.setErr e).Inv :=
  { h with status := s.setErr_status_le e h.status he }

theorem State.Inv.raise (h : s.Inv) (e : ErrCode) : (Machine.raise e s).Inv := by
  by_cases hclear : s.err = 0
  · rw [raise_of_clear e hclear]
    exact h.setErr e.code_le
  · rw [raise_of_pending e hclear]
    exact h

/-- A unit written within OMEM lists no address OMEM does not have. -/
theorem State.Inv.emitted (h : s.Inv) {bs : List Byte} (hfits : s.optr.toNat + bs.length ≤ s.build.omemSize.toNat) :
    (s.emitted bs).Inv :=
  { h with
    omemForm := Memory.store_wf bs _ _ h.omemForm
    omemRange := fun c hc => by
      rcases Memory.mem_store hc with ⟨_, hlt⟩ | hc
      · exact lt_of_lt_of_le hlt hfits
      · exact h.omemRange c hc }

theorem State.Inv.writeImem (h : s.Inv) {a : Nat} (ha : a < s.build.imemSize.toNat) (v : Byte) :
    State.Inv { s with imem := Memory.write s.imem a v } :=
  { h with
    imemForm := Memory.write_wf _ a v h.imemForm
    imemRange := fun c hc => by
      rcases Memory.mem_write hc with hc | hc
      · exact hc ▸ ha
      · exact h.imemRange c hc }

/-- A reset empties the memories and clears the registers. -/
theorem State.Inv.resetState (h : s.Inv) : (resetState s).Inv where
  status := by rw [resetState_status]; decide
  ilen := by rw [resetState_ilen]; exact Nat.zero_le _
  imemForm := by rw [resetState_imem]; exact List.Pairwise.nil
  omemForm := by rw [resetState_omem]; exact List.Pairwise.nil
  imemRange := by simp
  omemRange := by simp
  table := by rw [State.tablePositive, resetState_build, resetState_qt]; exact h.table
  order := by rw [State.orderBijective, resetState_zz]; exact h.order

theorem Effect.keeps_inv (h : Effect i s t) (hinv : s.Inv) : t.Inv := by
  cases i
  case clrerr => cases h; exact hinv.setErr (Nat.zero_le 4)
  case srst =>
    obtain rfl : t = resetState s := h
    exact hinv.resetState
  case wrhdr | wrchn | wrrec => obtain ⟨_, hfits, rfl⟩ := h; exact hinv.emitted hfits
  case rdhdr | hdr => obtain ⟨_, _, _, rfl⟩ := h; exact hinv.of_invFields rfl
  case rdchn | chn | pair => obtain ⟨_, rfl⟩ := h; exact hinv.of_invFields rfl
  case rdrec | record => obtain ⟨_, _, rfl⟩ := h; exact hinv.of_invFields rfl
  all_goals cases h; exact hinv.of_invFields rfl

theorem exec_keeps_inv (h : exec i s = .next t) (hinv : s.Inv) : t.Inv := by
  rcases exec_cases h with rfl | ⟨e, _, rfl⟩ | heffect
  · exact hinv
  · exact hinv.raise e
  · exact heffect.keeps_inv hinv

theorem issue_keeps_inv {c : Byte} (h : issue c s = .next t) (hinv : s.Inv) : t.Inv := by
  rcases issue_cases h with ⟨i, hexec⟩ | rfl
  · exact exec_keeps_inv hexec hinv
  · exact hinv.raise .illegalCmd

/-- ILEN stores at most IMEM_SIZE (10_state R33). -/
theorem writeCtrl_ilen_toNat (s : State) (v : Word) :
    (writeCtrl s v .ilen).ilen.toNat = min v.toNat s.build.imemSize.toNat := by
  simp only [writeCtrl]
  split <;> omega

theorem writeCtrl_keeps_inv (v : Word) (r : CtrlReg) (hinv : s.Inv) : (writeCtrl s v r).Inv := by
  cases r
  case ilen => exact { hinv with ilen := by rw [writeCtrl_ilen_toNat]; exact Nat.min_le_right _ _ }
  all_goals exact hinv.of_invFields rfl

/-- An action at an address that is a step is at an address the memory has. -/
theorem lt_of_atAddress {size : Word} {a : Nat} {r : Result} (h : atAddress size a r = .next t) : a < size.toNat := by
  unfold atAddress at h
  split at h
  · assumption
  · exact nomatch h

theorem perform_keeps_inv {a : HostAction} (h : perform s a = .next t) (hinv : s.Inv) : t.Inv := by
  cases a
  case command => exact issue_keeps_inv h hinv
  case writeCtrl r v => cases h; exact writeCtrl_keeps_inv v r hinv
  case writeImem a v =>
    have ha := lt_of_atAddress h
    cases atAddress_cases h
    exact hinv.writeImem ha v
  case writeOmem => cases atAddress_cases h; exact hinv
  case read => obtain ⟨d, rfl⟩ := hostRead_cases h; exact hinv.of_invFields rfl
  case reset =>
    obtain rfl := Host.Outcome.next.inj h
    exact hinv.resetState
  all_goals cases h; exact hinv.of_invFields rfl

/-- Settles O21: every host action keeps the invariant, which does not speak of the queue. -/
theorem stepKeepsTheInvariant : Obligations.StepKeepsTheInvariant := by
  intro s t hinv h
  rcases step_cases h with rfl | ⟨a, rest, _, hperform⟩
  · exact hinv
  · exact perform_keeps_inv hperform (hinv.of_invFields rfl)

end

end Sys2Proof.Machine
end

section
/-! When the machine stops (60_exceptions R230; 93_implementation_defined J8), the reset state (10_state R41), and the
host's reads and writes (10_state R37). -/

namespace Sys2Proof.Machine

section
variable {s : State}

/-! ### Commands complete -/

theorem whenClear_completes {r : Result} (h : ∃ t, r = .next t) : ∃ t, whenClear s r = .next t := by
  unfold whenClear
  split
  · exact h
  · exact ⟨s, rfl⟩

theorem settle_completes (r : Except ErrCode State) : ∃ t, settle s r = .next t := by
  cases r with
  | error e => exact ⟨_, rfl⟩
  | ok t => exact ⟨t, rfl⟩

/-- Settles O10: a command is a next state by itself, behind `whenClear`, or behind `settle`. -/
theorem commandsNeverStop : Obligations.CommandsNeverStop := by
  intro i s hformat
  cases i
  case hdr | chn | record | pair => exact nomatch hformat
  case nop | clrerr | srst => exact ⟨_, rfl⟩
  case wrhdr | wrchn | wrrec | rdhdr | rdchn | rdrec => exact whenClear_completes (settle_completes _)
  all_goals exact whenClear_completes ⟨_, rfl⟩

theorem issue_completes (c : Byte) (s : State) : ∃ t, issue c s = .next t := by
  cases hdecode : decodeCommand c with
  | none => exact ⟨_, issue_of_decodeCommand_eq_none s hdecode⟩
  | some i =>
    simp only [issue, hdecode]
    exact commandsNeverStop i s (format_and_encode_of_decodeCommand hdecode).1

/-- Settles O6: issuing a word that decodes is `exec` of what it decodes to. -/
theorem stepRunsTheCommand : Obligations.StepRunsTheCommand := by
  intro s c i rest hqueue hdecode
  rw [step_of_command hqueue, issue, hdecode]

/-! ### Where a host action stops -/

theorem atAddress_fault {size : Word} {a : Nat} {t : State} {f : Fault} (h : atAddress size a (.next t) = .fault f) :
    f = .absentAddress a ∧ size.toNat ≤ a := by
  unfold atAddress at h
  split at h
  · exact nomatch h
  · exact ⟨(Host.Outcome.fault.inj h).symm, Nat.le_of_not_lt ‹_›⟩

theorem atAddress_ne_refused {size : Word} {a : Nat} {t : State} {r : Refusal} :
    atAddress size a (.next t) ≠ .refused r := by
  unfold atAddress
  split <;> exact nofun

/-- A host action faults only at an address outside a memory. -/
theorem perform_fault {a : HostAction} {f : Fault} (h : perform s a = .fault f) :
    ∃ x v, f = .absentAddress x
      ∧ (((a = .read (.imem x) ∨ a = .writeImem x v) ∧ s.build.imemSize.toNat ≤ x)
        ∨ ((a = .read (.omem x) ∨ a = .writeOmem x v) ∧ s.build.omemSize.toNat ≤ x)) := by
  cases a
  case command c =>
    obtain ⟨t, ht⟩ := issue_completes c s
    exact nomatch ht.symm.trans h
  case writeImem x v =>
    obtain ⟨hf, hx⟩ := atAddress_fault h
    exact ⟨x, v, hf, .inl ⟨.inr rfl, hx⟩⟩
  case writeOmem x v =>
    obtain ⟨hf, hx⟩ := atAddress_fault h
    exact ⟨x, v, hf, .inr ⟨.inr rfl, hx⟩⟩
  case read l =>
    cases l
    case imem x =>
      obtain ⟨hf, hx⟩ := atAddress_fault h
      exact ⟨x, 0, hf, .inl ⟨.inl rfl, hx⟩⟩
    case omem x =>
      obtain ⟨hf, hx⟩ := atAddress_fault h
      exact ⟨x, 0, hf, .inr ⟨.inl rfl, hx⟩⟩
    case recRun | recVal =>
      simp only [perform, hostRead] at h
      split at h <;> exact nomatch h
    all_goals exact nomatch h
  all_goals exact nomatch h

/-- A host action is refused only at a read of a pair the record does not have. -/
theorem perform_refused {a : HostAction} {r : Refusal} (h : perform s a = .refused r) :
    ∃ p, r = .absentPair p ∧ s.record.n.toNat ≤ p ∧ (a = .read (.recRun p) ∨ a = .read (.recVal p)) := by
  cases a
  case command c =>
    obtain ⟨t, ht⟩ := issue_completes c s
    exact nomatch ht.symm.trans h
  case writeImem | writeOmem => exact absurd h atAddress_ne_refused
  case read l =>
    cases l
    case imem | omem => exact absurd h atAddress_ne_refused
    case recRun p =>
      simp only [perform, hostRead] at h
      split at h
      · exact nomatch h
      · exact ⟨p, (Host.Outcome.refused.inj h).symm, Nat.le_of_not_lt ‹_›, .inl rfl⟩
    case recVal p =>
      simp only [perform, hostRead] at h
      split at h
      · exact nomatch h
      · exact ⟨p, (Host.Outcome.refused.inj h).symm, Nat.le_of_not_lt ‹_›, .inr rfl⟩
    all_goals exact nomatch h
  all_goals exact nomatch h

/-- Settles O9: a step is the next host action, which stops only as `perform_fault` and `perform_refused` say. -/
theorem onlyHostAccessesStop : Obligations.OnlyHostAccessesStop := by
  intro s
  cases hqueue : s.queue with
  | nil =>
    have hstep : step s = .next s := by simp only [step, hqueue]
    rw [hstep]
    exact ⟨nofun, nofun⟩
  | cons a rest =>
    rw [step_of_queue hqueue]
    refine ⟨fun f h => ?_, fun r h => ?_⟩
    · obtain ⟨x, v, hf, hat⟩ := perform_fault h
      exact ⟨x, v, rest, hf, by simpa using hat⟩
    · obtain ⟨p, hr, hp, ha⟩ := perform_refused h
      exact ⟨p, rest, hr, hp, by simpa using ha⟩

end

/-! ### Reset -/

/-- Settles O13: every field of `resetState`, by its own lemma. -/
theorem srstGivesTheResetState : Obligations.SrstGivesTheResetState := by
  intro s
  refine ⟨resetState s, rfl, ?_⟩
  simp [State.imemByte, State.omemByte, Memory.get?, RecordReg.pairAt, freePair]

/-- Settles O14: the registers and tables of `State.resetOf`; an SRST is that state with the host's own fields. -/
theorem resetValues : Obligations.ResetValues := by
  refine ⟨rfl, rfl, rfl, rfl, rfl, rfl, rfl, rfl, rfl, rfl, rfl, rfl, rfl, fun k => ?_, fun s => ⟨_, rfl, ?_⟩⟩
  · simp [State.reset, State.resetOf, quantTable]
  · rw [resetState_gen, resetState]

/-- Every numeral of the default table is positive, as the entries of a table of the exact NUMERICS are. -/
theorem reset_tablePositive : State.reset.tablePositive := by
  have hnumerals : ∀ k : Fin 64, 0 < Config.qtNumerals[k] := by decide
  intro k
  have hk : (0 : ℝ) < (Config.qtNumerals[k] : ℤ) := by exact_mod_cast hnumerals k
  simpa [State.reset, State.resetOf, quantTable, Config.qtBase, Config.qScale, Config.build, Numerics.entry] using hk

/-- No position stands twice in the zigzag table. -/
theorem zigzagTable_nodup : zigzagTable.toList.Nodup := by decide +kernel

/-- Settles O22: registers 0, memories empty, the default tables. -/
theorem resetHasTheInvariant : Obligations.ResetHasTheInvariant where
  status := Nat.zero_le _
  ilen := Nat.zero_le _
  imemForm := State.reset_imem_wf
  omemForm := State.reset_omem_wf
  imemRange := fun _ h => nomatch h
  omemRange := fun _ h => nomatch h
  table := reset_tablePositive
  order := zigzagTable_nodup

/-- Settles O32: the table's 64 positions are those of the rule, one by one. -/
theorem zigzagTableFollowsTheRule : Obligations.ZigzagTableFollowsTheRule :=
  ⟨by decide +kernel, zigzagTable_nodup⟩

/-! ### Host accesses -/

theorem atAddress_of_lt {size : Word} {a : Nat} (r : Result) (h : a < size.toNat) : atAddress size a r = r := if_pos h

/-- Settles O59: a write is its case of `perform`; ILEN by `writeCtrl_ilen_toNat`. -/
theorem hostWritesKeepAccessRights : Obligations.HostWritesKeepAccessRights := by
  intro s
  refine ⟨fun v => ⟨rfl, rfl⟩, fun k v => rfl, fun k v => rfl, fun a v ha => atAddress_of_lt _ ha, fun v => ?_,
    fun v => ⟨rfl, rfl, rfl, rfl, rfl⟩, fun v => ⟨rfl, rfl⟩⟩
  exact ⟨_, rfl, rfl, writeCtrl_ilen_toNat s v⟩

/-- A write to one entry of a block puts the value there and keeps the others. -/
theorem getElem_set_eq_ite {α : Type} (b : Vector α 64) (k j : Fin 64) (v : α) :
    (b.set k v)[j] = if j = k then v else b[j] := by
  simp only [Fin.getElem_fin, Vector.getElem_set, Fin.ext_iff, eq_comm]

/-- Settles O60: a read is its case of `hostRead`; a write by the lemma of its space: a block, a pair or a byte of
IMEM. -/
theorem hostReadsWhatItWrote : Obligations.HostReadsWhatItWrote := by
  intro s
  refine ⟨fun l d hl => ?_, fun k => ⟨rfl, rfl, rfl, rfl, rfl, rfl⟩, fun p hp => ⟨if_pos hp, if_pos hp⟩,
    fun a ha => atAddress_of_lt _ ha, fun a ha => atAddress_of_lt _ ha, fun k v => ?_, fun k v => ?_, fun k v => ?_,
    fun k v => ?_, fun p v => ?_, fun p v => ?_, fun a v ha => ?_⟩
  · simp only [List.mem_cons, Prod.mk.injEq, List.not_mem_nil, or_false] at hl
    rcases hl with ⟨rfl, rfl⟩ | ⟨rfl, rfl⟩ | ⟨rfl, rfl⟩ | ⟨rfl, rfl⟩ | ⟨rfl, rfl⟩ | ⟨rfl, rfl⟩ | ⟨rfl, rfl⟩
      | ⟨rfl, rfl⟩ | ⟨rfl, rfl⟩ | ⟨rfl, rfl⟩ | ⟨rfl, rfl⟩
    all_goals rfl
  · exact ⟨_, rfl, rfl, fun j => getElem_set_eq_ite s.xb k j v⟩
  · exact ⟨_, rfl, rfl, fun j => getElem_set_eq_ite s.cb k j v⟩
  · exact ⟨_, rfl, rfl, fun j => getElem_set_eq_ite s.qb k j v⟩
  · exact ⟨_, rfl, rfl, fun j => getElem_set_eq_ite s.zb k j v⟩
  · refine ⟨_, rfl, rfl, rfl, rfl, fun q => (RecordReg.pairAt_updatePair ..).trans ?_⟩
    rfl
  · refine ⟨_, rfl, rfl, rfl, rfl, fun q => (RecordReg.pairAt_updatePair ..).trans ?_⟩
    rfl
  · exact ⟨_, atAddress_of_lt _ ha, rfl, fun b => s.imemByte_write a b v⟩

end Sys2Proof.Machine
end

section
/-! Container units (30_encoding R84 to R91): a unit is consumed, truncated or refused; the reads of an RD command are
the decoder's on the valid bytes from the cursor on, so RD commands act as the units those bytes decode to. -/

namespace Sys2Proof.Machine

section
variable {s t u : State}

/-! ### Consuming a unit -/

theorem consume_of_long {n : Nat} (r : Result) (hclear : s.err = 0) (h : s.ilen.toNat < s.iptr.toNat + n) :
    consume n s r = .next (raise .truncated s) := by
  rw [consume, whenClear_of_clear _ hclear, if_pos h]

/-- A unit is consumed with the length of its encoding. -/
theorem exec_unit_eq_consume {i : Instr} (s : State) (h : i.format ≠ .c8) : ∃ r, exec i s = consume i.size s r := by
  cases i
  case hdr | chn | record | pair => exact ⟨_, rfl⟩
  all_goals exact absurd rfl h

/-- Settles O51: the two tests of `consume`. -/
theorem unitsPastIlenAreTruncated : Obligations.UnitsPastIlenAreTruncated := by
  intro i s hunit
  obtain ⟨r, hexec⟩ := exec_unit_eq_consume s hunit
  rw [FailsWith, hexec]
  refine ⟨fun hclear hlong => ?_, whenClear_of_pending _⟩
  exact ⟨_, consume_of_long r hclear hlong, raise_onlyErrDiffers .truncated s, by rw [raise_err, if_pos hclear]; rfl⟩

theorem ofPairs_n_toNat {ac : List AcPair} (dc : Half) (h : ac.length ≤ recCap) :
    (RecordReg.ofPairs dc ac).n.toNat = ac.length := Nat.mod_eq_of_lt (Nat.lt_succ_of_le h)

/-- Settles O50: a unit that fits is consumed by its load, whose fields are those written. -/
theorem unitsLoadTheirFields : Obligations.UnitsLoadTheirFields := by
  intro s hclear
  refine ⟨fun h w c hfits => ?_, fun b hfits => ?_, fun d ac hac hfits => ?_, fun r v hn hfits => ?_⟩
  · exact ⟨_, consume_of_fits _ hclear hfits, rfl, advance_iptr_toNat_of_fits 16 _ hfits⟩
  · exact ⟨_, consume_of_fits _ hclear hfits, rfl, advance_iptr_toNat_of_fits 4 _ hfits⟩
  · exact ⟨_, consume_of_fits _ hclear hfits, rfl, rfl, ofPairs_n_toNat d hac, RecordReg.pairs_ofPairs _ d ac hac,
      advance_iptr_toNat_of_fits _ _ hfits⟩
  · have hlen : (s.record.pairs s.gen ++ [(⟨r, v⟩ : AcPair)]).length = s.record.n.toNat + 1 := by simp
    have hcap : (s.record.pairs s.gen ++ [(⟨r, v⟩ : AcPair)]).length ≤ recCap := hlen ▸ hn
    refine ⟨loadPair ⟨r, v⟩ s, ?_, rfl, rfl, ?_, RecordReg.pairs_ofPairs _ _ _ hcap,
      advance_iptr_toNat_of_fits 3 _ hfits⟩
    · exact (consume_of_fits _ hclear hfits).trans (if_pos hn)
    · exact (ofPairs_n_toNat _ hcap).trans hlen

/-- One more pair loaded is the longer record loaded. -/
theorem loadPair_loadRecord {ac : List AcPair} (dc : Half) (p : AcPair) (s : State) (h : ac.length ≤ recCap) :
    loadPair p (loadRecord dc ac s) = loadRecord dc (ac ++ [p]) s := by
  have hcursor : s.iptr + BitVec.ofNat 32 (4 + 3 * ac.length) + BitVec.ofNat 32 3
      = s.iptr + BitVec.ofNat 32 (4 + 3 * (ac ++ [p]).length) := by
    rw [BitVec.add_assoc, ← BitVec.ofNat_add, List.length_append, List.length_singleton]
    rfl
  simp only [loadPair, loadRecord, advance, RecordReg.pairs_ofPairs _ _ _ h, hcursor]
  rfl

/-- A PAIR unit after a record whose pairs it follows, both within the valid bytes. -/
theorem execThen_pair_loadRecord {dc : Half} {ac : List AcPair} {p : AcPair} (hclear : s.err = 0)
    (hcap : ac.length < recCap) (hfits : s.iptr.toNat + (4 + 3 * (ac.length + 1)) ≤ s.ilen.toNat) :
    execThen (.next (loadRecord dc ac s)) (.pair p.run p.val) = .next (loadRecord dc (ac ++ [p]) s) := by
  have hcursor : (loadRecord dc ac s).iptr.toNat = s.iptr.toNat + (4 + 3 * ac.length) :=
    advance_iptr_toNat_of_fits (4 + 3 * ac.length) _ (by show s.iptr.toNat + _ ≤ s.ilen.toNat; omega)
  have hcount : (loadRecord dc ac s).record.n.toNat < recCap := (ofPairs_n_toNat dc hcap.le).trans_lt hcap
  have hroom : (loadRecord dc ac s).iptr.toNat + 3 ≤ (loadRecord dc ac s).ilen.toNat := by
    rw [hcursor, loadRecord_ilen]; omega
  rw [← loadPair_loadRecord dc p s hcap.le]
  exact (consume_of_fits _ (s := loadRecord dc ac s) hclear hroom).trans (if_pos hcount)

theorem execPairs_loadRecord {dc : Half} {ac ps : List AcPair} (hclear : s.err = 0)
    (hcap : (ac ++ ps).length ≤ recCap) (hfits : s.iptr.toNat + (4 + 3 * (ac ++ ps).length) ≤ s.ilen.toNat) :
    execPairs ps (.next (loadRecord dc ac s)) = .next (loadRecord dc (ac ++ ps) s) := by
  induction ps generalizing ac with
  | nil => rw [List.append_nil]; rfl
  | cons p ps ih =>
    have hsplit : ac ++ p :: ps = ac ++ [p] ++ ps := by simp
    have hlen : (ac ++ p :: ps).length = ac.length + 1 + ps.length := by simp; omega
    rw [hlen] at hcap hfits
    rw [execPairs, execThen_pair_loadRecord hclear (by omega) (by omega), hsplit]
    exact ih (by rw [← hsplit, hlen]; exact hcap) (by rw [← hsplit, hlen]; exact hfits)

/-- While an error is pending PAIR units do nothing. -/
theorem execPairs_of_pending (ps : List AcPair) (h : s.err ≠ 0) : execPairs ps (.next s) = .next s := by
  induction ps with
  | nil => rfl
  | cons p ps ih =>
    have hpair : exec (.pair p.run p.val) s = .next s := whenClear_of_pending _ h
    rw [execPairs, execThen, hpair, ih]

/-- Settles O52: the PAIR units extend the record one by one from the empty one, by `execPairs_loadRecord`. -/
theorem recordIsItsPairs : Obligations.RecordIsItsPairs := by
  intro s d ac hcap hfits
  by_cases hclear : s.err = 0
  · have hrecord : exec (.record d ac) s = .next (loadRecord d ac s) := consume_of_fits _ hclear hfits
    have hempty : exec (.record d []) s = .next (loadRecord d [] s) :=
      consume_of_fits _ hclear (by simp only [List.length_nil]; omega)
    rw [hrecord, hempty]
    exact (execPairs_loadRecord (ac := []) hclear hcap hfits).symm
  · have hrefused (ps : List AcPair) : exec (.record d ps) s = .next s := whenClear_of_pending _ hclear
    rw [hrefused, hrefused, execPairs_of_pending ac hclear]

/-! ### Reading is decoding -/

/-- The valid bytes from address `a` on (20_memory R52). -/
def State.validFrom (s : State) (a : Nat) : List Byte := s.imemBytes a (s.ilen.toNat - a)

@[simp] theorem State.validFrom_length (s : State) (a : Nat) : (s.validFrom a).length = s.ilen.toNat - a :=
  s.imemBytes_length a _

theorem State.validFrom_split {a n : Nat} (h : a + n ≤ s.ilen.toNat) :
    s.validFrom a = s.imemBytes a n ++ s.validFrom (a + n) := by
  rw [State.validFrom, State.validFrom, ← State.imemBytes_add]
  congr 1
  omega

/-- The code an RD command raises where the decoder rejects. -/
def ErrCode.toDecodeError : ErrCode → DecodeError
  | .badMagic => .badMagic
  | .truncated | .illegalCmd | .outOverflow => .truncated

/-- What reads from IMEM gave, as a decoder's answer: the value with the valid bytes from its end on. -/
def asDecoded {α : Type} (s : State) (finish : α → Nat) : Except ErrCode α → Except DecodeError (α × List Byte)
  | .ok x => .ok (x, s.validFrom (finish x))
  | .error e => .error (e.toDecodeError)

/-- Reads one after another are decoders one after another. -/
theorem asDecoded_bind {α β : Type} {x : Except ErrCode α} {f : α → Except ErrCode β}
    {g : α × List Byte → Except DecodeError (β × List Byte)} {finish : α → Nat} {finish' : β → Nat}
    (h : ∀ v, x = .ok v → g (v, s.validFrom (finish v)) = asDecoded s finish' (f v)) :
    (asDecoded s finish x >>= g) = asDecoded s finish' (x >>= f) := by
  cases x with
  | error e => rfl
  | ok v => exact h v rfl

theorem decodeField_validFrom {n : Nat} (s : State) (a : Nat) (hn : 0 < n) :
    decodeField n (s.validFrom a) = asDecoded s (fun _ => a + n) (imemRead s a n) := by
  by_cases hfits : a + n ≤ s.ilen.toNat
  · have hlen := s.imemBytes_length a n
    rw [imemRead_of_le hfits, State.validFrom_split hfits, decodeField, if_neg (by simp), List.take_left' hlen,
      List.drop_left' hlen]
    rfl
  · rw [imemRead_of_lt (by omega), decodeField, if_pos (by simp; omega)]
    rfl

/-- Pairs read one after another are pairs decoded one after another. -/
theorem decodePairs_validFrom (s : State) (n a : Nat) :
    decodePairs n (s.validFrom a) = asDecoded s (fun ps => a + 3 * ps.length) (readPairs s n a) := by
  induction n generalizing a with
  | zero => rfl
  | succ n ih =>
    simp only [decodePairs, decodePair, bind_assoc, decodeField_validFrom s a Nat.one_pos, readPairs]
    refine asDecoded_bind fun r _ => ?_
    simp only [decodeField_validFrom s (a + 1) Nat.two_pos]
    refine asDecoded_bind fun v _ => ?_
    simp only [pure_bind, ih]
    refine asDecoded_bind fun ps _ => ?_
    have hend : a + 1 + 2 + 3 * ps.length = a + 3 * (ps.length + 1) := by omega
    exact congrArg (fun x => Except.ok (_, s.validFrom x)) hend

/-- The fields of a record, before they are made a unit (30_encoding R87). -/
def decodeRecordFields (bs : List Byte) : Except DecodeError ((Half × List AcPair) × List Byte) := do
  let (d, bs) ← decodeField 2 bs
  let (n, bs) ← decodeField 2 bs
  let (ps, bs) ← decodePairs n bs
  return ((BitVec.ofNat 16 d, ps), bs)

/-- The fields of a header, before they are made a unit (30_encoding R85). -/
def decodeHdrFields (bs : List Byte) : Except DecodeError ((Word × Word × Word) × List Byte) := do
  let (m, bs) ← decodeField 4 bs
  if m ≠ magicNat then throw .badMagic
  let (h, bs) ← decodeField 4 bs
  let (w, bs) ← decodeField 4 bs
  let (c, bs) ← decodeField 4 bs
  return ((BitVec.ofNat 32 h, BitVec.ofNat 32 w, BitVec.ofNat 32 c), bs)

theorem decodeRecord_eq (bs : List Byte) :
    decodeRecord bs = decodeRecordFields bs >>= fun u => .ok (.record u.1.1 u.1.2, u.2) := by
  simp only [decodeRecord, decodeRecordFields, bind_assoc]
  rfl

theorem decodeHdr_eq (bs : List Byte) :
    decodeHdr bs = decodeHdrFields bs >>= fun u => .ok (.hdr u.1.1 u.1.2.1 u.1.2.2, u.2) := by
  simp only [decodeHdr, decodeHdrFields, bind_assoc]
  congr 1
  funext x
  split
  · rfl
  · simp only [bind_assoc]
    rfl

theorem decodeRecordFields_validFrom (s : State) :
    decodeRecordFields (s.validFrom s.iptr.toNat)
      = asDecoded s (fun u => s.iptr.toNat + (4 + 3 * u.2.length)) (readRecord s) := by
  simp only [decodeRecordFields, readRecord, decodeField_validFrom s s.iptr.toNat Nat.two_pos]
  refine asDecoded_bind fun d _ => ?_
  simp only [decodeField_validFrom s (s.iptr.toNat + 2) Nat.two_pos]
  refine asDecoded_bind fun n _ => ?_
  simp only [Nat.add_assoc, Nat.reduceAdd, decodePairs_validFrom]
  exact asDecoded_bind fun ps _ => rfl

theorem decodeHdrFields_validFrom (s : State) :
    decodeHdrFields (s.validFrom s.iptr.toNat) = asDecoded s (fun _ => s.iptr.toNat + 16) (readHdr s) := by
  have hfield (o : Nat) : decodeField 4 (s.validFrom (s.iptr.toNat + o))
      = asDecoded s (fun _ => s.iptr.toNat + (o + 4)) (imemRead s (s.iptr.toNat + o) 4) :=
    decodeField_validFrom s _ (by decide)
  simp only [decodeHdrFields, readHdr, decodeField_validFrom (n := 4) s s.iptr.toNat (by decide)]
  refine asDecoded_bind fun m _ => ?_
  by_cases hmagic : m = magicNat
  case neg => simp only [if_pos hmagic]; rfl
  subst hmagic
  simp only [hfield]
  refine asDecoded_bind fun h _ => ?_
  simp only [hfield]
  refine asDecoded_bind fun w _ => ?_
  simp only [hfield]
  exact asDecoded_bind fun c _ => rfl

/-- Where the decoder answers, the reads gave the value. -/
theorem eq_ok_of_asDecoded {α : Type} {finish : α → Nat} {x : Except ErrCode α} {v : α} {rest : List Byte}
    (h : asDecoded s finish x = .ok (v, rest)) : x = .ok v := by
  cases x with
  | error e => exact nomatch h
  | ok w => exact congrArg _ (Prod.mk.inj (Except.ok.inj h)).1

/-- A unit that the valid bytes decode to ends within them. -/
theorem size_le_of_decode_validFrom {f : Format} {i : Instr} {rest : List Byte}
    (h : decode f (s.validFrom s.iptr.toNat) = .ok (i, rest)) (hsize : 0 < i.size) :
    s.iptr.toNat + i.size ≤ s.ilen.toNat := by
  obtain ⟨_, _, hbytes⟩ := encodeOfDecode _ _ _ _ h
  have hlen := congrArg List.length hbytes
  rw [List.length_append, encodingHasItsLength, State.validFrom_length] at hlen
  omega

/-- An RD command whose reads succeed is the consumption of a unit within the valid bytes. -/
theorem rd_eq_consume {α : Type} {r : Except ErrCode α} {load : α → State} {v : α} {n : Nat} (hr : r = .ok v)
    (hfits : s.iptr.toNat + n ≤ s.ilen.toNat) :
    whenClear s (settle s (r.map load)) = consume n s (.next (load v)) := by
  rw [hr, consume, if_neg (by omega)]
  rfl

/-- Settles O8: the reads are the decoder's, and what decodes lies within the valid bytes. -/
theorem rdRunsTheDecodedUnit : Obligations.RdRunsTheDecodedUnit := by
  intro s i rest
  refine ⟨fun h => ?_, fun h => ?_, fun h => ?_⟩
  · have hdecode : decodeHdr (s.validFrom s.iptr.toNat) = .ok (i, rest) := h
    rw [decodeHdr_eq, decodeHdrFields_validFrom] at hdecode
    obtain ⟨⟨v, bs⟩, hread, hi⟩ := bind_eq_ok hdecode
    obtain ⟨rfl, rfl⟩ := Prod.mk.inj (Except.ok.inj hi)
    exact rd_eq_consume (eq_ok_of_asDecoded hread) (size_le_of_decode_validFrom h (Nat.succ_pos 15))
  · have hdecode : (decodeField 4 (s.validFrom s.iptr.toNat) >>= fun u => .ok (.chn (BitVec.ofNat 32 u.1), u.2))
        = .ok (i, rest) := h
    rw [decodeField_validFrom (n := 4) s _ (by decide)] at hdecode
    obtain ⟨⟨v, bs⟩, hread, hi⟩ := bind_eq_ok hdecode
    obtain ⟨rfl, rfl⟩ := Prod.mk.inj (Except.ok.inj hi)
    have hchn : readChn s = .ok (BitVec.ofNat 32 v) := by rw [readChn, eq_ok_of_asDecoded hread]; rfl
    exact rd_eq_consume hchn (size_le_of_decode_validFrom h (Nat.succ_pos 3))
  · have hdecode : decodeRecord (s.validFrom s.iptr.toNat) = .ok (i, rest) := h
    rw [decodeRecord_eq, decodeRecordFields_validFrom] at hdecode
    obtain ⟨⟨v, bs⟩, hread, hi⟩ := bind_eq_ok hdecode
    obtain ⟨rfl, rfl⟩ := Prod.mk.inj (Except.ok.inj hi)
    exact rd_eq_consume (eq_ok_of_asDecoded hread) (size_le_of_decode_validFrom h (by simp only [Instr.size]; omega))

/-! ### RDREC -/

theorem imemRead_eq_ok {a n v : Nat} (h : imemRead s a n = .ok v) :
    a + n ≤ s.ilen.toNat ∧ v = leNat (s.imemBytes a n) := by
  unfold imemRead at h
  split at h
  · exact nomatch h
  · exact ⟨Nat.le_of_not_lt ‹_›, (Except.ok.inj h).symm⟩

/-- Pairs that are read lie within the valid bytes. -/
theorem le_of_readPairs {n a : Nat} {ps : List AcPair} (h : readPairs s n a = .ok ps) (ha : a ≤ s.ilen.toNat) :
    a + 3 * n ≤ s.ilen.toNat := by
  induction n generalizing a ps with
  | zero => exact ha
  | succ n ih =>
    obtain ⟨_, _, h⟩ := bind_eq_ok h
    obtain ⟨_, hval, h⟩ := bind_eq_ok h
    obtain ⟨_, hps, _⟩ := bind_eq_ok h
    have := ih hps (imemRead_eq_ok hval).1
    omega

/-- The 2-byte field of IMEM at `a`, its first byte lowest (20_memory R52, R54). -/
theorem leNat_imemBytes_two (s : State) (a : Nat) :
    leNat (s.imemBytes a 2) = (s.imemByte (a + 1) ++ s.imemByte a).toNat := by
  simp only [State.imemBytes, leNat, toNat_append_byte, Nat.mul_zero, Nat.add_zero]

theorem ofNat_leNat_imemBytes_two (s : State) (a : Nat) :
    BitVec.ofNat 16 (leNat (s.imemBytes a 2)) = s.imemByte (a + 1) ++ s.imemByte a := by
  rw [leNat_imemBytes_two, BitVec.ofNat_toNat, BitVec.setWidth_eq]

/-- The pair of IMEM at `a` (30_encoding R87). -/
def State.imemPair (s : State) (a : Nat) : AcPair := ⟨s.imemByte a, s.imemByte (a + 2) ++ s.imemByte (a + 1)⟩

theorem readPairs_of_le {n a : Nat} (h : a + 3 * n ≤ s.ilen.toNat) :
    readPairs s n a = .ok ((List.range n).map fun p => s.imemPair (a + 3 * p)) := by
  induction n generalizing a with
  | zero => rfl
  | succ n ih =>
    have hrun : leNat (s.imemBytes a 1) = (s.imemByte a).toNat := by simp [State.imemBytes, leNat]
    simp only [readPairs, imemRead_of_le (show a + 1 ≤ s.ilen.toNat by omega),
      imemRead_of_le (show a + 1 + 2 ≤ s.ilen.toNat by omega), ih (show a + 3 + 3 * n ≤ s.ilen.toNat by omega), ok_bind,
      hrun, ofNat_leNat_imemBytes_two, BitVec.ofNat_toNat, BitVec.setWidth_eq, List.range_succ_eq_map, List.map_cons,
      List.map_map]
    have hshift (p : Nat) : a + 3 + 3 * p = a + 3 * (p + 1) := by omega
    simp only [hshift]
    rfl

theorem readRecord_of_le (hhead : s.iptr.toNat + 4 ≤ s.ilen.toNat)
    (hfits : s.iptr.toNat + 4 + 3 * leNat (s.imemBytes (s.iptr.toNat + 2) 2) ≤ s.ilen.toNat) :
    readRecord s = .ok (s.imemByte (s.iptr.toNat + 1) ++ s.imemByte s.iptr.toNat,
      (List.range (leNat (s.imemBytes (s.iptr.toNat + 2) 2))).map fun p =>
        s.imemPair (s.iptr.toNat + 4 + 3 * p)) := by
  simp only [readRecord, imemRead_of_le (show s.iptr.toNat + 2 ≤ s.ilen.toNat by omega),
    imemRead_of_le (show s.iptr.toNat + 2 + 2 ≤ s.ilen.toNat by omega), ok_bind, readPairs_of_le hfits,
    ofNat_leNat_imemBytes_two]
  rfl

/-- A record that is read lies within the valid bytes. -/
theorem le_of_readRecord {v : Half × List AcPair} (h : readRecord s = .ok v) :
    s.iptr.toNat + 4 + 3 * leNat (s.imemBytes (s.iptr.toNat + 2) 2) ≤ s.ilen.toNat := by
  obtain ⟨_, _, h⟩ := bind_eq_ok h
  obtain ⟨n, hn, h⟩ := bind_eq_ok h
  obtain ⟨_, hps, _⟩ := bind_eq_ok h
  obtain ⟨hle, rfl⟩ := imemRead_eq_ok hn
  exact le_of_readPairs hps hle

/-- Settles O48: `readRecord_of_le` where the record fits; where it does not, `le_of_readRecord` and
`readRecord_error`. -/
theorem rdrecReadsTheRecord : Obligations.RdrecReadsTheRecord := by
  refine ⟨rfl, fun s => ?_⟩
  intro B n
  have hexec : exec .rdrec s = whenClear s (settle s ((readRecord s).map fun u => loadRecord u.1 u.2 s)) := rfl
  have hn : leNat (s.imemBytes (s.iptr.toNat + 2) 2) = n := by
    rw [leNat_imemBytes_two, toNat_append_byte]
  have hcap : n ≤ recCap := by rw [← hn]; exact Nat.le_of_lt_succ (leNat_imemBytes_lt s _ 2)
  refine ⟨whenClear_of_pending _, fun hclear hlong => ?_, fun hclear hhead hfits => ?_⟩
  · cases hread : readRecord s with
    | error e =>
      obtain rfl := readRecord_error hread
      exact failsWith_of_read_error hexec hclear hread
    | ok v =>
      have hle := le_of_readRecord hread
      rw [hn] at hle
      omega
  · have hread := readRecord_of_le hhead (hn ▸ hfits)
    rw [hn] at hread
    have hlen : ((List.range n).map fun p => s.imemPair (s.iptr.toNat + 4 + 3 * p)).length = n := by simp
    refine ⟨_, exec_of_read_ok hexec hclear hread, rfl, rfl, ?_, ?_, ?_⟩
    · exact (ofPairs_n_toNat _ (hlen.trans_le hcap)).trans hlen
    · refine (advance_iptr_toNat_of_fits _ _ ?_).trans ?_
      · rw [hlen]; show s.iptr.toNat + _ ≤ s.ilen.toNat; omega
      · rw [hlen]; show s.iptr.toNat + _ = _; omega
    · refine (RecordReg.pairs_ofPairs _ _ _ (hlen.trans_le hcap)).trans ?_
      refine List.map_congr_left fun p _ => ?_
      have hrun : s.iptr.toNat + 4 + 3 * p = s.iptr.toNat + (4 + 3 * p) := by omega
      have hlow : s.iptr.toNat + (4 + 3 * p) + 1 = s.iptr.toNat + (5 + 3 * p) := by omega
      have hhigh : s.iptr.toNat + (4 + 3 * p) + 2 = s.iptr.toNat + (6 + 3 * p) := by omega
      rw [State.imemPair, hrun, hlow, hhigh]

/-! ### RD commands after WR commands -/

/-- The bytes of IMEM depend on nothing else of the state. -/
theorem State.imemBytes_eq_omemBytes {a n : Nat} (h : ∀ x, a ≤ x → x < a + n → u.imemByte x = t.omemByte x) :
    u.imemBytes a n = t.omemBytes a n := by
  refine List.ext_getElem? fun k => ?_
  rw [State.imemBytes_getElem?, State.omemBytes_getElem?]
  split
  · rw [h (a + k) (by omega) (by omega)]
  · rfl

/-- A WR command that leaves no error wrote the bytes of its fields at OPTR. -/
theorem eq_emitted_of_wr {fs : List (Nat × Nat)} (hclear : s.err = 0)
    (h : whenClear s (settle s (emit fs s)) = .next t) (ht : t.err = 0) :
    s.optr.toNat + (fieldsBytes fs).length ≤ s.build.omemSize.toNat ∧ t = s.emitted (fieldsBytes fs) := by
  rw [whenClear_of_clear _ hclear] at h
  by_cases hfits : s.optr.toNat + fieldsLength fs ≤ s.build.omemSize.toNat
  · rw [emit_of_le hfits] at h
    exact ⟨by rwa [fieldsBytes_length], (Host.Outcome.next.inj h).symm⟩
  · rw [emit_of_lt (Nat.lt_of_not_le hfits)] at h
    obtain rfl := Host.Outcome.next.inj h
    rw [raise_of_clear _ hclear, State.setErr_err] at ht
    exact absurd ht (ErrCode.code_ne_zero _)

/-- The unit whose bytes a WR command wrote, copied to IMEM, is what the valid bytes decode to, and ends at the new
OPTR. -/
theorem decode_validFrom_of_wr {fs : List (Nat × Nat)} {i : Instr} (hclear : s.err = 0)
    (h : whenClear s (settle s (emit fs s)) = .next t) (ht : t.err = 0) (hiptr : u.iptr = s.optr)
    (hilen : t.optr.toNat ≤ u.ilen.toNat)
    (hcopy : ∀ a, s.optr.toNat ≤ a → a < t.optr.toNat → u.imemByte a = t.omemByte a)
    (hbytes : fieldsBytes fs = encode i) (hwf : i.wf = true) :
    decode i.format (u.validFrom u.iptr.toNat) = .ok (i, u.validFrom (u.iptr.toNat + i.size))
      ∧ u.iptr.toNat + i.size ≤ u.ilen.toNat ∧ t.optr.toNat = u.iptr.toNat + i.size := by
  obtain ⟨hfits, rfl⟩ := eq_emitted_of_wr hclear h ht
  rw [State.emitted_optr_toNat hfits] at hilen hcopy ⊢
  rw [hbytes] at hilen hcopy hfits ⊢
  rw [encodingHasItsLength] at hilen hcopy ⊢
  rw [hiptr]
  refine ⟨?_, hilen, rfl⟩
  have hunit : u.imemBytes s.optr.toNat i.size = encode i := by
    rw [State.imemBytes_eq_omemBytes hcopy, ← encodingHasItsLength i]
    exact s.omemBytes_emitted (encode i)
  rw [State.validFrom_split hilen, hunit]
  exact decodeOfEncode i _ hwf

theorem fieldsBytes_recordFields_eq_encode (s : State) :
    fieldsBytes (recordFields s) = encode (.record s.record.dc (s.record.pairs s.gen)) := by
  have hpair : (fun p : AcPair => p.run :: halfBytes p.val) = encodePair := by
    funext p
    rw [encodePair, leBytes_toNat_half]
  have hpairs := fieldsBytes_pairs (s.record.pairs s.gen)
  rw [hpair] at hpairs
  simp only [encode, RecordReg.pairs_length, List.append_assoc, ← hpairs]
  rfl

theorem pairs_length_le_recCap (gen : Nat) (r : RecordReg) : (r.pairs gen).length ≤ recCap := by
  rw [RecordReg.pairs_length]
  exact Nat.le_of_lt_succ r.n.isLt

/-- Settles O49: the bytes a WR command writes are its unit's encoding, which decodes to the unit, and the RD command
consumes that unit (`rdRunsTheDecodedUnit`). -/
theorem rdMirrorsWr : Obligations.RdMirrorsWr := by
  intro s t u hclear ht hu hiptr hilen hcopy
  refine ⟨fun h => ?_, fun h => ?_, fun h => ?_⟩
  · have hbytes : fieldsBytes (hdrFields s) = encode (.hdr s.height s.width 3) := rfl
    obtain ⟨hdecode, hfits, hend⟩ := decode_validFrom_of_wr hclear h ht hiptr hilen hcopy hbytes rfl
    have hexec : exec .rdhdr u = exec (.hdr s.height s.width 3) u := (rdRunsTheDecodedUnit u _ _).1 hdecode
    refine ⟨_, hexec.trans (consume_of_fits _ hu hfits), rfl, rfl, rfl, BitVec.eq_of_toNat_eq ?_⟩
    exact (advance_iptr_toNat_of_fits 16 _ hfits).trans hend.symm
  · have hbytes : fieldsBytes (chnFields s) = encode (.chn s.blkcnt) := rfl
    obtain ⟨hdecode, hfits, hend⟩ := decode_validFrom_of_wr hclear h ht hiptr hilen hcopy hbytes rfl
    have hexec : exec .rdchn u = exec (.chn s.blkcnt) u := (rdRunsTheDecodedUnit u _ _).2.1 hdecode
    refine ⟨_, hexec.trans (consume_of_fits _ hu hfits), rfl, BitVec.eq_of_toNat_eq ?_⟩
    exact (advance_iptr_toNat_of_fits 4 _ hfits).trans hend.symm
  · have hcap := pairs_length_le_recCap s.gen s.record
    obtain ⟨hdecode, hfits, hend⟩ := decode_validFrom_of_wr hclear h ht hiptr hilen hcopy
      (fieldsBytes_recordFields_eq_encode s) (decide_eq_true hcap)
    have hexec : exec .rdrec u = exec (.record s.record.dc (s.record.pairs s.gen)) u :=
      (rdRunsTheDecodedUnit u _ _).2.2 hdecode
    refine ⟨_, hexec.trans (consume_of_fits _ hu hfits), rfl, ?_, RecordReg.pairs_ofPairs _ _ _ hcap,
      BitVec.eq_of_toNat_eq ?_⟩
    · exact BitVec.eq_of_toNat_eq ((ofPairs_n_toNat _ hcap).trans (RecordReg.pairs_length ..))
    · exact (advance_iptr_toNat_of_fits _ _ hfits).trans hend.symm

end

end Sys2Proof.Machine
end

section
/-! The transform (40_transform R110 to R115): blocks as 8 by 8 grids, one dot product with a row of the basis table,
the basis table as the cosines of `basisEntry`, and the orthonormality the round trips rest on. -/

namespace Sys2Proof

/-! ### Grids -/

/-- The 8 by 8 grid of a function, row by row. -/
def grid {α : Type} (f : Fin 8 → Fin 8 → α) : List (List α) := List.ofFn fun i => List.ofFn (f i)

theorem transpose_grid {α : Type} (f : Fin 8 → Fin 8 → α) : transpose (grid f) = grid fun i j => f j i := rfl

theorem rowsOf_flatten (rows : List (Fin 8 → XReal)) :
    rowsOf (rows.map List.ofFn).flatten = rows.map List.ofFn := by
  induction rows with
  | nil => rfl
  | cons row rows ih => exact congrArg (List.ofFn row :: ·) ih

/-- The entries of a grid, row after row. -/
theorem flatten_grid {α : Type} (f : Fin 8 → Fin 8 → α) :
    (grid f).flatten = List.ofFn fun k : Fin (8 * 8) => f ⟨k.val / 8, by omega⟩ ⟨k.val % 8, by omega⟩ := by
  have hrow (i j : Fin 8) : (i.val * 8 + j.val) / 8 = i.val := by omega
  have hcol (i j : Fin 8) : (i.val * 8 + j.val) % 8 = j.val := by omega
  simp only [List.ofFn_mul, hrow, hcol]
  rfl

/-- The list of a grid is read by row and column. -/
theorem flatten_grid_getElem? {α : Type} (f : Fin 8 → Fin 8 → α) (u v : Fin 8) :
    (grid f).flatten[(blockIndex u v).val]? = some (f u v) := by
  have hrow : (8 * u.val + v.val) / 8 = u.val := by omega
  have hcol : (8 * u.val + v.val) % 8 = v.val := by omega
  rw [flatten_grid, List.getElem?_ofFn, dif_pos (blockIndex u v).isLt]
  simp only [blockIndex, hrow, hcol]

/-- A block's entries in index order are its rows one after another (10_state R37). -/
theorem toList_eq_flatten_grid {α : Type} (x : Vector α 64) :
    x.toList = (grid fun i j => x[blockIndex i j]).flatten := by
  have hindex (k : Fin (8 * 8)) : blockIndex ⟨k.val / 8, by omega⟩ ⟨k.val % 8, by omega⟩ = k :=
    Fin.ext (Nat.div_add_mod k.val 8)
  simp only [flatten_grid, hindex]
  exact List.ext_getElem (by rw [Vector.length_toList, List.length_ofFn]) fun k _ _ => by
    rw [Vector.getElem_toList, List.getElem_ofFn]
    rfl

theorem rowsOf_toList (x : RealBlock) : rowsOf x.toList = grid fun i j => x[blockIndex i j] := by
  have hrows : (grid fun i j => x[blockIndex i j])
      = (List.ofFn fun (i : Fin 8) (j : Fin 8) => x[blockIndex i j]).map List.ofFn := by
    rw [List.map_ofFn]
    rfl
  rw [toList_eq_flatten_grid, hrows, rowsOf_flatten]

/-! ### One dot product -/

/-- Four times the basis entry an integer of `basisTable` stands for. -/
noncomputable def basisValue : Int → ℝ
  | .ofNat m => twoCos m
  | .negSucc m => -twoCos (m + 1)

/-- An integer that stands for a basis entry: 1 to 7, or −1 to −7. -/
def IsBasisCode (g : Int) : Prop := 1 ≤ g.natAbs ∧ g.natAbs ≤ 7

theorem toReal_basisDot {n : Nat} (g : Fin n → Int) (x : Fin n → XReal) (hg : ∀ j, IsBasisCode (g j)) :
    (basisDot (List.ofFn g) (List.ofFn x)).toReal = ∑ j, basisValue (g j) * (x j).toReal := by
  induction n with
  | zero => simp [basisDot]
  | succ n ih =>
    have htail := ih (fun j => g j.succ) (fun j => x j.succ) fun j => hg j.succ
    obtain ⟨h1, h7⟩ := hg 0
    rw [List.ofFn_succ, List.ofFn_succ, Fin.sum_univ_succ]
    cases hcode : g 0 with
    | ofNat m =>
      rw [hcode] at h1 h7
      rw [basisDot, XReal.toReal_add, htail, XReal.toReal_mulTwoCos _ m h1 h7, basisValue]
      ring
    | negSucc m =>
      rw [hcode] at h1 h7
      rw [basisDot, XReal.toReal_sub, htail, XReal.toReal_mulTwoCos _ (m + 1) h1 h7, basisValue]
      push_cast
      ring

theorem map_transform1_grid (e : Fin 8 → Fin 8 → Int) (f : Fin 8 → Fin 8 → XReal) :
    (grid f).map (transform1 (grid e)) = grid fun i k => basisDot (List.ofFn (e k)) (List.ofFn (f i)) := by
  simp only [grid, List.map_ofFn, transform1, Function.comp_def]

/-- An entry of the two-dimensional transform: the rows along `v`, then the column along `u`. -/
theorem transform2_getElem (e : Fin 8 → Fin 8 → Int) (x : RealBlock) (u v : Fin 8) :
    (transform2 (grid e) x)[blockIndex u v]
      = XReal.smul (1 / 16) (basisDot (List.ofFn (e u)) (List.ofFn fun i =>
        basisDot (List.ofFn (e v)) (List.ofFn fun j => x[blockIndex i j]))) := by
  simp only [transform2, rowsOf_toList, map_transform1_grid, transpose_grid, blockOfList]
  rw [Fin.getElem_fin, Vector.getElem_ofFn, List.getD_eq_getElem?_getD, List.getElem?_map, flatten_grid_getElem?]
  rfl

/-- The two-dimensional transform as a double sum. -/
theorem toReal_transform2 (e : Fin 8 → Fin 8 → Int) (he : ∀ k n, IsBasisCode (e k n)) (x : RealBlock) (u v : Fin 8) :
    ((transform2 (grid e) x)[blockIndex u v]).toReal
      = ∑ i, ∑ j, basisValue (e u i) / 4 * (basisValue (e v j) / 4) * (x[blockIndex i j]).toReal := by
  rw [transform2_getElem, XReal.toReal_smul, toReal_basisDot _ _ (he u), Finset.mul_sum]
  refine Finset.sum_congr rfl fun i _ => ?_
  rw [toReal_basisDot _ _ (he v), Finset.mul_sum, Finset.mul_sum]
  refine Finset.sum_congr rfl fun j _ => ?_
  push_cast
  ring

/-! ### The zero block -/

theorem mulTwoCos_zero (m : Nat) : XReal.zero.mulTwoCos m = XReal.zero := by
  simp only [XReal.mulTwoCos, XReal.zero, Alg.mulTwoCos, Alg.zero, Alg.ofRat]
  split <;> simp

theorem basisDot_zero {n : Nat} (g : Fin n → Int) :
    basisDot (List.ofFn g) (List.ofFn fun _ : Fin n => XReal.zero) = XReal.zero := by
  induction n with
  | zero => simp [basisDot]
  | succ n ih =>
    rw [List.ofFn_succ, List.ofFn_succ]
    cases g 0 with
    | ofNat m => rw [basisDot, ih, mulTwoCos_zero]; simp [XReal.add, XReal.zero, Alg.add, Alg.zero, Alg.ofRat]
    | negSucc m => rw [basisDot, ih, mulTwoCos_zero]; simp [XReal.sub, XReal.zero, Alg.sub, Alg.zero, Alg.ofRat]

theorem XReal.smul_zero (q : ℚ) : XReal.smul q XReal.zero = XReal.zero := by
  simp [XReal.smul, XReal.zero, Alg.smul, Alg.zero, Alg.ofRat]

/-- Every index is that of a row and a column. -/
theorem exists_blockIndex (k : Fin 64) : ∃ i j, k = blockIndex i j :=
  ⟨⟨k.val / 8, by omega⟩, ⟨k.val % 8, by omega⟩, Fin.ext (by simp only [blockIndex]; omega)⟩

/-- Blocks are equal entry by entry. -/
theorem block_ext {α : Type} {x y : Vector α 64} (h : ∀ k : Fin 64, x[k] = y[k]) : x = y :=
  Vector.ext fun k hk => h ⟨k, hk⟩

theorem transform2_zero (e : Fin 8 → Fin 8 → Int) :
    transform2 (grid e) (Vector.replicate 64 XReal.zero) = Vector.replicate 64 XReal.zero := by
  have hzero (k : Fin 64) : (Vector.replicate 64 XReal.zero)[k] = XReal.zero := Vector.getElem_replicate k.isLt
  refine block_ext fun k => ?_
  obtain ⟨u, v, rfl⟩ := exists_blockIndex k
  simp only [transform2_getElem, hzero, basisDot_zero]
  exact XReal.smul_zero _

/-! ### The basis table -/

/-- The integer of `basisTable` for entry `(k, n)`. -/
def basisCode (k n : Fin 8) : Int := (basisTable.getD k.val []).getD n.val 0

theorem basisTable_eq_grid : basisTable = grid basisCode := rfl

theorem isBasisCode_basisCode : ∀ k n, IsBasisCode (basisCode k n) := by
  unfold IsBasisCode
  decide

/-- The cosine is even and has period 32 in sixteenths of a half turn. -/
theorem twoCos_congr {a b : ℤ} (h : 32 ∣ a - b ∨ 32 ∣ a + b) : twoCos a = twoCos b := by
  have hperiod (c z : ℤ) : twoCos (c + 32 * z) = twoCos c := by
    simp only [twoCos]
    rw [show ((c + 32 * z : ℤ) : ℝ) * Real.pi / 16 = c * Real.pi / 16 + z * (2 * Real.pi) by push_cast; ring,
      Real.cos_add_int_mul_two_pi]
  rcases h with ⟨z, hz⟩ | ⟨z, hz⟩
  · rw [show a = b + 32 * z by omega, hperiod]
  · rw [show a = -b + 32 * z by omega, hperiod, twoCos_neg]

/-- An angle whose cosine is the one the integer stands for; `16 − m` is the reflection of `m`. -/
def basisAngle : Int → Int
  | .ofNat m => m
  | .negSucc m => 16 - (m + 1)

theorem twoCos_basisAngle (g : Int) : twoCos (basisAngle g) = basisValue g := by
  cases g with
  | ofNat m => rfl
  | negSucc m => exact twoCos_reflect _

/-- Below the first row the integer of entry `(k, n)` stands for the angle `(2n + 1)k`. -/
theorem basisAngle_congr : ∀ k n : Fin 8, k ≠ 0 →
    (32 : ℤ) ∣ (2 * (n.val : ℤ) + 1) * k.val - basisAngle (basisCode k n)
      ∨ (32 : ℤ) ∣ (2 * (n.val : ℤ) + 1) * k.val + basisAngle (basisCode k n) := by
  decide

/-- `√(1/8)` is a quarter of `2cos(4π/16)`. -/
theorem sqrt_eighth : Real.sqrt (1 / 8) = twoCos 4 / 4 := by
  have hpos := twoCos_pos 4 (by decide) (by decide)
  rw [show (1 / 8 : ℝ) = (twoCos 4 / 4) ^ 2 by rw [div_pow, twoCos_four_sq]; norm_num,
    Real.sqrt_sq (by positivity)]

theorem basisEntry_zero (n : Fin 8) : basisEntry 0 n = twoCos 4 / 4 := by
  rw [basisEntry, if_pos rfl, sqrt_eighth]
  simp

theorem basisEntry_of_ne_zero {k : Fin 8} (hk : k ≠ 0) (n : Fin 8) :
    basisEntry k n = twoCos ((2 * (n.val : ℤ) + 1) * k.val) / 4 := by
  rw [basisEntry, if_neg hk, twoCos]
  push_cast
  ring

/-- The table holds the entries of 40_transform R110. -/
theorem basisValue_basisCode (k n : Fin 8) : basisValue (basisCode k n) / 4 = basisEntry k n := by
  by_cases hk : k = 0
  · subst hk
    have hcode : ∀ n, basisCode 0 n = 4 := by decide
    rw [hcode, basisEntry_zero]
    rfl
  · rw [← twoCos_basisAngle, ← twoCos_congr (basisAngle_congr k n hk), basisEntry_of_ne_zero hk]

theorem toReal_fdctExact (x : RealBlock) (u v : Fin 8) :
    ((fdctExact x)[blockIndex u v]).toReal
      = ∑ i, ∑ j, basisEntry u i * basisEntry v j * (x[blockIndex i j]).toReal := by
  rw [fdctExact, basisTable_eq_grid, toReal_transform2 _ isBasisCode_basisCode]
  simp only [basisValue_basisCode]

theorem toReal_idctExact (x : RealBlock) (i j : Fin 8) :
    ((idctExact x)[blockIndex i j]).toReal
      = ∑ u, ∑ v, basisEntry u i * basisEntry v j * (x[blockIndex u v]).toReal := by
  rw [idctExact, basisTable_eq_grid, transpose_grid, toReal_transform2 _ fun k n => isBasisCode_basisCode n k]
  simp only [basisValue_basisCode]

/-! ### Orthonormality -/

/-- The sine of the `2n`-fold angle; the terms of the sum below are differences of two such. -/
noncomputable def evenSine (m : ℤ) (n : ℕ) : ℝ := Real.sin (2 * n * (m * Real.pi / 16))

theorem sin_mul_twoCos_odd (m : ℤ) (n : ℕ) :
    Real.sin (m * Real.pi / 16) * twoCos ((2 * (n : ℤ) + 1) * m) = evenSine m (n + 1) - evenSine m n := by
  have hnext : 2 * ((n + 1 : ℕ) : ℝ) * (m * Real.pi / 16)
      = (2 * n + 1) * m * Real.pi / 16 + m * Real.pi / 16 := by push_cast; ring
  have hthis : 2 * (n : ℝ) * (m * Real.pi / 16)
      = (2 * n + 1) * m * Real.pi / 16 - m * Real.pi / 16 := by ring
  simp only [evenSine, twoCos, hnext, hthis, Real.sin_add, Real.sin_sub]
  push_cast
  ring

/-- The first and the last sine are 0, of angle 0 and of a whole number of half turns. -/
theorem evenSine_eight_sub_zero (m : ℤ) : evenSine m 8 - evenSine m 0 = 0 := by
  have hwhole : 2 * ((8 : ℕ) : ℝ) * (m * Real.pi / 16) = m * Real.pi := by push_cast; ring
  simp only [evenSine, hwhole, Real.sin_int_mul_pi]
  simp

theorem sin_sixteenth_ne_zero {m : ℤ} (hne : m ≠ 0) (hlo : -16 < m) (hhi : m < 16) :
    Real.sin (m * Real.pi / 16) ≠ 0 := fun hzero => by
  obtain ⟨z, hz⟩ := Real.sin_eq_zero_iff.1 hzero
  have hreal : (16 * z : ℝ) = m := by
    have hpi := Real.pi_ne_zero
    field_simp at hz
    linarith
  have hmult : 16 * z = m := by exact_mod_cast hreal
  omega

/-- The cosines of the odd multiples of an angle that is no whole half turn cancel: times the angle's sine, the sum
telescopes. -/
theorem sum_twoCos_odd {m : ℤ} (hne : m ≠ 0) (hlo : -16 < m) (hhi : m < 16) :
    ∑ n : Fin 8, twoCos ((2 * (n.val : ℤ) + 1) * m) = 0 := by
  refine (mul_eq_zero.1 ?_).resolve_left (sin_sixteenth_ne_zero hne hlo hhi)
  rw [Finset.mul_sum, Fin.sum_univ_eq_sum_range (fun n : ℕ => Real.sin (m * Real.pi / 16)
    * twoCos ((2 * (n : ℤ) + 1) * m)) 8, Finset.sum_congr rfl fun n _ => sin_mul_twoCos_odd m n,
    Finset.sum_range_sub, evenSine_eight_sub_zero]

/-- The first row is a multiple of the sum of a row. -/
theorem sum_basisEntry_zero_mul {l : Fin 8} (hl : l ≠ 0) : ∑ n, basisEntry 0 n * basisEntry l n = 0 := by
  have hval : l.val ≠ 0 := Fin.val_ne_zero_iff.2 hl
  have hproduct (n : Fin 8) :
      basisEntry 0 n * basisEntry l n = twoCos 4 / 16 * twoCos ((2 * (n.val : ℤ) + 1) * l.val) := by
    rw [basisEntry_zero, basisEntry_of_ne_zero hl]
    ring
  rw [Finset.sum_congr rfl fun n _ => hproduct n, ← Finset.mul_sum, sum_twoCos_odd (by omega) (by omega) (by omega),
    mul_zero]

/-- Below the first row a product of entries is a sum of two cosines, each of which cancels over the row unless the
rows are the same. -/
theorem sum_basisEntry_mul_of_ne_zero {k l : Fin 8} (hk : k ≠ 0) (hl : l ≠ 0) :
    ∑ n, basisEntry k n * basisEntry l n = if k = l then 1 else 0 := by
  have hval : k.val ≠ 0 := Fin.val_ne_zero_iff.2 hk
  have hproduct (n : Fin 8) : basisEntry k n * basisEntry l n
      = (twoCos ((2 * (n.val : ℤ) + 1) * (k.val + l.val : ℤ)) + twoCos ((2 * (n.val : ℤ) + 1) * (k.val - l.val : ℤ)))
        / 16 := by
    rw [basisEntry_of_ne_zero hk, basisEntry_of_ne_zero hl, div_mul_div_comm, twoCos_mul, ← mul_add, ← mul_sub]
    norm_num
  have hplus := sum_twoCos_odd (m := k.val + l.val) (by omega) (by omega) (by omega)
  rw [Finset.sum_congr rfl fun n _ => hproduct n, ← Finset.sum_div, Finset.sum_add_distrib, hplus, zero_add]
  by_cases hkl : k = l
  · subst hkl
    norm_num [twoCos_zero]
  · rw [if_neg hkl, sum_twoCos_odd (by omega) (by omega) (by omega), zero_div]

/-- The basis is orthonormal (40_transform R115). -/
theorem sum_basisEntry_mul (k l : Fin 8) : ∑ n, basisEntry k n * basisEntry l n = if k = l then 1 else 0 := by
  by_cases hk : k = 0
  · subst hk
    by_cases hl : l = 0
    · subst hl
      have hsquare : twoCos 4 / 4 * (twoCos 4 / 4) = 1 / 8 := by
        rw [div_mul_div_comm, ← pow_two, twoCos_four_sq]
        norm_num
      simp [basisEntry_zero, hsquare]
    · rw [sum_basisEntry_zero_mul hl, if_neg (Ne.symm hl)]
  · by_cases hl : l = 0
    · subst hl
      simp only [mul_comm (basisEntry k _)]
      rw [sum_basisEntry_zero_mul hk, if_neg hk]
    · exact sum_basisEntry_mul_of_ne_zero hk hl

/-- The basis as a matrix. -/
noncomputable def basisMatrix : Matrix (Fin 8) (Fin 8) ℝ := Matrix.of basisEntry

theorem basisMatrix_mul_transpose : basisMatrix * basisMatrix.transpose = 1 := by
  ext k l
  simp only [Matrix.mul_apply, Matrix.transpose_apply, Matrix.one_apply]
  exact sum_basisEntry_mul k l

theorem basisMatrix_transpose_mul : basisMatrix.transpose * basisMatrix = 1 :=
  mul_eq_one_comm.1 basisMatrix_mul_transpose

/-- A block's real numbers as a matrix. -/
noncomputable def blockMatrix (x : RealBlock) : Matrix (Fin 8) (Fin 8) ℝ :=
  Matrix.of fun i j => (x[blockIndex i j]).toReal

theorem blockMatrix_fdctExact (x : RealBlock) :
    blockMatrix (fdctExact x) = basisMatrix * blockMatrix x * basisMatrix.transpose := by
  ext u v
  simp only [blockMatrix, Matrix.of_apply, toReal_fdctExact, Matrix.mul_apply, Matrix.transpose_apply, basisMatrix,
    Finset.sum_mul]
  rw [Finset.sum_comm]
  exact Finset.sum_congr rfl fun _ _ => Finset.sum_congr rfl fun _ _ => by ring

theorem blockMatrix_idctExact (x : RealBlock) :
    blockMatrix (idctExact x) = basisMatrix.transpose * blockMatrix x * basisMatrix := by
  ext i j
  simp only [blockMatrix, Matrix.of_apply, toReal_idctExact, Matrix.mul_apply, Matrix.transpose_apply, basisMatrix,
    Finset.sum_mul]
  rw [Finset.sum_comm]
  exact Finset.sum_congr rfl fun _ _ => Finset.sum_congr rfl fun _ _ => by ring

theorem blockMatrix_idct_fdct (x : RealBlock) : blockMatrix (idctExact (fdctExact x)) = blockMatrix x := by
  rw [blockMatrix_idctExact, blockMatrix_fdctExact]
  calc basisMatrix.transpose * (basisMatrix * blockMatrix x * basisMatrix.transpose) * basisMatrix
      = (basisMatrix.transpose * basisMatrix) * blockMatrix x * (basisMatrix.transpose * basisMatrix) := by
        simp only [Matrix.mul_assoc]
    _ = blockMatrix x := by rw [basisMatrix_transpose_mul, Matrix.one_mul, Matrix.mul_one]

theorem blockMatrix_fdct_idct (x : RealBlock) : blockMatrix (fdctExact (idctExact x)) = blockMatrix x := by
  rw [blockMatrix_fdctExact, blockMatrix_idctExact]
  calc basisMatrix * (basisMatrix.transpose * blockMatrix x * basisMatrix) * basisMatrix.transpose
      = (basisMatrix * basisMatrix.transpose) * blockMatrix x * (basisMatrix * basisMatrix.transpose) := by
        simp only [Matrix.mul_assoc]
    _ = blockMatrix x := by rw [basisMatrix_mul_transpose, Matrix.one_mul, Matrix.mul_one]

/-- Blocks with one matrix have one real number in each entry. -/
theorem toReal_eq_of_blockMatrix_eq {x y : RealBlock} (h : blockMatrix x = blockMatrix y) (k : Fin 64) :
    (x[k]).toReal = (y[k]).toReal := by
  obtain ⟨i, j, rfl⟩ := exists_blockIndex k
  exact congrFun (congrFun h i) j

theorem toReal_idct_fdct (x : RealBlock) (k : Fin 64) : ((idctExact (fdctExact x))[k]).toReal = (x[k]).toReal :=
  toReal_eq_of_blockMatrix_eq (blockMatrix_idct_fdct x) k

theorem toReal_fdct_idct (x : RealBlock) (k : Fin 64) : ((fdctExact (idctExact x))[k]).toReal = (x[k]).toReal :=
  toReal_eq_of_blockMatrix_eq (blockMatrix_fdct_idct x) k

namespace Machine

/-! ### The two commands -/

theorem execThen_next (t : State) (i : Instr) : execThen (.next t) i = exec i t := rfl

section
variable {s : State}

theorem exec_fdct_of_clear (h : s.err = 0) : exec .fdct s = .next (fdctBody s) := whenClear_of_clear _ h

theorem exec_idct_of_clear (h : s.err = 0) : exec .idct s = .next (idctBody s) := whenClear_of_clear _ h

theorem fdctBody_cb_of_exact (h : s.build.numerics = .exact) : (fdctBody s).cb = fdctExact s.xb := by
  rw [fdctBody_cb, h, Numerics.fdct]

theorem idctBody_xb_of_exact (h : s.build.numerics = .exact) : (idctBody s).xb = idctExact s.cb := by
  rw [idctBody_xb, h, Numerics.idct]

end

/-- Settles O23: `toReal_fdctExact`. -/
theorem fdctIsTheCosineTransform : Obligations.FdctIsTheCosineTransform := by
  intro s hclear hexact
  refine ⟨_, exec_fdct_of_clear hclear, rfl, fun u v => ?_⟩
  rw [fdctBody_cb_of_exact hexact]
  exact toReal_fdctExact s.xb u v

/-- Settles O24: `toReal_idctExact`. -/
theorem idctIsTheInverseSum : Obligations.IdctIsTheInverseSum := by
  intro s hclear hexact
  refine ⟨_, exec_idct_of_clear hclear, rfl, fun i j => ?_⟩
  rw [idctBody_xb_of_exact hexact]
  exact toReal_idctExact s.cb i j

/-- Settles O25: the basis matrix and its transpose are inverse to each other. -/
theorem transformsUndoEachOther : Obligations.TransformsUndoEachOther := by
  intro s hclear hexact
  refine ⟨⟨idctBody (fdctBody s), ?_, fun k => ?_⟩, ⟨fdctBody (idctBody s), ?_, fun k => ?_⟩⟩
  · rw [exec_fdct_of_clear hclear]
    exact exec_idct_of_clear hclear
  · rw [idctBody_xb_of_exact (s := fdctBody s) hexact, fdctBody_cb_of_exact hexact]
    exact toReal_idct_fdct s.xb k
  · rw [exec_idct_of_clear hclear]
    exact exec_fdct_of_clear hclear
  · rw [fdctBody_cb_of_exact (s := idctBody s) hexact, idctBody_xb_of_exact hexact]
    exact toReal_fdct_idct s.cb k

end Machine

end Sys2Proof
end

section
/-! NUMERICS and the quantizer (00_scope R13; 41_quantization R123 to R127): the exact NUMERICS has the named
properties, and a lane of QUANT after DEQUANT gives its value back wherever NP4 holds of it. -/

namespace Sys2Proof

/-! ### Saturation -/

/-- `sat16` clamps (00_scope R10). -/
theorem sat16_toInt (z : Int) : (sat16 z).toInt = max (-32768) (min 32767 z) := by
  unfold sat16
  split
  case isTrue hlow =>
    have hvalue : (BitVec.ofInt 16 (-32768)).toInt = -32768 := by decide
    omega
  case isFalse hlow =>
    split
    case isTrue hhigh =>
      have hvalue : (BitVec.ofInt 16 32767).toInt = 32767 := by decide
      omega
    case isFalse hhigh =>
      rw [BitVec.toInt_ofInt, Int.bmod_eq_of_le (by omega) (by omega)]
      omega

/-- An `int16` value is not clamped. -/
theorem sat16_toInt_self (q : Half) : sat16 q.toInt = q := by
  have hlow := BitVec.le_toInt q
  have hhigh := BitVec.toInt_lt (x := q)
  refine BitVec.eq_of_toInt_eq ?_
  rw [sat16_toInt]
  omega

/-! ### The named properties -/

/-- The exact quotient of an exact multiple is the factor, and rounding leaves it. -/
theorem roundQuot_smul (q : Int) {t : XReal} (ht : 0 < t.toReal) : (XReal.smul q t).roundQuot t = q := by
  have hround := XReal.roundQuot_spec (XReal.smul q t) t ht.ne'
  have hquot : (XReal.smul q t).toReal / t.toReal = q := by
    rw [XReal.toReal_smul, mul_div_cancel_right₀ _ ht.ne']
    push_cast
    rfl
  rw [hquot] at hround
  exact hround.unique (IsRoundHe.intCast q)

theorem XReal.zero_smul (t : XReal) : XReal.smul 0 t = XReal.zero := by
  cases t with
  | alg a => simp [XReal.smul, XReal.zero, Alg.smul, Alg.zero, Alg.ofRat]
  | named _ | sum _ _ | prod _ _ => rfl

theorem exact_zeroBlock :
    fdctExact (Vector.replicate 64 XReal.zero) = Vector.replicate 64 XReal.zero
      ∧ idctExact (Vector.replicate 64 XReal.zero) = Vector.replicate 64 XReal.zero := by
  rw [fdctExact, idctExact, basisTable_eq_grid, transpose_grid]
  exact ⟨transform2_zero _, transform2_zero _⟩

theorem exact_lawful : Numerics.exact.Lawful where
  roundTrip := fun b k => by
    have hback : ((Numerics.exact.idct (Numerics.exact.fdct b))[k]).toReal = (b[k]).toReal := toReal_idct_fdct b k
    rw [hback, sub_self, abs_zero]
    exact XReal.toReal_zero.ge
  zeroBlock := exact_zeroBlock
  tableInverse := fun q _ ht => roundQuot_smul q.toInt ht
  zeroLane := fun t _ => t.zero_smul
  entryPos := fun _ ht => ht

/-- Another implementation has what `NumericsImpl` binds it to. -/
theorem impl_lawful (id : Nat) : (Numerics.impl id).Lawful where
  roundTrip := (Config.numerics id).np2
  zeroBlock := (Config.numerics id).np3
  tableInverse := fun q t ht => (Config.numerics id).np4 q t ht.1
  zeroLane := fun _ ht => ht.2
  entryPos := fun t ht => (Config.numerics id).entry_pos t ht.1

theorem numerics_lawful (num : Numerics) : num.Lawful := by
  cases num with
  | exact => exact exact_lawful
  | impl id => exact impl_lawful id

/-- Settles O26: `numerics_lawful`; the tolerance and the entries of the reference NUMERICS are its definitions. -/
theorem referenceNumericsIsLawful : Obligations.ReferenceNumericsIsLawful :=
  ⟨numerics_lawful, rfl, fun _ => Iff.rfl⟩

/-! ### Lanes -/

/-- A lane comes back where NP4 holds of its operands (41_quantization R127). -/
theorem quantizeLane_dequantizeLane {num : Numerics} {q : Half} {t : XReal}
    (h : num.qdiv (num.qmul q t) t = q.toInt) : quantizeLane num (dequantizeLane num q t) t = q := by
  rw [quantizeLane, dequantizeLane, h, sat16_toInt_self]

namespace Machine

section
variable {s : State}

theorem exec_quant_of_clear (h : s.err = 0) : exec .quant s = .next (quantBody s) := whenClear_of_clear _ h

theorem exec_dequant_of_clear (h : s.err = 0) : exec .dequant s = .next (dequantBody s) := whenClear_of_clear _ h

theorem quantBody_qb_getElem (s : State) (k : Fin 64) :
    (quantBody s).qb[k] = quantizeLane s.build.numerics s.cb[k] s.qt[k] := by
  rw [quantBody_qb, Fin.getElem_fin, Vector.getElem_zipWith]
  rfl

theorem dequantBody_cb_getElem (s : State) (k : Fin 64) :
    (dequantBody s).cb[k] = dequantizeLane s.build.numerics s.qb[k] s.qt[k] := by
  rw [dequantBody_cb, Fin.getElem_fin, Vector.getElem_zipWith]
  rfl

theorem exec_dequant_quant_of_clear (h : s.err = 0) :
    execThen (exec .dequant s) .quant = .next (quantBody (dequantBody s)) := by
  rw [exec_dequant_of_clear h, execThen_next]
  exact exec_quant_of_clear h

/-- A lane of QUANT after DEQUANT, whatever the other lanes do. -/
theorem quantBody_dequantBody_qb_getElem {k : Fin 64}
    (h : s.build.numerics.qdiv (s.build.numerics.qmul s.qb[k] s.qt[k]) s.qt[k] = (s.qb[k]).toInt) :
    (quantBody (dequantBody s)).qb[k] = s.qb[k] := by
  rw [quantBody_qb_getElem, dequantBody_cb_getElem]
  exact quantizeLane_dequantizeLane h

/-- QUANT after DEQUANT under a table the NUMERICS may have. -/
theorem quantBody_dequantBody_qb (h : s.tablePositive) : (quantBody (dequantBody s)).qb = s.qb :=
  block_ext fun k => quantBody_dequantBody_qb_getElem ((numerics_lawful _).tableInverse _ _ (h k))

end

/-- Settles O27: each of the four commands is its body, which applies one function. -/
theorem blockCommandsApplyNumerics : Obligations.BlockCommandsApplyNumerics := by
  intro s hclear
  exact ⟨exec_fdct_of_clear hclear, exec_idct_of_clear hclear,
    ⟨_, exec_quant_of_clear hclear, rfl, quantBody_qb_getElem s⟩,
    ⟨_, exec_dequant_of_clear hclear, rfl, dequantBody_cb_getElem s⟩⟩

/-- Settles O29: the integer is the lane's `roundQuot`, clamped by `sat16_toInt`. -/
theorem quantRoundsTheQuotient : Obligations.QuantRoundsTheQuotient := by
  intro s hclear hexact htable
  refine ⟨_, exec_quant_of_clear hclear, rfl, fun k => ?_⟩
  have hpos : 0 < (s.qt[k]).toReal := (numerics_lawful _).entryPos _ (htable k)
  obtain ⟨hnear, heven⟩ := XReal.roundQuot_spec s.cb[k] s.qt[k] hpos.ne'
  refine ⟨_, hnear, heven, ?_⟩
  rw [quantBody_qb_getElem, hexact, quantizeLane, sat16_toInt]
  rfl

/-- Settles O30: `XReal.toReal_smul` in each lane. -/
theorem dequantIsTheProduct : Obligations.DequantIsTheProduct := by
  intro s hclear hexact
  refine ⟨_, exec_dequant_of_clear hclear, rfl, fun k => ?_⟩
  rw [dequantBody_cb_getElem, hexact]
  exact (XReal.toReal_smul _ _).trans (by push_cast; rfl)

/-- Settles O31: lane by lane, NP4 of a table entry being `Numerics.Lawful.tableInverse`. -/
theorem quantUndoesDequant : Obligations.QuantUndoesDequant :=
  ⟨fun _ hclear htable => ⟨_, exec_dequant_quant_of_clear hclear, quantBody_dequantBody_qb htable⟩,
    fun _ _ hclear hlane => ⟨_, exec_dequant_quant_of_clear hclear, quantBody_dequantBody_qb_getElem hlane⟩⟩

end Machine

end Sys2Proof
end

section
/-! Zigzag (42_zigzag R132 to R134): the order as a map of indices, a bijection where no position stands twice; ZZFWD
reads along it and ZZINV writes along it. -/

namespace Sys2Proof.Machine

/-- The index of the `k`-th position of the order. -/
def orderIndex (zz : Vector Coord 64) (k : Fin 64) : Fin 64 := (zz[k]).index

theorem Coord.index_injective : Function.Injective Coord.index := by
  intro c d h
  obtain ⟨r, x⟩ := c
  obtain ⟨r', x'⟩ := d
  have hindex := congrArg Fin.val h
  simp only [Coord.index] at hindex
  have hrow : r = r' := Fin.ext (by omega)
  have hcol : x = x' := Fin.ext (by omega)
  rw [hrow, hcol]

section
variable {zz : Vector Coord 64}

theorem orderIndex_bijective (h : zz.toList.Nodup) : Function.Bijective (orderIndex zz) := by
  refine Finite.injective_iff_bijective.1 fun j k hjk => Fin.ext ?_
  have hcoord : zz.toList[j.val]'(by simp) = zz.toList[k.val]'(by simp) := by
    rw [Vector.getElem_toList, Vector.getElem_toList]
    exact Coord.index_injective hjk
  exact (h.getElem_inj_iff).1 hcoord

theorem toZigzag_getElem (zz : Vector Coord 64) (q : IntBlock) (k : Fin 64) :
    (toZigzag zz q)[k] = q[orderIndex zz k] := by
  rw [toZigzag, Fin.getElem_fin, Vector.getElem_map]
  rfl

/-! ### Writing along the order -/

/-- A position none of the writes is at keeps its value. -/
theorem foldl_set_getElem_of_ne {l : List (Coord × Half)} {q : IntBlock} {j : Fin 64}
    (h : ∀ w ∈ l, w.1.index ≠ j) : (l.foldl (fun q w => q.set w.1.index w.2) q)[j] = q[j] := by
  induction l generalizing q with
  | nil => rfl
  | cons w l ih =>
    obtain ⟨hw, hl⟩ := List.forall_mem_cons.1 h
    rw [List.foldl_cons, ih hl, getElem_set_eq_ite, if_neg hw.symm]

/-- Where no two writes are at one position, each value stands where it was written. -/
theorem foldl_set_getElem_of_mem {l : List (Coord × Half)} {q : IntBlock} {w : Coord × Half}
    (hl : (l.map Prod.fst).Nodup) (hw : w ∈ l) :
    (l.foldl (fun q w => q.set w.1.index w.2) q)[w.1.index] = w.2 := by
  induction l generalizing q with
  | nil => exact nomatch hw
  | cons v l ih =>
    rw [List.map_cons, List.nodup_cons] at hl
    obtain ⟨hv, hl⟩ := hl
    rw [List.foldl_cons]
    rcases List.mem_cons.1 hw with rfl | hw
    · rw [foldl_set_getElem_of_ne, getElem_set_eq_ite, if_pos rfl]
      exact fun x hx heq => hv (Coord.index_injective heq ▸ List.mem_map_of_mem hx)
    · exact ih hl hw

theorem fromZigzag_getElem (h : zz.toList.Nodup) (z q : IntBlock) (k : Fin 64) :
    (fromZigzag zz z q)[orderIndex zz k] = z[k] := by
  have hfst : ((zz.toList.zip z.toList).map Prod.fst).Nodup := by
    rwa [List.map_fst_zip (by rw [Vector.length_toList, Vector.length_toList])]
  have hmem : (zz[k], z[k]) ∈ zz.toList.zip z.toList := by
    refine List.mem_iff_getElem.2 ⟨k.val, ?_, ?_⟩
    · rw [List.length_zip, Vector.length_toList, Vector.length_toList]
      exact k.isLt
    · rw [List.getElem_zip, Vector.getElem_toList, Vector.getElem_toList]
      rfl
  rw [fromZigzag]
  exact foldl_set_getElem_of_mem (w := (zz[k], z[k])) hfst hmem

/-! ### Round trips -/

theorem fromZigzag_toZigzag (h : zz.toList.Nodup) (q q' : IntBlock) : fromZigzag zz (toZigzag zz q) q' = q := by
  refine block_ext fun j => ?_
  obtain ⟨k, rfl⟩ := (orderIndex_bijective h).surjective j
  rw [fromZigzag_getElem h, toZigzag_getElem]

theorem toZigzag_fromZigzag (h : zz.toList.Nodup) (z q : IntBlock) : toZigzag zz (fromZigzag zz z q) = z :=
  block_ext fun k => by rw [toZigzag_getElem, fromZigzag_getElem h]

/-- Reading along a bijective order permutes the values. -/
theorem toZigzag_perm (h : zz.toList.Nodup) (q : IntBlock) : (toZigzag zz q).toList.Perm q.toList := by
  have hlist (x : IntBlock) : x.toList = List.ofFn fun k : Fin 64 => x[k] :=
    List.ext_getElem (by rw [Vector.length_toList, List.length_ofFn]) fun k _ _ => by
      rw [Vector.getElem_toList, List.getElem_ofFn]
      rfl
  rw [hlist, hlist q]
  simp only [toZigzag_getElem]
  exact Equiv.Perm.ofFn_comp_perm (Equiv.ofBijective _ (orderIndex_bijective h)) fun k => q[k]

end

section
variable {s : State}

theorem exec_zzfwd_of_clear (h : s.err = 0) : exec .zzfwd s = .next (zzfwdBody s) := whenClear_of_clear _ h

theorem exec_zzinv_of_clear (h : s.err = 0) : exec .zzinv s = .next (zzinvBody s) := whenClear_of_clear _ h

end

/-- Settles O33: `toZigzag_getElem` and `fromZigzag_getElem`. -/
theorem zigzagCommandsReindex : Obligations.ZigzagCommandsReindex := by
  intro s hclear
  exact ⟨⟨_, exec_zzfwd_of_clear hclear, rfl, toZigzag_getElem s.zz s.qb⟩,
    ⟨_, exec_zzinv_of_clear hclear, rfl, fun horder => fromZigzag_getElem horder s.zb s.qb⟩⟩

/-- Settles O34: the two are inverse along the order, and what ZZINV wrote is read back by ZZFWD. -/
theorem zigzagRoundTrips : Obligations.ZigzagRoundTrips := by
  intro s hclear horder
  refine ⟨⟨zzinvBody (zzfwdBody s), ?_, fromZigzag_toZigzag horder s.qb s.qb⟩,
    ⟨zzfwdBody (zzinvBody s), ?_, toZigzag_fromZigzag horder s.zb s.qb⟩,
    ⟨_, exec_zzfwd_of_clear hclear, toZigzag_perm horder s.qb⟩, ⟨_, exec_zzinv_of_clear hclear, ?_⟩⟩
  · rw [exec_zzfwd_of_clear hclear, execThen_next]
    exact exec_zzinv_of_clear hclear
  · rw [exec_zzinv_of_clear hclear, execThen_next]
    exact exec_zzfwd_of_clear hclear
  · have hperm := toZigzag_perm horder (fromZigzag s.zz s.zb s.qb)
    rw [toZigzag_fromZigzag horder] at hperm
    exact hperm.symm

end Sys2Proof.Machine
end

section
/-! The run-length coder (43_rle_block_codec R141 to R144): where the walk of RLEDEC puts each pair, which pairs the
loop of RLEENC makes, and that the one undoes the other. -/

namespace Sys2Proof.Machine

/-! ### Positions -/

/-- The position pair `p` has when the walk starts at cursor `cur`. -/
def positionFrom (cur : Nat) (ac : List AcPair) (p : Nat) : Nat :=
  cur + ((ac.take p).map fun q => q.run.toNat + 1).sum + (ac.getD p ⟨0, 0⟩).run.toNat

theorem pairPosition_eq (ac : List AcPair) (p : Nat) : pairPosition ac p = positionFrom 1 ac p := rfl

theorem positionFrom_cons_zero (cur : Nat) (q : AcPair) (ac : List AcPair) :
    positionFrom cur (q :: ac) 0 = cur + q.run.toNat := rfl

theorem positionFrom_cons_succ (cur : Nat) (q : AcPair) (ac : List AcPair) (p : Nat) :
    positionFrom cur (q :: ac) (p + 1) = positionFrom (cur + q.run.toNat + 1) ac p := by
  simp only [positionFrom, List.take_succ_cons, List.map_cons, List.sum_cons, List.getD_cons_succ]
  omega

/-- No pair stands before the cursor, nor before the end of the first run. -/
theorem le_positionFrom_cons (cur : Nat) (q : AcPair) (ac : List AcPair) (p : Nat) :
    cur + q.run.toNat ≤ positionFrom cur (q :: ac) p := by
  cases p with
  | zero => exact le_rfl
  | succ p =>
    rw [positionFrom_cons_succ, positionFrom]
    omega

theorem le_positionFrom (cur : Nat) (ac : List AcPair) (p : Nat) : cur ≤ positionFrom cur ac p := by
  unfold positionFrom
  omega

/-! ### RLEDEC -/

/-- After the walk position `k` holds the value of a pair that stands there, or what it held before. -/
theorem rleWalk_getElem (ac : List AcPair) (cur : Nat) (z : IntBlock) (k : Fin 64) :
    (∃ p, p < ac.length ∧ positionFrom cur ac p = k.val ∧ ac[p]?.map AcPair.val = some (rleWalk ac cur z)[k])
      ∨ ((∀ p, p < ac.length → positionFrom cur ac p ≠ k.val) ∧ (rleWalk ac cur z)[k] = z[k]) := by
  induction ac generalizing cur z with
  | nil => exact .inr ⟨fun _ hp => absurd hp (Nat.not_lt_zero _), rfl⟩
  | cons q ac ih =>
    by_cases hcur : cur + q.run.toNat < 64
    · have hwalk : rleWalk (q :: ac) cur z
          = rleWalk ac (cur + q.run.toNat + 1) (z.set (cur + q.run.toNat) q.val) := dif_pos hcur
      rw [hwalk]
      rcases ih (cur + q.run.toNat + 1) (z.set (cur + q.run.toNat) q.val) with ⟨p, hp, hpos, hval⟩ | ⟨hnone, hkeep⟩
      · exact .inl ⟨p + 1, Nat.succ_lt_succ hp, by rw [positionFrom_cons_succ, hpos], hval⟩
      · have hset := getElem_set_eq_ite z ⟨cur + q.run.toNat, hcur⟩ k q.val
        by_cases hk : k = ⟨cur + q.run.toNat, hcur⟩
        · rw [if_pos hk] at hset
          exact .inl ⟨0, Nat.succ_pos _, congrArg Fin.val hk.symm, congrArg some (hkeep.trans hset).symm⟩
        · rw [if_neg hk] at hset
          refine .inr ⟨fun p hp => ?_, hkeep.trans hset⟩
          cases p with
          | zero => exact fun heq => hk (Fin.ext heq.symm)
          | succ p =>
            rw [positionFrom_cons_succ]
            exact hnone p (Nat.lt_of_succ_lt_succ hp)
    · have hwalk : rleWalk (q :: ac) cur z = z := dif_neg hcur
      rw [hwalk]
      refine .inr ⟨fun p _ => ?_, rfl⟩
      have := le_positionFrom_cons cur q ac p
      omega

/-- The block the walk starts from. -/
theorem rleStart_getElem (dc : Half) (k : Fin 64) :
    ((Vector.replicate 64 (0 : Half)).set 0 dc)[k] = if k = 0 then dc else 0 := by
  have hset := getElem_set_eq_ite (Vector.replicate 64 (0 : Half)) 0 k dc
  have hzero : (Vector.replicate 64 (0 : Half))[k] = 0 := Vector.getElem_replicate k.isLt
  rw [hzero] at hset
  exact hset

/-- RLEDEC's values: each position holds the value of a pair that stands there, or 0. -/
theorem rleDecode_getElem (dc : Half) (ac : List AcPair) {k : Fin 64} (hk : 0 < k.val) :
    (∃ p, p < ac.length ∧ pairPosition ac p = k.val ∧ ac[p]?.map AcPair.val = some (rleDecode dc ac)[k])
      ∨ ((∀ p, p < ac.length → pairPosition ac p ≠ k.val) ∧ (rleDecode dc ac)[k] = 0) := by
  have hstart := rleStart_getElem dc k
  rw [if_neg fun h => hk.ne' (congrArg Fin.val h)] at hstart
  exact (rleWalk_getElem ac 1 _ k).imp_right (And.imp_right fun hkeep => hkeep.trans hstart)

theorem rleDecode_zero (dc : Half) (ac : List AcPair) : (rleDecode dc ac)[(0 : Fin 64)] = dc := by
  rcases rleWalk_getElem ac 1 ((Vector.replicate 64 0).set 0 dc) 0 with ⟨p, _, hpos, _⟩ | ⟨_, hkeep⟩
  · have hle := le_positionFrom 1 ac p
    rw [hpos] at hle
    exact nomatch hle
  · exact hkeep.trans (rleStart_getElem dc 0)

/-! ### RLEENC -/

section
variable {zs : List Half} {run : Nat}

/-- Short of the forced flush a zero lengthens the run. -/
theorem rleLoop_cons_zero (zs : List Half) (h : run + 1 ≠ 255) : rleLoop (0 :: zs) run = rleLoop zs (run + 1) := by
  rw [rleLoop, if_pos rfl, if_neg h]

theorem rleLoop_cons_of_ne {z : Half} (zs : List Half) (run : Nat) (h : z ≠ 0) :
    rleLoop (z :: zs) run = ⟨BitVec.ofNat 8 run, z⟩ :: rleLoop zs 0 := by
  rw [rleLoop, if_neg h]

/-- The values are the nonzero ones in order, each with a run no longer than the zeros there are. -/
theorem rleLoop_values (h : run + zs.length ≤ 63) :
    (rleLoop zs run).map AcPair.val = zs.filter (fun z => z ≠ 0)
      ∧ ∀ q ∈ rleLoop zs run, q.val ≠ 0 ∧ q.run.toNat ≤ 62 := by
  induction zs generalizing run with
  | nil => exact ⟨rfl, nofun⟩
  | cons z zs ih =>
    rw [List.length_cons] at h
    by_cases hz : z = 0
    · subst hz
      rw [rleLoop_cons_zero zs (by omega)]
      exact ih (by omega)
    · obtain ⟨hvalues, hruns⟩ := ih (run := 0) (by omega)
      rw [rleLoop_cons_of_ne zs run hz]
      have hkeep : (z :: zs).filter (fun z => z ≠ 0) = z :: zs.filter (fun z => z ≠ 0) :=
        List.filter_cons_of_pos (by simpa using hz)
      refine ⟨by rw [hkeep, List.map_cons, hvalues], List.forall_mem_cons.2 ⟨⟨hz, ?_⟩, hruns⟩⟩
      rw [BitVec.toNat_ofNat]
      omega

/-- Each pair stands where its value does: the first value of `zs` is `run` beyond the cursor. -/
theorem rleLoop_positions (h : run + zs.length ≤ 63) (cur p : Nat) (hp : p < (rleLoop zs run).length) :
    ∃ j, positionFrom cur (rleLoop zs run) p = cur + run + j ∧ zs[j]? = (rleLoop zs run)[p]?.map AcPair.val := by
  induction zs generalizing run cur p with
  | nil => exact nomatch hp
  | cons z zs ih =>
    rw [List.length_cons] at h
    by_cases hz : z = 0
    · subst hz
      rw [rleLoop_cons_zero zs (by omega)] at hp ⊢
      obtain ⟨j, hpos, hval⟩ := ih (by omega) cur p hp
      exact ⟨j + 1, by omega, hval⟩
    · rw [rleLoop_cons_of_ne zs run hz] at hp ⊢
      have hrun : (BitVec.ofNat 8 run).toNat = run := Nat.mod_eq_of_lt (by omega)
      cases p with
      | zero => exact ⟨0, by rw [positionFrom_cons_zero, hrun]; rfl, rfl⟩
      | succ p =>
        obtain ⟨j, hpos, hval⟩ := ih (run := 0) (by omega) (cur + run + 1) p (Nat.lt_of_succ_lt_succ hp)
        refine ⟨j + 1, ?_, hval⟩
        rw [positionFrom_cons_succ, hrun, hpos]
        omega

/-- Every nonzero value has a pair. -/
theorem rleLoop_complete (h : run + zs.length ≤ 63) (cur j : Nat) {z : Half} (hj : zs[j]? = some z) (hz : z ≠ 0) :
    ∃ p, p < (rleLoop zs run).length ∧ positionFrom cur (rleLoop zs run) p = cur + run + j := by
  induction zs generalizing run cur j with
  | nil => exact nomatch hj
  | cons y zs ih =>
    rw [List.length_cons] at h
    by_cases hy : y = 0
    · subst hy
      rw [rleLoop_cons_zero zs (by omega)]
      cases j with
      | zero => exact absurd (Option.some.inj hj).symm hz
      | succ j =>
        obtain ⟨p, hp, hpos⟩ := ih (run := run + 1) (by omega) cur j hj
        exact ⟨p, hp, by omega⟩
    · rw [rleLoop_cons_of_ne zs run hy]
      have hrun : (BitVec.ofNat 8 run).toNat = run := Nat.mod_eq_of_lt (by omega)
      cases j with
      | zero => exact ⟨0, Nat.succ_pos _, by rw [positionFrom_cons_zero, hrun]; rfl⟩
      | succ j =>
        obtain ⟨p, hp, hpos⟩ := ih (run := 0) (by omega) (cur + run + 1) j hj
        refine ⟨p + 1, Nat.succ_lt_succ hp, ?_⟩
        rw [positionFrom_cons_succ, hrun, hpos]
        omega

end

section
variable (z : IntBlock)

theorem rleTail_length : 0 + (z.toList.drop 1).length ≤ 63 := by
  rw [List.length_drop, Vector.length_toList]

theorem rleEncode_length : (rleEncode z).length ≤ recCap := by
  have hvalues := congrArg List.length (rleLoop_values (rleTail_length z)).1
  have hfilter := List.length_filter_le (fun z : Half => decide (z ≠ 0)) (z.toList.drop 1)
  have htail := rleTail_length z
  rw [List.length_map] at hvalues
  unfold rleEncode recCap
  omega

/-- A pair stands at the position of its value (43_rle_block_codec R142). -/
theorem rleEncode_positions {p : Nat} (hp : p < (rleEncode z).length) :
    z.toList[pairPosition (rleEncode z) p]? = (rleEncode z)[p]?.map AcPair.val := by
  obtain ⟨j, hpos, hval⟩ := rleLoop_positions (rleTail_length z) 1 p hp
  rw [pairPosition_eq, rleEncode, hpos, ← hval, List.getElem?_drop]

theorem toList_getElem? {α : Type} (x : Vector α 64) (k : Fin 64) : x.toList[k.val]? = some x[k] := by
  rw [List.getElem?_eq_getElem (by rw [Vector.length_toList]; exact k.isLt), Vector.getElem_toList]
  rfl

/-- Every nonzero position has a pair. -/
theorem rleEncode_complete {k : Fin 64} (hk : 0 < k.val) (hz : z[k] ≠ 0) :
    ∃ p, p < (rleEncode z).length ∧ pairPosition (rleEncode z) p = k.val := by
  have hentry : (z.toList.drop 1)[k.val - 1]? = some z[k] := by
    rw [List.getElem?_drop, Nat.add_sub_cancel' hk, toList_getElem?]
  obtain ⟨p, hp, hpos⟩ := rleLoop_complete (rleTail_length z) 1 _ hentry hz
  exact ⟨p, hp, hpos.trans (by omega)⟩

/-- Decoding the record of a sequence gives the sequence (43_rle_block_codec R144): a pair's position has its value in
both, and a position without a pair is 0 in both. -/
theorem rleDecode_rleEncode : rleDecode z[0] (rleEncode z) = z := by
  refine block_ext fun k => ?_
  rcases Nat.eq_zero_or_pos k.val with hk | hk
  · obtain rfl : k = 0 := Fin.ext hk
    exact rleDecode_zero _ _
  · rcases rleDecode_getElem z[0] (rleEncode z) hk with ⟨p, hp, hpos, hval⟩ | ⟨hnone, hzero⟩
    · have hentry := rleEncode_positions z hp
      rw [hpos, hval, toList_getElem?] at hentry
      exact (Option.some.inj hentry).symm
    · rw [hzero]
      by_contra hne
      obtain ⟨p, hp, hpos⟩ := rleEncode_complete z hk (Ne.symm hne)
      exact hnone p hp hpos

end

/-! ### The commands -/

section
variable {s : State}

theorem exec_rleenc_of_clear (h : s.err = 0) : exec .rleenc s = .next (rleencBody s) := whenClear_of_clear _ h

theorem exec_rledec_of_clear (h : s.err = 0) : exec .rledec s = .next (rledecBody s) := whenClear_of_clear _ h

/-- The record RLEENC makes holds the pairs of `rleEncode`. -/
theorem rleencBody_pairs (s : State) (gen : Nat) : (rleencBody s).record.pairs gen = rleEncode s.zb :=
  RecordReg.pairs_ofPairs gen _ _ (rleEncode_length s.zb)

theorem rleencBody_n_toNat (s : State) : (rleencBody s).record.n.toNat = (rleEncode s.zb).length :=
  ofPairs_n_toNat _ (rleEncode_length s.zb)

theorem rledecBody_rleencBody_zb (s : State) : (rledecBody (rleencBody s)).zb = s.zb := by
  rw [rledecBody_zb, rleencBody_pairs]
  exact rleDecode_rleEncode s.zb

end

/-- Settles O35: the lemmas of `rleEncode` on ZB. -/
theorem rleencMakesTheRecord : Obligations.RleencMakesTheRecord := by
  intro s hclear
  obtain ⟨hvalues, hruns⟩ := rleLoop_values (rleTail_length s.zb)
  refine ⟨_, exec_rleenc_of_clear hclear, rfl, rfl, RecordReg.pairs_length .., ?_⟩
  rw [rleencBody_pairs, rleencBody_n_toNat]
  exact ⟨hvalues, hruns, fun p hp => rleEncode_positions s.zb hp, fun k hk hz => rleEncode_complete s.zb hk hz⟩

/-- Settles O36: `rleDecode_getElem` on the pairs of REC. -/
theorem rledecPlacesThePairs : Obligations.RledecPlacesThePairs := by
  intro s hclear
  refine ⟨_, exec_rledec_of_clear hclear, rfl, rleDecode_zero _ _, fun k hk => ?_⟩
  have hplaces := rleDecode_getElem s.record.dc (s.record.pairs s.gen) hk
  rw [RecordReg.pairs_length] at hplaces
  exact hplaces

/-! ### Zero blocks -/

theorem toZigzag_zero (zz : Vector Coord 64) :
    toZigzag zz (Vector.replicate 64 0) = Vector.replicate 64 0 :=
  block_ext fun k => by
    rw [toZigzag_getElem]
    exact (Vector.getElem_replicate _).trans (Vector.getElem_replicate _).symm

theorem rleLoop_zeros (n run : Nat) (h : run + n ≤ 63) : rleLoop (List.replicate n 0) run = [] := by
  induction n generalizing run with
  | zero => rfl
  | succ n ih => rw [List.replicate_succ, rleLoop_cons_zero _ (by omega), ih _ (by omega)]

/-- A zero sequence has no pairs (43_rle_block_codec R144). -/
theorem rleEncode_zero : rleEncode (Vector.replicate 64 0) = [] := by
  rw [rleEncode, Vector.toList_replicate, List.drop_replicate]
  exact rleLoop_zeros 63 0 le_rfl

theorem rleDecode_zero_nil : rleDecode 0 [] = Vector.replicate 64 0 := by
  have hback := rleDecode_rleEncode (Vector.replicate 64 0)
  rwa [rleEncode_zero] at hback

theorem set_zero_of_zero (j : Fin 64) :
    (Vector.replicate 64 (0 : Half)).set j 0 = Vector.replicate 64 0 := by
  refine block_ext fun k => (getElem_set_eq_ite _ j k 0).trans ?_
  have hzero : (Vector.replicate 64 (0 : Half))[k] = 0 := Vector.getElem_replicate k.isLt
  rw [hzero, ite_self]

theorem foldl_set_zero {l : List (Coord × Half)} (hl : ∀ w ∈ l, w.2 = 0) :
    l.foldl (fun q w => q.set w.1.index w.2) (Vector.replicate 64 (0 : Half)) = Vector.replicate 64 0 := by
  induction l with
  | nil => rfl
  | cons w l ih =>
    obtain ⟨hw, hl⟩ := List.forall_mem_cons.1 hl
    rw [List.foldl_cons, hw, set_zero_of_zero, ih hl]

/-- Zeros written over zeros, in any order. -/
theorem fromZigzag_zero (zz : Vector Coord 64) :
    fromZigzag zz (Vector.replicate 64 0) (Vector.replicate 64 0) = Vector.replicate 64 0 :=
  foldl_set_zero fun w hw => by
    have hvalue := (List.of_mem_zip hw).2
    rw [Vector.toList_replicate] at hvalue
    exact List.eq_of_mem_replicate hvalue

/-! ### Round trips -/

/-- A record whose one pair has value 0; decoding loses it. -/
def zeroPairState : State := { State.reset with record := ⟨0, 1, [⟨0, 0⟩]⟩ }

theorem zeroPairState_lost :
    (rleencBody (rledecBody zeroPairState)).record.pairs 0 ≠ zeroPairState.record.pairs 0 := by
  have hdecoded : rleDecode 0 [⟨0, 0⟩] = Vector.replicate 64 0 := by decide +kernel
  have hpairs : zeroPairState.record.pairs 0 = [⟨0, 0⟩] := rfl
  have hzb : (rledecBody zeroPairState).zb = Vector.replicate 64 0 := hdecoded
  rw [rleencBody_pairs, hzb, rleEncode_zero, hpairs]
  exact (List.cons_ne_nil _ _).symm

/-- BENC and BDEC in sequence, as bodies. -/
theorem runActions_benc_bdec {s : State} (h : s.err = 0) :
    runActions (bencActions ++ bdecActions) s
      = .next (zzinvBody (rledecBody (rleencBody (zzfwdBody s)))) := by
  have hzzfwd : perform s (.command 0x05#8) = .next (zzfwdBody s) := exec_zzfwd_of_clear h
  have hrleenc : perform (zzfwdBody s) (.command 0x07#8) = .next (rleencBody (zzfwdBody s)) := exec_rleenc_of_clear h
  have hrledec : perform (rleencBody (zzfwdBody s)) (.command 0x08#8)
      = .next (rledecBody (rleencBody (zzfwdBody s))) := exec_rledec_of_clear h
  have hzzinv : perform (rledecBody (rleencBody (zzfwdBody s))) (.command 0x06#8)
      = .next (zzinvBody (rledecBody (rleencBody (zzfwdBody s)))) := exec_zzinv_of_clear h
  simp only [bencActions, bdecActions, List.cons_append, List.nil_append, runActions, hzzfwd, hrleenc, hrledec,
    hzzinv]

/-- Settles O37: `rleDecode_rleEncode`, with `fromZigzag_toZigzag` around it for QB; the state whose record does not
come back is `zeroPairState`. -/
theorem blockCodecRoundTrips : Obligations.BlockCodecRoundTrips := by
  refine ⟨fun s hclear => ⟨rledecBody (rleencBody s), ?_, rledecBody_rleencBody_zb s⟩,
    fun s hclear horder => ⟨_, runActions_benc_bdec hclear, ?_⟩,
    ⟨zeroPairState, rleencBody (rledecBody zeroPairState), rfl, ?_, zeroPairState_lost⟩, fun s hclear hqb => ?_⟩
  · rw [exec_rleenc_of_clear hclear, execThen_next]
    exact exec_rledec_of_clear hclear
  · rw [zzinvBody_qb, rledecBody_rleencBody_zb]
    exact fromZigzag_toZigzag horder s.qb s.qb
  · rw [exec_rledec_of_clear rfl, execThen_next]
    exact exec_rleenc_of_clear rfl
  · have hzb : (zzfwdBody s).zb = Vector.replicate 64 0 := by rw [zzfwdBody_zb, hqb, toZigzag_zero]
    have hrecord : (rleencBody (zzfwdBody s)).record = ⟨0, 0, []⟩ := by
      rw [rleencBody_record, hzb, rleEncode_zero]
      rfl
    have hback : (rledecBody (rleencBody (zzfwdBody s))).zb = Vector.replicate 64 0 :=
      (rledecBody_rleencBody_zb _).trans hzb
    refine ⟨rleencBody (zzfwdBody s), ?_, by rw [hrecord], by rw [hrecord],
      zzinvBody (rledecBody (rleencBody (zzfwdBody s))), ?_, ?_⟩
    · rw [exec_zzfwd_of_clear hclear, execThen_next]
      exact exec_rleenc_of_clear hclear
    · rw [exec_rledec_of_clear (s := rleencBody (zzfwdBody s)) hclear, execThen_next]
      exact exec_zzinv_of_clear hclear
    · rw [zzinvBody_qb, hback]
      simp only [rledecBody_qb, rleencBody_qb, zzfwdBody_qb, hqb, fromZigzag_zero]

end Sys2Proof.Machine
end

section
/-! The fused pipelines (44_block_pipeline R150 to R152): each is its four bodies, zero blocks and the empty record make
each other, and an encoded record comes back from decoding and encoding. -/

namespace Sys2Proof.Machine

/-- ENCBLK's four bodies (44_block_pipeline R150). -/
def encblkBody (s : State) : State := rleencBody (zzfwdBody (quantBody (fdctBody s)))

/-- DECBLK's four bodies (44_block_pipeline R151). -/
def decblkBody (s : State) : State := idctBody (dequantBody (zzinvBody (rledecBody s)))

section
variable {s : State}

theorem exec_encblk_of_clear (h : s.err = 0) : exec .encblk s = .next (encblkBody s) := whenClear_of_clear _ h

theorem exec_decblk_of_clear (h : s.err = 0) : exec .decblk s = .next (decblkBody s) := whenClear_of_clear _ h

theorem execThen_encblk_parts (h : s.err = 0) :
    execThen (execThen (execThen (exec .fdct s) .quant) .zzfwd) .rleenc = .next (encblkBody s) := by
  rw [exec_fdct_of_clear h, execThen_next, exec_quant_of_clear (s := fdctBody s) h, execThen_next,
    exec_zzfwd_of_clear (s := quantBody (fdctBody s)) h, execThen_next]
  exact exec_rleenc_of_clear h

theorem execThen_decblk_parts (h : s.err = 0) :
    execThen (execThen (execThen (exec .rledec s) .zzinv) .dequant) .idct = .next (decblkBody s) := by
  rw [exec_rledec_of_clear h, execThen_next, exec_zzinv_of_clear (s := rledecBody s) h, execThen_next,
    exec_dequant_of_clear (s := zzinvBody (rledecBody s)) h, execThen_next]
  exact exec_idct_of_clear h

/-! ### Zero blocks -/

/-- The zero of a table lane is quantized to 0. -/
theorem quantizeLane_zero {num : Numerics} {t : XReal} (h : num.entry t) : quantizeLane num XReal.zero t = 0 := by
  have hlawful := numerics_lawful num
  have hlane := quantizeLane_dequantizeLane (hlawful.tableInverse 0 t h)
  rwa [dequantizeLane, hlawful.zeroLane t h] at hlane

/-- A zero block is encoded as the empty record with dc 0 (44_block_pipeline R150). -/
theorem encblkBody_zero (htable : s.tablePositive) (hxb : s.xb = Vector.replicate 64 XReal.zero) :
    (encblkBody s).cb = Vector.replicate 64 XReal.zero ∧ (encblkBody s).qb = Vector.replicate 64 0
      ∧ (encblkBody s).zb = Vector.replicate 64 0 ∧ (encblkBody s).record = ⟨0, 0, []⟩ := by
  have hcb : (fdctBody s).cb = Vector.replicate 64 XReal.zero := by
    rw [fdctBody_cb, hxb, (numerics_lawful _).zeroBlock.1]
  have hqb : (quantBody (fdctBody s)).qb = Vector.replicate 64 0 := by
    refine block_ext fun k => ?_
    have hcoefficient : (fdctBody s).cb[k] = XReal.zero := by rw [hcb]; exact Vector.getElem_replicate k.isLt
    rw [quantBody_qb_getElem, hcoefficient]
    exact (quantizeLane_zero (htable k)).trans (Vector.getElem_replicate k.isLt).symm
  have hzb : (zzfwdBody (quantBody (fdctBody s))).zb = Vector.replicate 64 0 := by
    rw [zzfwdBody_zb, hqb, toZigzag_zero]
  refine ⟨hcb, hqb, hzb, ?_⟩
  rw [encblkBody, rleencBody_record, hzb, rleEncode_zero]
  rfl

/-- The empty record with dc 0 is decoded as the zero block (44_block_pipeline R151). -/
theorem decblkBody_zero (htable : s.tablePositive) (horder : s.orderBijective) (hdc : s.record.dc = 0)
    (hn : s.record.n = 0) :
    (decblkBody s).zb = Vector.replicate 64 0 ∧ (decblkBody s).qb = Vector.replicate 64 0
      ∧ (decblkBody s).cb = Vector.replicate 64 XReal.zero ∧ (decblkBody s).xb = Vector.replicate 64 XReal.zero := by
  have hpairs : s.record.pairs s.gen = [] := List.eq_nil_of_length_eq_zero (by rw [RecordReg.pairs_length, hn]; rfl)
  have hzb : (rledecBody s).zb = Vector.replicate 64 0 := by
    rw [rledecBody_zb, hdc, hpairs, rleDecode_zero_nil]
  have hqb : (zzinvBody (rledecBody s)).qb = Vector.replicate 64 0 := by
    have hback := fromZigzag_toZigzag horder (Vector.replicate 64 0) s.qb
    rw [toZigzag_zero] at hback
    rw [zzinvBody_qb, hzb]
    exact hback
  have hcb : (dequantBody (zzinvBody (rledecBody s))).cb = Vector.replicate 64 XReal.zero := by
    refine block_ext fun k => ?_
    have hvalue : (zzinvBody (rledecBody s)).qb[k] = 0 := by rw [hqb]; exact Vector.getElem_replicate k.isLt
    rw [dequantBody_cb_getElem, hvalue]
    exact ((numerics_lawful _).zeroLane _ (htable k)).trans (Vector.getElem_replicate k.isLt).symm
  refine ⟨hzb, hqb, hcb, ?_⟩
  rw [decblkBody, idctBody_xb, hcb]
  exact (numerics_lawful _).zeroBlock.2

/-- Settles O38: the parts by their own completion, the zero cases by `encblkBody_zero` and `decblkBody_zero`. -/
theorem fusedCommandsAreTheirParts : Obligations.FusedCommandsAreTheirParts := by
  intro s hclear
  refine ⟨⟨_, exec_encblk_of_clear hclear, execThen_encblk_parts hclear, rfl⟩,
    ⟨_, exec_decblk_of_clear hclear, execThen_decblk_parts hclear, rfl⟩, fun htable hxb => ?_,
    fun htable horder hdc hn => ?_⟩
  · obtain ⟨hcb, hqb, hzb, hrecord⟩ := encblkBody_zero htable hxb
    exact ⟨_, exec_encblk_of_clear hclear, hcb, hqb, hzb, by rw [hrecord], by rw [hrecord]⟩
  · exact ⟨_, exec_decblk_of_clear hclear, decblkBody_zero htable horder hdc hn⟩

/-! ### Encoding what was decoded -/

/-- DECBLK's QB is the one ENCBLK coded. -/
theorem zzinvBody_rledecBody_encblkBody_qb (horder : s.orderBijective) :
    (zzinvBody (rledecBody (encblkBody s))).qb = (encblkBody s).qb := by
  rw [zzinvBody_qb, encblkBody, rledecBody_rleencBody_zb]
  exact fromZigzag_toZigzag horder _ _

/-- A lane whose real number is an exact multiple of the entry is quantized to the factor, however it is written. -/
theorem quantizeLane_exact_of_toReal {x t : XReal} {q : Half} (ht : 0 < t.toReal)
    (hx : x.toReal = q.toInt * t.toReal) : quantizeLane .exact x t = q := by
  have hround := XReal.roundQuot_spec x t ht.ne'
  rw [hx, mul_div_cancel_right₀ _ ht.ne'] at hround
  have hquot : Numerics.exact.qdiv x t = q.toInt := hround.unique (IsRoundHe.intCast _)
  rw [quantizeLane, hquot, sat16_toInt_self]

/-- Encoding after decoding gives QB back: the transforms undo each other as real numbers, and the rounding sees the
real number alone. -/
theorem encblkBody_decblkBody_qb {a : State} (hexact : a.build.numerics = .exact) (htable : a.tablePositive) :
    (encblkBody (decblkBody a)).qb = (zzinvBody (rledecBody a)).qb := by
  refine block_ext fun k => ?_
  have hpos : 0 < (a.qt[k]).toReal := (numerics_lawful _).entryPos _ (htable k)
  have hcb : (fdctBody (decblkBody a)).cb = fdctExact (idctExact (dequantBody (zzinvBody (rledecBody a))).cb) := by
    rw [fdctBody_cb_of_exact (s := decblkBody a) hexact, decblkBody,
      idctBody_xb_of_exact (s := dequantBody (zzinvBody (rledecBody a))) hexact]
  have hreal : ((fdctBody (decblkBody a)).cb[k]).toReal
      = ((zzinvBody (rledecBody a)).qb[k]).toInt * (a.qt[k]).toReal := by
    rw [hcb, toReal_fdct_idct, dequantBody_cb_getElem]
    have hnum : (zzinvBody (rledecBody a)).build.numerics = .exact := hexact
    rw [hnum]
    exact (XReal.toReal_smul _ _).trans (by push_cast; rfl)
  have hlane : (encblkBody (decblkBody a)).qb[k]
      = quantizeLane a.build.numerics ((fdctBody (decblkBody a)).cb[k]) a.qt[k] := quantBody_qb_getElem _ k
  rw [hlane, hexact]
  exact quantizeLane_exact_of_toReal hpos hreal

theorem encblkBody_record (s : State) : (encblkBody s).record
    = RecordReg.ofPairs (toZigzag s.zz (encblkBody s).qb)[0] (rleEncode (toZigzag s.zz (encblkBody s).qb)) := rfl

/-- Settles O39: the second record is made of the same QB as the first. -/
theorem encodedRecordIsStable : Obligations.EncodedRecordIsStable := by
  intro s a b c hclear hexact htable horder ha hb hc
  rw [exec_encblk_of_clear hclear] at ha
  obtain rfl := Host.Outcome.next.inj ha
  rw [exec_decblk_of_clear (s := encblkBody s) hclear] at hb
  obtain rfl := Host.Outcome.next.inj hb
  rw [exec_encblk_of_clear (s := decblkBody (encblkBody s)) hclear] at hc
  obtain rfl := Host.Outcome.next.inj hc
  have hqb : (encblkBody (decblkBody (encblkBody s))).qb = (encblkBody s).qb :=
    (encblkBody_decblkBody_qb (a := encblkBody s) hexact htable).trans (zzinvBody_rledecBody_encblkBody_qb horder)
  rw [encblkBody_record (decblkBody (encblkBody s)), hqb]
  exact (encblkBody_record s).symm

end

end Sys2Proof.Machine
end

section
/-! The all-128 raster (47_host_procedures R201 to R207): each of its tiles is the zero block, whose record is empty,
and the empty record's zero block gives samples of 128. -/

namespace Sys2Proof.Machine

/-! ### Host actions in sequence -/

section
variable {s t : State} {a : HostAction} {as bs : List HostAction}

theorem runActions_cons (h : perform s a = .next t) : runActions (a :: as) s = runActions as t := by
  rw [runActions, h]

theorem runActions_append (h : runActions as s = .next t) : runActions (as ++ bs) s = runActions bs t := by
  induction as generalizing s with
  | nil => cases h; rfl
  | cons a as ih =>
    rw [runActions] at h
    rw [List.cons_append, runActions]
    cases hperform : perform s a with
    | next u =>
      rw [hperform] at h
      exact ih h
    | fault f => rw [hperform] at h; exact nomatch h
    | refused f => rw [hperform] at h; exact nomatch h

theorem runActions_single (h : perform s a = .next t) : runActions [a] s = .next t := runActions_cons h

end

/-! ### Writing a block -/

theorem foldl_set_block {α : Type} (b x : Vector α 64) (l : List (Fin 64)) (j : Fin 64) :
    (l.foldl (fun x k => x.set k b[k]) x)[j] = if j ∈ l then b[j] else x[j] := by
  induction l generalizing x with
  | nil => rfl
  | cons k l ih =>
    rw [List.foldl_cons, ih, getElem_set_eq_ite]
    by_cases hjk : j = k
    · subst hjk
      simp
    · simp [hjk]

theorem runActions_writeXb (b : RealBlock) (l : List (Fin 64)) (s : State) :
    runActions (l.map fun k => .writeXb k b[k]) s
      = .next { s with xb := l.foldl (fun (x : RealBlock) (k : Fin 64) => x.set k b[k]) s.xb } := by
  induction l generalizing s with
  | nil => rfl
  | cons k l ih => exact ih { s with xb := s.xb.set k b[k] }

/-- The host's writes of a block leave XB at the block. -/
theorem runActions_blockActions (b : RealBlock) (s : State) :
    runActions (blockActions b) s = .next { s with xb := b } := by
  have hblock : (List.finRange 64).foldl (fun (x : RealBlock) (k : Fin 64) => x.set k b[k]) s.xb = b :=
    block_ext fun j => (foldl_set_block b s.xb _ j).trans (if_pos (List.mem_finRange j))
  rw [blockActions, runActions_writeXb, hblock]

/-- One tile on the block: its writes and ENCBLK (47_host_procedures R203). -/
theorem runActions_tile {s : State} (b : RealBlock) (h : s.err = 0) :
    runActions (blockActions b ++ [.command 0x09#8]) s = .next (encblkBody { s with xb := b }) := by
  rw [runActions_append (runActions_blockActions b s)]
  exact runActions_single (exec_encblk_of_clear h)

/-! ### Gray tiles -/

/-- The all-128 raster. -/
def grayRaster (h w : Nat) : Raster := ⟨h, w, List.replicate (h * w * 3) 128⟩

section
variable {h w : Nat}

theorem sampleAt_grayRaster {y x c : Nat} (hy : y < h) (hx : x < w) (hc : c < 3) :
    sampleAt (grayRaster h w) y x c = 128 := by
  have hrow : (y + 1) * w ≤ h * w := Nat.mul_le_mul_right w hy
  have hindex : (y * w + x) * 3 + c < h * w * 3 := by
    rw [Nat.add_mul] at hrow
    omega
  simp only [sampleAt, grayRaster, List.getD_eq_getElem?_getD, List.getElem?_replicate, if_pos hindex,
    Option.getD_some]

/-- A replicated position of a tile that covers part of an extent lies within the extent. -/
theorem tile_position_lt {extent tile : Nat} (htile : tile < tileCount extent) (k : Nat) :
    8 * tile + min k (validExtent extent tile - 1) < extent := by
  unfold tileCount at htile
  unfold validExtent
  omega

theorem tileBlock_grayRaster {c : Nat} (hc : c < 3) {tile : Nat × Nat} (hrow : tile.1 < tileCount h)
    (hcol : tile.2 < tileCount w) : tileBlock (grayRaster h w) c tile = Vector.replicate 64 XReal.zero := by
  refine block_ext fun k => ?_
  have hsample :=
    sampleAt_grayRaster (c := c) (tile_position_lt hrow (k.val / 8)) (tile_position_lt hcol (k.val % 8)) hc
  have hshift : XReal.ofInt ((128#8).toNat - 128) = XReal.zero := by simp [XReal.ofInt, XReal.zero, Alg.ofInt, Alg.zero]
  have hentry : (tileBlock (grayRaster h w) c tile)[k] = XReal.ofInt ((128#8).toNat - 128) := by
    rw [tileBlock, Fin.getElem_fin, Vector.getElem_ofFn]
    exact congrArg (fun b : Byte => XReal.ofInt (b.toNat - 128)) hsample
  rw [hentry, hshift]
  exact (Vector.getElem_replicate k.isLt).symm

theorem mem_tileGrid {tile : Nat × Nat} (htile : tile ∈ tileGrid h w) :
    tile.1 < tileCount h ∧ tile.2 < tileCount w := by
  simp only [tileGrid, List.mem_flatMap, List.mem_map, List.mem_range] at htile
  obtain ⟨ty, hty, tx, htx, rfl⟩ := htile
  exact ⟨hty, htx⟩

theorem tileGrid_length (h w : Nat) : (tileGrid h w).length = tileCount h * tileCount w := by
  simp [tileGrid, List.length_flatMap]

/-- A zero tile is coded as the empty record. -/
theorem runActions_grayTile {s : State} {b : RealBlock} (hclear : s.err = 0) (htable : s.tablePositive)
    (hb : b = Vector.replicate 64 XReal.zero) :
    ∃ t, runActions (blockActions b ++ [HostAction.command 0x09#8]) s = .next t ∧ t.record = ⟨0, 0, []⟩ ∧ t.err = 0
      ∧ t.tablePositive := by
  obtain ⟨_, _, _, hrecord⟩ := encblkBody_zero (s := { s with xb := b }) htable hb
  exact ⟨_, runActions_tile b hclear, hrecord, hclear, htable⟩

/-- The channel of `n` empty records. -/
def emptyChannel (n : Nat) : List BlockRecord := List.replicate n ⟨0, []⟩

/-- `n` zero blocks. -/
def zeroBlocks (n : Nat) : List RealBlock := List.replicate n (Vector.replicate 64 XReal.zero)

/-- Gray tiles are coded as empty records, and the block is left as able to code as before. -/
theorem compressTiles_gray {c : Nat} (hc : c < 3) {tiles : List (Nat × Nat)}
    (htiles : ∀ tile ∈ tiles, tile.1 < tileCount h ∧ tile.2 < tileCount w) {s : State} (hclear : s.err = 0)
    (htable : s.tablePositive) :
    ∃ t, compressTiles (grayRaster h w) c tiles s = some (emptyChannel tiles.length, t)
      ∧ t.err = 0 ∧ t.tablePositive := by
  induction tiles generalizing s with
  | nil => exact ⟨s, rfl, hclear, htable⟩
  | cons tile tiles ih =>
    obtain ⟨⟨hrow, hcol⟩, htiles⟩ := List.forall_mem_cons.1 htiles
    have hblock := tileBlock_grayRaster hc hrow hcol
    obtain ⟨u, hrun, hrecord, hclear, htable⟩ := runActions_grayTile hclear htable hblock
    obtain ⟨t, hrest, ht⟩ := ih htiles hclear htable
    have hempty : (⟨u.record.dc, u.record.pairs u.gen⟩ : BlockRecord) = ⟨0, []⟩ := by rw [hrecord]; rfl
    refine ⟨t, ?_, ht⟩
    rw [compressTiles, hrun]
    simp only [hrest, hempty, Option.map_some, List.length_cons, emptyChannel, List.replicate_succ]

/-! ### Empty records -/

/-- One empty record on the block: its writes and DECBLK (47_host_procedures R204). -/
theorem runActions_emptyRecord {s : State} (hclear : s.err = 0) (htable : s.tablePositive)
    (horder : s.orderBijective) :
    ∃ t, runActions (recordActions ⟨0, []⟩ ++ [HostAction.command 0x0A#8]) s = .next t
      ∧ t.xb = Vector.replicate 64 XReal.zero ∧ t.err = 0 ∧ t.tablePositive ∧ t.orderBijective := by
  obtain ⟨_, _, _, hxb⟩ :=
    decblkBody_zero (s := { s with record := { s.record with dc := 0, n := 0 } }) htable horder rfl rfl
  exact ⟨_, runActions_single (s := { s with record := { s.record with dc := 0, n := 0 } })
    (exec_decblk_of_clear hclear), hxb, hclear, htable, horder⟩

theorem decodeBlocks_empty {s : State} (n : Nat) (hclear : s.err = 0) (htable : s.tablePositive)
    (horder : s.orderBijective) :
    ∃ t, decodeBlocks n (emptyChannel n) s = some (zeroBlocks n, t)
      ∧ t.err = 0 ∧ t.tablePositive ∧ t.orderBijective := by
  induction n generalizing s with
  | zero => exact ⟨s, rfl, hclear, htable, horder⟩
  | succ n ih =>
    obtain ⟨u, hrun, hxb, hclear, htable, horder⟩ := runActions_emptyRecord hclear htable horder
    obtain ⟨t, hrest, ht⟩ := ih hclear htable horder
    refine ⟨t, ?_, ht⟩
    rw [emptyChannel, List.replicate_succ, decodeBlocks, hrun]
    rw [emptyChannel] at hrest
    simp only [hrest, hxb, Option.map_some, zeroBlocks, List.replicate_succ]

/-- A zero lies in the middle of the samples' range, and both ways of narrowing give it exactly. -/
theorem toSample_zero (mode : SampleNarrow) : toSample mode XReal.zero = 128 := by
  cases mode <;> decide +kernel

theorem outputSample_zero (mode : SampleNarrow) {y x : Nat} (hy : y < h) (hx : x < w) :
    outputSample mode w (zeroBlocks (tileCount h * tileCount w)) y x = 128 := by
  have hrow : y / 8 + 1 ≤ tileCount h := by unfold tileCount; omega
  have hcol : x / 8 < tileCount w := by unfold tileCount; omega
  have htile : y / 8 * tileCount w + x / 8 < tileCount h * tileCount w := by
    have hle := Nat.mul_le_mul_right (tileCount w) hrow
    rw [Nat.add_mul] at hle
    omega
  have hvalue (i : Nat) : (Vector.replicate 64 XReal.zero).toList.getD i XReal.zero = XReal.zero := by
    rw [Vector.toList_replicate, List.getD_eq_getElem?_getD, List.getElem?_replicate]
    split <;> rfl
  simp only [outputSample, zeroBlocks, List.getElem?_replicate, if_pos htile, hvalue, toSample_zero]

/-- A raster of one sample everywhere. -/
theorem flatMap_samples_eq_replicate {f : Nat → Nat → List Byte} {b : Byte}
    (hf : ∀ y x, y < h → x < w → f y x = [b, b, b]) :
    ((List.range h).flatMap fun y => (List.range w).flatMap fun x => f y x) = List.replicate (h * w * 3) b := by
  have hconst : ((List.range h).flatMap fun y => (List.range w).flatMap fun x => f y x)
      = (List.range h).flatMap fun _ => (List.range w).flatMap fun _ => [b, b, b] :=
    List.flatMap_congr fun y hy => List.flatMap_congr fun x hx => hf y x (List.mem_range.1 hy) (List.mem_range.1 hx)
  rw [hconst]
  refine List.eq_replicate_iff.2 ⟨by simp [List.length_flatMap, Nat.mul_assoc], fun c hc => ?_⟩
  simp only [List.mem_flatMap] at hc
  obtain ⟨_, _, _, _, hc⟩ := hc
  simpa using hc

end

/-- Settles O40: gray tiles make empty records, empty records zero blocks, and zero blocks gray samples. -/
theorem grayRasterIsExact : Obligations.GrayRasterIsExact := by
  intro s h w mode hclear htable horder
  have hgrid : ∀ tile ∈ tileGrid h w, tile.1 < tileCount h ∧ tile.2 < tileCount w := fun _ => mem_tileGrid
  have hlen := tileGrid_length h w
  obtain ⟨s₁, hc₀, hclear₁, htable₁⟩ := compressTiles_gray (c := 0) (by decide) hgrid hclear htable
  obtain ⟨s₂, hc₁, hclear₂, htable₂⟩ := compressTiles_gray (c := 1) (by decide) hgrid hclear₁ htable₁
  obtain ⟨s₃, hc₂, _, _⟩ := compressTiles_gray (c := 2) (by decide) hgrid hclear₂ htable₂
  obtain ⟨t₁, hd₀, hclear₁, htable₁, horder₁⟩ :=
    decodeBlocks_empty (tileCount h * tileCount w) hclear htable horder
  obtain ⟨t₂, hd₁, hclear₂, htable₂, horder₂⟩ :=
    decodeBlocks_empty (tileCount h * tileCount w) hclear₁ htable₁ horder₁
  obtain ⟨t₃, hd₂, _⟩ := decodeBlocks_empty (tileCount h * tileCount w) hclear₂ htable₂ horder₂
  rw [hlen] at hc₀ hc₁ hc₂
  refine ⟨⟨List.replicate 3 (emptyChannel (tileCount h * tileCount w)), h, w, 3⟩, ?_, fun c hc => ?_, ?_⟩
  · show compress s (grayRaster h w) = _
    have hheight : (grayRaster h w).height = h := rfl
    have hwidth : (grayRaster h w).width = w := rfl
    simp only [compress, hheight, hwidth, hc₀, hc₁, hc₂, Option.bind_eq_bind, Option.bind_some]
    rfl
  · obtain rfl := List.eq_of_mem_replicate hc
    exact ⟨List.length_replicate, fun r hr => List.eq_of_mem_replicate hr⟩
  · have hsamples := flatMap_samples_eq_replicate (h := h) (w := w) (b := 128)
      (f := fun y k => List.replicate 3 (outputSample mode w (zeroBlocks (tileCount h * tileCount w)) y k))
      fun y x hy hx => by rw [outputSample_zero mode hy hx]; rfl
    simp only [decompress, List.replicate_succ, List.replicate_zero, hd₀, hd₁, hd₂, ← hsamples,
      Option.bind_eq_bind, Option.bind_some]
    rfl

end Sys2Proof.Machine
end

section
/-! Containers (30_encoding R90; 45_container R160, R164, R168): `parse` reads back what `serialize` wrote, unit by
unit, and what parses is the serialization of what it parses to, up to bytes left over. -/

namespace Sys2Proof.Machine

/-! ### Units as fields -/

theorem decodeRecordFields_encode {ac : List AcPair} (dc : Half) (hac : ac.length ≤ recCap) (rest : List Byte) :
    decodeRecordFields (encode (.record dc ac) ++ rest) = .ok ((dc, ac), rest) := by
  have hrecord := decodeRecord_encode dc hac rest
  rw [decodeRecord_eq] at hrecord
  obtain ⟨⟨⟨d, ps⟩, bs⟩, hfields, hunit⟩ := bind_eq_ok hrecord
  cases hunit
  exact hfields

theorem decodeHdrFields_encode (h w c : Word) (rest : List Byte) :
    decodeHdrFields (encode (.hdr h w c) ++ rest) = .ok ((h, w, c), rest) := by
  have hhdr := decodeHdr_encode h w c rest
  rw [decodeHdr_eq] at hhdr
  obtain ⟨⟨⟨h', w', c'⟩, bs⟩, hfields, hunit⟩ := bind_eq_ok hhdr
  cases hunit
  exact hfields

theorem eq_encode_of_decodeRecordFields {dc : Half} {ac : List AcPair} {bs rest : List Byte}
    (h : decodeRecordFields bs = .ok ((dc, ac), rest)) :
    ac.length ≤ recCap ∧ bs = encode (.record dc ac) ++ rest := by
  have hrecord : decodeRecord bs = .ok (.record dc ac, rest) := by rw [decodeRecord_eq, h]; rfl
  obtain ⟨_, _, hunit, hac, hbs⟩ := eq_encode_of_decodeRecord hrecord
  cases hunit
  exact ⟨hac, hbs⟩

theorem eq_encode_of_decodeHdrFields {h w c : Word} {bs rest : List Byte}
    (hfields : decodeHdrFields bs = .ok ((h, w, c), rest)) : bs = encode (.hdr h w c) ++ rest := by
  have hhdr : decodeHdr bs = .ok (.hdr h w c, rest) := by rw [decodeHdr_eq, hfields]; rfl
  obtain ⟨_, _, _, _, hbs⟩ := eq_encode_of_decodeHdr hhdr
  exact hbs

/-! ### `parse` unit by unit -/

theorem parseRecords_succ (n : Nat) (bs : List Byte) :
    parseRecords (n + 1) bs = decodeRecordFields bs >>= fun u =>
      parseRecords n u.2 >>= fun v => .ok (⟨u.1.1, u.1.2⟩ :: v.1, v.2) := by
  simp only [parseRecords, decodeRecordFields, bind_assoc]
  rfl

theorem parseChannels_succ (n : Nat) (bs : List Byte) :
    parseChannels (n + 1) bs = decodeField 4 bs >>= fun u =>
      parseRecords u.1 u.2 >>= fun v => parseChannels n v.2 >>= fun w => .ok (v.1 :: w.1, w.2) := rfl

/-- The header's numbers are those of its words. -/
theorem parse_eq (bs : List Byte) :
    parse bs = decodeHdrFields bs >>= fun u =>
      parseChannels u.1.2.2.toNat u.2 >>= fun v => .ok ⟨v.1, u.1.1.toNat, u.1.2.1.toNat, u.1.2.2.toNat⟩ := by
  have hword {v : Nat} {bs rest : List Byte} (h : decodeField 4 bs = .ok (v, rest)) :
      (BitVec.ofNat 32 v).toNat = v := Nat.mod_eq_of_lt (lt_and_eq_of_decodeField h).1
  rw [parse, decodeHdrFields, bind_assoc]
  cases decodeField 4 bs with
  | error e => rfl
  | ok m =>
    simp only [ok_bind]
    split
    · rfl
    simp only [bind_assoc]
    cases hheight : decodeField 4 m.2 with
    | error e => rfl
    | ok height =>
      simp only [ok_bind]
      cases hwidth : decodeField 4 height.2 with
      | error e => rfl
      | ok width =>
        simp only [ok_bind]
        cases hcount : decodeField 4 width.2 with
        | error e => rfl
        | ok count =>
          simp only [ok_bind, pure_bind, hword hheight, hword hwidth, hword hcount]
          rfl

/-! ### Channel sections -/

/-- A channel whose counts fit their fields (45_container R160). -/
def ChannelFits (c : List BlockRecord) : Prop := c.length < 2 ^ 32 ∧ ∀ r ∈ c, r.ac.length ≤ recCap

/-- The bytes of a channel's records, one after another. -/
def recordsBytes (c : List BlockRecord) : List Byte := c.flatMap fun r => encode (.record r.dc r.ac)

theorem parseRecords_recordsBytes {c : List BlockRecord} (hc : ∀ r ∈ c, r.ac.length ≤ recCap) (rest : List Byte) :
    parseRecords c.length (recordsBytes c ++ rest) = .ok (c, rest) := by
  induction c with
  | nil => rfl
  | cons r c ih =>
    obtain ⟨hr, hc⟩ := List.forall_mem_cons.1 hc
    have hbytes : recordsBytes (r :: c) ++ rest = encode (.record r.dc r.ac) ++ (recordsBytes c ++ rest) :=
      List.append_assoc ..
    rw [hbytes, List.length_cons, parseRecords_succ, decodeRecordFields_encode r.dc hr, ok_bind, ih hc]
    rfl

theorem parseChannels_serialized {cs : List (List BlockRecord)} (hcs : ∀ c ∈ cs, ChannelFits c) (rest : List Byte) :
    parseChannels cs.length (cs.flatMap serializeChannel ++ rest) = .ok (cs, rest) := by
  induction cs with
  | nil => rfl
  | cons c cs ih =>
    obtain ⟨⟨hlen, hrecords⟩, hcs⟩ := List.forall_mem_cons.1 hcs
    have hcount : (BitVec.ofNat 32 c.length).toNat = c.length := Nat.mod_eq_of_lt hlen
    have hbytes : (c :: cs).flatMap serializeChannel ++ rest
        = leBytes 4 (BitVec.ofNat 32 c.length).toNat ++ (recordsBytes c ++ (cs.flatMap serializeChannel ++ rest)) := by
      simp only [List.flatMap_cons, serializeChannel, encode, recordsBytes, List.append_assoc]
    rw [hbytes, List.length_cons, parseChannels_succ, decodeField_word, ok_bind, hcount,
      parseRecords_recordsBytes hrecords, ok_bind, ih hcs]
    rfl

theorem eq_recordsBytes_of_parseRecords {n : Nat} {bs rest : List Byte} {rs : List BlockRecord}
    (h : parseRecords n bs = .ok (rs, rest)) :
    rs.length = n ∧ (∀ r ∈ rs, r.ac.length ≤ recCap) ∧ bs = recordsBytes rs ++ rest := by
  induction n generalizing bs rs with
  | zero => cases h; exact ⟨rfl, nofun, rfl⟩
  | succ n ih =>
    rw [parseRecords_succ] at h
    obtain ⟨⟨⟨dc, ac⟩, bs₁⟩, hrecord, h⟩ := bind_eq_ok h
    obtain ⟨⟨qs, bs₂⟩, hrest, h⟩ := bind_eq_ok h
    cases h
    obtain ⟨hac, rfl⟩ := eq_encode_of_decodeRecordFields hrecord
    obtain ⟨rfl, hqs, rfl⟩ := ih hrest
    exact ⟨rfl, List.forall_mem_cons.2 ⟨hac, hqs⟩, (List.append_assoc ..).symm⟩

theorem eq_serialized_of_parseChannels {n : Nat} {bs rest : List Byte} {cs : List (List BlockRecord)}
    (h : parseChannels n bs = .ok (cs, rest)) :
    cs.length = n ∧ (∀ c ∈ cs, ChannelFits c) ∧ bs = cs.flatMap serializeChannel ++ rest := by
  induction n generalizing bs cs with
  | zero => cases h; exact ⟨rfl, nofun, rfl⟩
  | succ n ih =>
    rw [parseChannels_succ] at h
    obtain ⟨⟨count, bs₁⟩, hcount, h⟩ := bind_eq_ok h
    obtain ⟨⟨rs, bs₂⟩, hrecords, h⟩ := bind_eq_ok h
    obtain ⟨⟨ds, bs₃⟩, hrest, h⟩ := bind_eq_ok h
    cases h
    obtain ⟨hlt, rfl⟩ := lt_and_eq_of_decodeField hcount
    obtain ⟨rfl, hrs, rfl⟩ := eq_recordsBytes_of_parseRecords hrecords
    obtain ⟨rfl, hds, rfl⟩ := ih hrest
    refine ⟨rfl, List.forall_mem_cons.2 ⟨⟨hlt, hrs⟩, hds⟩, ?_⟩
    simp only [List.flatMap_cons, serializeChannel, encode, leBytes_toNat_ofNat (n := 4) (w := 32) rfl hlt,
      List.append_assoc]
    rfl

/-! ### Images -/

/-- The domain of `serialize`, clause by clause (45_container R160). -/
theorem wf_iff (x : CompressedImage) :
    x.wf = true ↔ x.channels.length = 3 ∧ x.count = 3 ∧ x.height < 2 ^ 32 ∧ x.width < 2 ^ 32
      ∧ ∀ c ∈ x.channels, ChannelFits c := by
  simp only [CompressedImage.wf, ChannelFits, Bool.and_eq_true, decide_eq_true_iff, List.all_eq_true, and_assoc]

/-- The bytes of a container: its header and its channel sections (30_encoding R84). -/
def containerBytes (x : CompressedImage) : List Byte :=
  encode (.hdr (BitVec.ofNat 32 x.height) (BitVec.ofNat 32 x.width) 3) ++ x.channels.flatMap serializeChannel

theorem serialize_of_wf {x : CompressedImage} (h : x.wf = true) : serialize x = some (containerBytes x) := if_pos h

theorem encode_length (i : Instr) : (encode i).length = i.size := encodingHasItsLength i

theorem recordsBytes_length (c : List BlockRecord) :
    (recordsBytes c).length = (c.map fun r => 4 + 3 * r.ac.length).sum := by
  simp only [recordsBytes, List.length_flatMap, encode_length, Instr.size]

theorem serializeChannel_length (c : List BlockRecord) :
    (serializeChannel c).length = 4 + (c.map fun r => 4 + 3 * r.ac.length).sum := by
  have hchannel : serializeChannel c = encode (.chn (BitVec.ofNat 32 c.length)) ++ recordsBytes c := rfl
  rw [hchannel, List.length_append, recordsBytes_length, encode_length]
  rfl

theorem containerBytes_length (x : CompressedImage) : (containerBytes x).length = containerSize x := by
  rw [containerBytes, List.length_append, encode_length, List.length_flatMap]
  simp only [serializeChannel_length]
  rfl

/-- Settles O54: the lengths of the units, added up. -/
theorem containerHasItsSize : Obligations.ContainerHasItsSize := by
  intro x
  refine ⟨fun hwf => ⟨_, serialize_of_wf hwf, containerBytes_length x⟩, fun hwf => ?_⟩
  rw [serialize, if_neg (by simp [hwf])]

theorem parse_containerBytes {x : CompressedImage} (h : x.wf = true) (rest : List Byte) :
    parse (containerBytes x ++ rest) = .ok x := by
  obtain ⟨hchannels, hcount, hheight, hwidth, hfits⟩ := (wf_iff x).1 h
  have hsections := parseChannels_serialized hfits rest
  rw [hchannels] at hsections
  have hh : (BitVec.ofNat 32 x.height).toNat = x.height := Nat.mod_eq_of_lt hheight
  have hw : (BitVec.ofNat 32 x.width).toNat = x.width := Nat.mod_eq_of_lt hwidth
  rw [containerBytes, List.append_assoc, parse_eq, decodeHdrFields_encode, ok_bind]
  show (parseChannels 3 _ >>= _) = _
  rw [hsections, ok_bind, hh, hw]
  show Except.ok (CompressedImage.mk x.channels x.height x.width 3) = _
  rw [← hcount]

/-- What parses is a container of its image, and bytes left over. -/
theorem eq_containerBytes_of_parse {bs : List Byte} {x : CompressedImage} (h : parse bs = .ok x)
    (hcount : x.count = 3) : x.wf = true ∧ ∃ rest, bs = containerBytes x ++ rest := by
  rw [parse_eq] at h
  obtain ⟨⟨⟨height, width, count⟩, bs₁⟩, hhdr, h⟩ := bind_eq_ok h
  obtain ⟨⟨cs, rest⟩, hchannels, h⟩ := bind_eq_ok h
  cases h
  have hthree : count = 3 := BitVec.eq_of_toNat_eq hcount
  subst hthree
  obtain rfl := eq_encode_of_decodeHdrFields hhdr
  obtain ⟨hlen, hfits, rfl⟩ := eq_serialized_of_parseChannels hchannels
  refine ⟨(wf_iff _).2 ⟨hlen, rfl, height.isLt, width.isLt, hfits⟩, rest, ?_⟩
  simp only [containerBytes, BitVec.ofNat_toNat, BitVec.setWidth_eq, List.append_assoc]

/-- Settles O53: `parse_containerBytes`, and `eq_containerBytes_of_parse` with no byte left over. -/
theorem parseOfSerialize : Obligations.ParseOfSerialize := by
  refine ⟨fun x hwf => ⟨_, serialize_of_wf hwf, parse_containerBytes hwf⟩, fun b x hparse hcount hlen => ?_⟩
  obtain ⟨hwf, rest, rfl⟩ := eq_containerBytes_of_parse hparse hcount
  rw [List.length_append, containerBytes_length] at hlen
  have hrest : rest = [] := List.eq_nil_of_length_eq_zero (by omega)
  rw [serialize_of_wf hwf, hrest, List.append_nil]

/-! ### The estimate -/

theorem estimatedBytes_eq (x : CompressedImage) :
    estimatedBytes x = 128 + (x.channels.flatten.map fun r => 2 + 3 * r.ac.length).sum := by
  rw [estimatedBytes, List.map_flatten, List.sum_flatten, List.map_map]
  rfl

/-- Records without pairs count 2 bytes each. -/
theorem sum_of_empty_records {cs : List (List BlockRecord)} (h : ∀ c ∈ cs, ∀ r ∈ c, r.ac = []) :
    (cs.flatten.map fun r => 2 + 3 * r.ac.length).sum = 2 * (cs.map List.length).sum := by
  have hconst : (cs.flatten.map fun r => 2 + 3 * r.ac.length) = cs.flatten.map fun _ => 2 :=
    List.map_congr_left fun r hr => by
      obtain ⟨c, hc, hr⟩ := List.mem_flatten.1 hr
      rw [h c hc r hr]
      rfl
  rw [hconst, List.map_const', List.sum_replicate, List.length_flatten, smul_eq_mul, Nat.mul_comm]

/-- Settles O58: the sum over channels is the sum over all records. -/
theorem estimateOfEmptyRecords : Obligations.EstimateOfEmptyRecords := by
  intro x hchannels original estimated
  refine ⟨?_, fun hempty => ?_⟩
  · rw [estimate, if_pos hchannels, estimatedBytes_eq]
  · show 128 + _ = _
    rw [sum_of_empty_records hempty, Nat.add_comm]

end Sys2Proof.Machine
end

section
/-! SERIALIZE on the block (47_host_procedures R213): a plan of units, each with the host writes that load its fields
and the WR command that emits it. Run on an OMEM that is large enough, or drained at every overflow, a plan puts out the
encodings of its units one after another. -/

namespace Sys2Proof.Machine

/-! ### What OMEM holds -/

/-- What has been written and not been read out: `OMEM[0 .. OPTR − 1]`. -/
def State.output (s : State) : List Byte := s.omemBytes 0 s.optr.toNat

theorem State.omemBytes_add (s : State) (a m n : Nat) :
    s.omemBytes a (m + n) = s.omemBytes a m ++ s.omemBytes (a + m) n := by
  induction m generalizing a with
  | zero => simp [State.omemBytes]
  | succ m ih => rw [Nat.add_right_comm, State.omemBytes, ih]; simp [State.omemBytes, Nat.add_assoc, Nat.add_comm 1]

/-- The bytes of OMEM below `n` depend on the bytes there alone. -/
theorem State.omemBytes_congr_of_lt {s t : State} {n : Nat} (h : ∀ a, a < n → t.omemByte a = s.omemByte a) :
    t.omemBytes 0 n = s.omemBytes 0 n := by
  refine List.ext_getElem? fun k => ?_
  rw [State.omemBytes_getElem?, State.omemBytes_getElem?]
  split
  · rw [h (0 + k) (by omega)]
  · rfl

theorem State.output_congr {s t : State} (homem : t.omem = s.omem) (hgen : t.gen = s.gen) (hoptr : t.optr = s.optr) :
    t.output = s.output := by
  rw [State.output, State.output, hoptr]
  exact State.omemBytes_congr (by funext a; simp only [State.omemByte, homem, hgen]) ..

/-- A unit emitted is appended to the output. -/
theorem State.output_emitted {s : State} {bs : List Byte}
    (h : s.optr.toNat + bs.length ≤ s.build.omemSize.toNat) : (s.emitted bs).output = s.output ++ bs := by
  have hbefore : (s.emitted bs).omemBytes 0 s.optr.toNat = s.omemBytes 0 s.optr.toNat :=
    State.omemBytes_congr_of_lt fun a ha => s.omemByte_emitted_outside bs (.inl ha)
  rw [State.output, State.emitted_optr_toNat h, State.omemBytes_add, hbefore, Nat.zero_add, s.omemBytes_emitted]
  rfl

/-! ### Host writes without a failure -/

/-- The actions lead from `s` to `t`, and no error is pending after any of them. -/
def RunsClear : List HostAction → State → State → Prop
  | [], s, t => t = s
  | a :: as, s, t => ∃ u, perform s a = .next u ∧ u.err = 0 ∧ RunsClear as u t

section
variable {s t u : State} {as bs : List HostAction}

theorem RunsClear.runActions (h : RunsClear as s t) : runActions as s = .next t := by
  induction as generalizing s with
  | nil => cases h; rfl
  | cons a as ih =>
    obtain ⟨v, hperform, _, h⟩ := h
    rw [runActions_cons hperform, ih h]

/-- Without a failure there is nothing to drain. -/
theorem RunsClear.drainActions (h : RunsClear as s t) : drainActions (as ++ bs) s = drainActions bs t := by
  induction as generalizing s with
  | nil => cases h; rfl
  | cons a as ih =>
    obtain ⟨v, hperform, hclear, h⟩ := h
    have hnone : v.err ≠ ErrCode.outOverflow.code := by rw [hclear]; decide
    rw [List.cons_append, Machine.drainActions, hperform]
    simp only [if_neg hnone, ih h]

end

/-! ### Loading a record -/

theorem pairActions_of_lt {p : Nat} (hp : p < 65535) (q : AcPair) :
    pairActions p q = [.writeRecRun ⟨p, hp⟩ q.run, .writeRecVal ⟨p, hp⟩ q.val] := dif_pos hp

/-- The record register after the two host writes of a pair. -/
def RecordReg.setPair (gen : Nat) (r : RecordReg) (p : Nat) (q : AcPair) : RecordReg :=
  (r.updatePair gen p fun x => { x with run := q.run }).updatePair gen p fun x => { x with val := q.val }

theorem RecordReg.pairAt_setPair (gen : Nat) (r : RecordReg) (p k : Nat) (q : AcPair) :
    (r.setPair gen p q).pairAt gen k = if k = p then q else r.pairAt gen k := by
  rw [RecordReg.setPair, RecordReg.pairAt_updatePair, RecordReg.pairAt_updatePair]
  split <;> rfl

/-- The host's writes of pairs from index `p` on. -/
theorem runsClear_pairsActions {qs : List AcPair} {p : Nat} {s : State} (hclear : s.err = 0)
    (hp : p + qs.length ≤ 65535) :
    ∃ r : RecordReg, RunsClear (pairsActions p qs) s { s with record := r } ∧ r.dc = s.record.dc ∧ r.n = s.record.n
      ∧ (∀ k, k < p → r.pairAt s.gen k = s.record.pairAt s.gen k)
      ∧ ∀ j, j < qs.length → qs[j]? = some (r.pairAt s.gen (p + j)) := by
  induction qs generalizing p s with
  | nil => exact ⟨s.record, rfl, rfl, rfl, fun _ _ => rfl, fun j hj => absurd hj (Nat.not_lt_zero j)⟩
  | cons q qs ih =>
    rw [List.length_cons] at hp
    obtain ⟨r, hrun, hdc, hn, hbelow, hpairs⟩ :=
      ih (p := p + 1) (s := { s with record := s.record.setPair s.gen p q }) hclear (by omega)
    refine ⟨r, ?_, hdc, hn, fun k hk => ?_, fun j hj => ?_⟩
    · rw [pairsActions, pairActions_of_lt (by omega)]
      exact ⟨_, rfl, hclear, _, rfl, hclear, hrun⟩
    · exact (hbelow k (by omega)).trans ((RecordReg.pairAt_setPair ..).trans (if_neg (by omega)))
    · cases j with
      | zero =>
        have hq := (hbelow p (Nat.lt_succ_self p)).trans ((RecordReg.pairAt_setPair ..).trans (if_pos rfl))
        exact congrArg some hq.symm
      | succ j =>
        rw [List.getElem?_cons_succ, hpairs j (Nat.lt_of_succ_lt_succ hj)]
        congr 2
        omega

/-- The host's writes of a record leave it in REC. -/
theorem runsClear_recordActions {r : BlockRecord} {s : State} (hclear : s.err = 0) (hac : r.ac.length ≤ recCap) :
    ∃ reg : RecordReg, RunsClear (recordActions r) s { s with record := reg } ∧ reg.dc = r.dc
      ∧ reg.pairs s.gen = r.ac := by
  obtain ⟨reg, hrun, hdc, hn, _, hpairs⟩ :=
    runsClear_pairsActions (qs := r.ac) (p := 0)
      (s := { s with record := { s.record with dc := r.dc, n := BitVec.ofNat 16 r.ac.length } }) hclear
      (by unfold recCap at hac; omega)
  have hcount : reg.n.toNat = r.ac.length := by
    rw [hn]
    exact Nat.mod_eq_of_lt (Nat.lt_succ_of_le hac)
  refine ⟨reg, ?_, hdc, List.ext_getElem? fun k => ?_⟩
  · rw [recordActions, List.take_of_length_le hac, Nat.min_eq_left hac]
    exact ⟨_, rfl, hclear, _, rfl, hclear, hrun⟩
  · rw [RecordReg.pairs_getElem?, hcount]
    split
    case isTrue hk => rw [hpairs k hk, Nat.zero_add]
    case isFalse hk => rw [List.getElem?_eq_none (Nat.le_of_not_lt hk)]

/-! ### WR commands -/

/-- Command word `c` emits unit `i` from the registers and REC of `s`, wherever OPTR stands. -/
def Emits (c : Byte) (i : Instr) (s : State) : Prop :=
  ∀ o : Word, ∃ fs, fieldsBytes fs = encode i
    ∧ issue c { s with optr := o } = whenClear { s with optr := o } (settle { s with optr := o }
      (emit fs { s with optr := o }))

theorem emits_hdr (s : State) : Emits 0x10#8 (.hdr s.height s.width 3) s := fun _ => ⟨hdrFields s, rfl, rfl⟩

theorem emits_chn (s : State) : Emits 0x11#8 (.chn s.blkcnt) s := fun _ => ⟨chnFields s, rfl, rfl⟩

theorem emits_record (s : State) : Emits 0x12#8 (.record s.record.dc (s.record.pairs s.gen)) s :=
  fun _ => ⟨recordFields s, fieldsBytes_recordFields_eq_encode s, rfl⟩

section
variable {c : Byte} {i : Instr} {s : State}

theorem issue_of_emits_of_fits (h : Emits c i s) (hclear : s.err = 0)
    (hfits : s.optr.toNat + i.size ≤ s.build.omemSize.toNat) : issue c s = .next (s.emitted (encode i)) := by
  obtain ⟨fs, hbytes, hissue⟩ := h s.optr
  have hlen : fieldsLength fs = i.size := by rw [← fieldsBytes_length, hbytes, encode_length]
  rw [hissue, whenClear_of_clear _ hclear, emit_of_le (s := s) (by rw [hlen]; exact hfits), hbytes]
  rfl

theorem issue_of_emits_of_long (h : Emits c i s) (hclear : s.err = 0)
    (hlong : s.build.omemSize.toNat < s.optr.toNat + i.size) : issue c s = .next (raise .outOverflow s) := by
  obtain ⟨fs, hbytes, hissue⟩ := h s.optr
  have hlen : fieldsLength fs = i.size := by rw [← fieldsBytes_length, hbytes, encode_length]
  rw [hissue, whenClear_of_clear _ hclear, emit_of_lt (s := s) (by rw [hlen]; exact hlong)]
  rfl

theorem setErr_setErr (s : State) (e f : BitVec 4) : (s.setErr e).setErr f = s.setErr f := by
  have hcode : e.setWidth 32 &&& 0xFFFFFFF0#32 = 0#32 := by
    ext j hj
    have hmask : (0xFFFFFFF0#32)[j] = decide (4 ≤ j) := by revert j; decide
    simp only [BitVec.getElem_and, BitVec.getElem_setWidth, hmask, BitVec.getElem_zero]
    by_cases h4 : 4 ≤ j
    · rw [BitVec.getLsbD_of_ge e j h4, Bool.false_and]
    · simp [h4]
  have hstatus : ((s.status &&& 0xFFFFFFF0#32) ||| e.setWidth 32) &&& 0xFFFFFFF0#32 = s.status &&& 0xFFFFFFF0#32 := by
    rw [BitVec.and_or_distrib_right, hcode, BitVec.or_zero, BitVec.and_assoc, BitVec.and_self]
  simp only [State.setErr, hstatus]

/-- CLRERR takes a raised error back. -/
theorem clearErr_raise (e : ErrCode) (hclear : s.err = 0) : clearErr (raise e s) = s := by
  rw [raise_of_clear e hclear, clearErr, setErr_setErr]
  exact clearErr_of_clear hclear

/-- After an overflow the host sets OPTR to 0, issues CLRERR and the command again, and the unit is emitted alone
(47_host_procedures R213). -/
theorem runActions_retry (h : Emits c i s) (hclear : s.err = 0) (hsize : i.size ≤ s.build.omemSize.toNat) :
    runActions [.writeCtrl .optr 0, .command 0x1E#8, .command c] (raise .outOverflow s)
      = .next (State.emitted { s with optr := 0 } (encode i)) := by
  have hoptr : perform (raise .outOverflow s) (.writeCtrl .optr 0)
      = .next { raise .outOverflow s with optr := 0 } := rfl
  have hclrerr : perform { raise .outOverflow s with optr := 0 } (.command 0x1E#8) = .next { s with optr := 0 } := by
    have hback : clearErr { raise .outOverflow s with optr := 0 } = { s with optr := 0 } :=
      congrArg (fun t : State => { t with optr := 0 }) (clearErr_raise .outOverflow hclear)
    exact congrArg Host.Outcome.next hback
  have hagain : perform { s with optr := 0 } (.command c)
      = .next (State.emitted { s with optr := 0 } (encode i)) :=
    issue_of_emits_of_fits (s := { s with optr := 0 }) h hclear (by simpa using hsize)
  rw [runActions_cons hoptr, runActions_cons hclrerr, runActions_single hagain]

/-- A WR command on a small OMEM: what is drained and what is then in OMEM are the output so far and the unit. -/
theorem drainActions_command (h : Emits c i s) (hclear : s.err = 0) (hsize : i.size ≤ s.build.omemSize.toNat)
    (as : List HostAction) :
    ∃ piece u, drainActions (.command c :: as) s = (drainActions as u).map (fun out => (piece ++ out.1, out.2))
      ∧ u.err = 0 ∧ u.build = s.build ∧ piece ++ u.output = s.output ++ encode i := by
  by_cases hfits : s.optr.toNat + i.size ≤ s.build.omemSize.toNat
  · have hperform : perform s (.command c) = .next (s.emitted (encode i)) := issue_of_emits_of_fits h hclear hfits
    have herr : (s.emitted (encode i)).err = 0 := hclear
    have hnone : (s.emitted (encode i)).err ≠ ErrCode.outOverflow.code := by rw [herr]; decide
    refine ⟨[], s.emitted (encode i), ?_, herr, rfl, State.output_emitted (by rwa [encode_length])⟩
    rw [drainActions, hperform]
    simp only [if_neg hnone, List.nil_append, Prod.mk.eta, Option.map_id']
  · have hperform : perform s (.command c) = .next (raise .outOverflow s) :=
      issue_of_emits_of_long h hclear (Nat.lt_of_not_le hfits)
    have hfull : (raise .outOverflow s).err = ErrCode.outOverflow.code := by rw [raise_err, if_pos hclear]
    have houtput : (raise .outOverflow s).omemBytes 0 (raise .outOverflow s).optr.toNat = s.output := by
      rw [raise_of_clear _ hclear]
      exact State.output_congr (t := s.setErr _) rfl rfl rfl
    have herr : (State.emitted { s with optr := 0 } (encode i)).err = 0 := hclear
    have hunit : (State.emitted { s with optr := 0 } (encode i)).output = encode i :=
      State.output_emitted (s := { s with optr := 0 }) (by rw [encode_length]; simpa using hsize)
    refine ⟨s.output, State.emitted { s with optr := 0 } (encode i), ?_, herr, rfl, by rw [hunit]⟩
    rw [drainActions, hperform]
    simp only [if_pos hfull, runActions_retry h hclear hsize, if_pos herr, houtput]

end

/-! ### Plans -/

/-- A unit of a container, the WR command that emits it and the host writes that load its fields before. -/
structure UnitPlan where
  setup : List HostAction
  command : Byte
  unit : Instr

/-- The actions of a plan. -/
def planActions (plan : List UnitPlan) : List HostAction := plan.flatMap fun p => p.setup ++ [.command p.command]

/-- The bytes a plan puts out. -/
def planBytes (plan : List UnitPlan) : List Byte := plan.flatMap fun p => encode p.unit

/-- The writes load the fields that the command then emits, and leave the output as it was. -/
def UnitPlan.Works (p : UnitPlan) : Prop :=
  ∀ s : State, s.err = 0 → ∃ t, RunsClear p.setup s t ∧ t.err = 0 ∧ t.optr = s.optr ∧ t.output = s.output
    ∧ t.build = s.build ∧ Emits p.command p.unit t

section
variable {plan : List UnitPlan} {s : State}

theorem planActions_cons (p : UnitPlan) (plan : List UnitPlan) :
    planActions (p :: plan) = p.setup ++ (.command p.command :: planActions plan) := by
  simp [planActions]

/-- A plan on an OMEM that has room for all its units. -/
theorem runActions_plan (hworks : ∀ p ∈ plan, p.Works) (hclear : s.err = 0)
    (hroom : s.optr.toNat + (planBytes plan).length ≤ s.build.omemSize.toNat) :
    ∃ t, runActions (planActions plan) s = .next t ∧ t.err = 0
      ∧ t.optr.toNat = s.optr.toNat + (planBytes plan).length ∧ t.output = s.output ++ planBytes plan := by
  induction plan generalizing s with
  | nil => exact ⟨s, rfl, hclear, rfl, (List.append_nil _).symm⟩
  | cons p plan ih =>
    obtain ⟨hp, hworks⟩ := List.forall_mem_cons.1 hworks
    obtain ⟨u, hsetup, huclear, hoptr, houtput, hbuild, hemits⟩ := hp s hclear
    have hbytes : planBytes (p :: plan) = encode p.unit ++ planBytes plan := rfl
    rw [hbytes, List.length_append, ← hoptr, ← hbuild] at hroom
    have hfits : u.optr.toNat + (encode p.unit).length ≤ u.build.omemSize.toNat := by omega
    have hcommand : perform u (.command p.command) = .next (u.emitted (encode p.unit)) :=
      issue_of_emits_of_fits hemits huclear (by rwa [encode_length] at hfits)
    have hcursor := State.emitted_optr_toNat hfits
    obtain ⟨t, hrun, htclear, htoptr, htoutput⟩ := ih hworks (s := u.emitted (encode p.unit)) huclear
      (by rw [hcursor]; show _ ≤ u.build.omemSize.toNat; omega)
    refine ⟨t, ?_, htclear, ?_, ?_⟩
    · rw [planActions_cons, runActions_append hsetup.runActions, runActions_cons hcommand, hrun]
    · rw [htoptr, hcursor, hbytes, List.length_append, hoptr, Nat.add_assoc]
    · rw [htoutput, State.output_emitted hfits, houtput, hbytes, List.append_assoc]

/-- A plan drained at every overflow, on an OMEM that has room for each of its units. -/
theorem drainActions_plan (hworks : ∀ p ∈ plan, p.Works) (hclear : s.err = 0)
    (hroom : ∀ p ∈ plan, p.unit.size ≤ s.build.omemSize.toNat) :
    ∃ pieces t, drainActions (planActions plan) s = some (pieces, t)
      ∧ pieces ++ t.output = s.output ++ planBytes plan := by
  induction plan generalizing s with
  | nil => exact ⟨[], s, rfl, (List.append_nil _).symm⟩
  | cons p plan ih =>
    obtain ⟨hp, hworks⟩ := List.forall_mem_cons.1 hworks
    obtain ⟨hsize, hroom⟩ := List.forall_mem_cons.1 hroom
    obtain ⟨u, hsetup, huclear, _, houtput, hbuild, hemits⟩ := hp s hclear
    obtain ⟨piece, v, hdrain, hvclear, hvbuild, hpiece⟩ :=
      drainActions_command hemits huclear (hbuild ▸ hsize) (planActions plan)
    obtain ⟨pieces, t, hrest, hpieces⟩ := ih hworks hvclear (by rwa [hvbuild, hbuild])
    have hbytes : planBytes (p :: plan) = encode p.unit ++ planBytes plan := rfl
    refine ⟨piece ++ pieces, t, ?_, ?_⟩
    · rw [planActions_cons, hsetup.drainActions, hdrain, hrest]
      rfl
    · rw [List.append_assoc, hpieces, ← List.append_assoc, hpiece, houtput, hbytes, List.append_assoc]

end

/-! ### The plan of an image -/

/-- The plan of a channel: its head and its records (47_host_procedures R213). -/
def channelPlan (c : List BlockRecord) : List UnitPlan :=
  ⟨[.writeCtrl .blkcnt (BitVec.ofNat 32 c.length)], 0x11#8, .chn (BitVec.ofNat 32 c.length)⟩
    :: c.map fun r => ⟨recordActions r, 0x12#8, .record r.dc r.ac⟩

/-- The plan of an image: its header and its channels. -/
def imagePlan (x : CompressedImage) : List UnitPlan :=
  ⟨[.writeCtrl .height (BitVec.ofNat 32 x.height), .writeCtrl .width (BitVec.ofNat 32 x.width)], 0x10#8,
    .hdr (BitVec.ofNat 32 x.height) (BitVec.ofNat 32 x.width) 3⟩ :: x.channels.flatMap channelPlan

section
variable {x : CompressedImage}

theorem planActions_channelPlan (c : List BlockRecord) : planActions (channelPlan c) = serializeChannelActions c := by
  rw [channelPlan, planActions_cons, planActions, List.flatMap_map]
  rfl

theorem planBytes_channelPlan (c : List BlockRecord) : planBytes (channelPlan c) = serializeChannel c := by
  simp only [channelPlan, planBytes, List.flatMap_cons, List.flatMap_map]
  rfl

theorem serializeActions_of_wf (h : x.wf = true) :
    serializeActions x = some (.writeCtrl .optr 0 :: planActions (imagePlan x)) := by
  have hchannels : planActions (x.channels.flatMap channelPlan) = x.channels.flatMap serializeChannelActions := by
    rw [planActions, List.flatMap_assoc]
    exact List.flatMap_congr fun c _ => planActions_channelPlan c
  rw [serializeActions, if_pos h, imagePlan, planActions_cons, hchannels]
  rfl

theorem planBytes_imagePlan (x : CompressedImage) : planBytes (imagePlan x) = containerBytes x := by
  have hchannels : planBytes (x.channels.flatMap channelPlan) = x.channels.flatMap serializeChannel := by
    rw [planBytes, List.flatMap_assoc]
    exact List.flatMap_congr fun c _ => planBytes_channelPlan c
  rw [containerBytes, ← hchannels]
  rfl

/-- A property of the units of a plan holds where it holds of the header, the channel heads and the records. -/
theorem forall_mem_imagePlan {P : UnitPlan → Prop}
    (hhdr : P ⟨[.writeCtrl .height (BitVec.ofNat 32 x.height), .writeCtrl .width (BitVec.ofNat 32 x.width)], 0x10#8,
      .hdr (BitVec.ofNat 32 x.height) (BitVec.ofNat 32 x.width) 3⟩)
    (hchn : ∀ n : Word, P ⟨[.writeCtrl .blkcnt n], 0x11#8, .chn n⟩)
    (hrecord : ∀ c ∈ x.channels, ∀ r ∈ c, P ⟨recordActions r, 0x12#8, .record r.dc r.ac⟩) :
    ∀ p ∈ imagePlan x, P p := by
  refine List.forall_mem_cons.2 ⟨hhdr, fun p hp => ?_⟩
  obtain ⟨c, hc, hp⟩ := List.mem_flatMap.1 hp
  rcases List.mem_cons.1 hp with rfl | hp
  · exact hchn _
  · obtain ⟨r, hr, rfl⟩ := List.mem_map.1 hp
    exact hrecord c hc r hr

theorem imagePlan_works (h : x.wf = true) : ∀ p ∈ imagePlan x, p.Works := by
  obtain ⟨_, _, _, _, hfits⟩ := (wf_iff x).1 h
  refine forall_mem_imagePlan (fun s hclear => ?_) (fun n s hclear => ?_) fun c hc r hr s hclear => ?_
  · have hemits := emits_hdr { s with height := BitVec.ofNat 32 x.height, width := BitVec.ofNat 32 x.width }
    exact ⟨_, ⟨_, rfl, hclear, _, rfl, hclear, rfl⟩, hclear, rfl, State.output_congr rfl rfl rfl, rfl, hemits⟩
  · have hemits := emits_chn { s with blkcnt := n }
    exact ⟨_, ⟨_, rfl, hclear, rfl⟩, hclear, rfl, State.output_congr rfl rfl rfl, rfl, hemits⟩
  · obtain ⟨reg, hrun, hdc, hpairs⟩ := runsClear_recordActions hclear ((hfits c hc).2 r hr)
    have hemits := emits_record { s with record := reg }
    simp only [hdc, hpairs] at hemits
    exact ⟨_, hrun, hclear, rfl, State.output_congr rfl rfl rfl, rfl, hemits⟩

end

/-- Settles O55: the plan of the image, from OPTR 0. -/
theorem serializeOnTheBlock : Obligations.SerializeOnTheBlock := by
  intro s x hwf hclear hroom
  have hlen : (planBytes (imagePlan x)).length = containerSize x := by
    rw [planBytes_imagePlan, containerBytes_length]
  obtain ⟨t, hrun, htclear, htoptr, htoutput⟩ := runActions_plan (s := { s with optr := 0 }) (imagePlan_works hwf)
    hclear (by rw [hlen]; simpa using hroom)
  refine ⟨_, t, serializeActions_of_wf hwf, ?_, htclear, ?_, ?_⟩
  · exact hrun
  · rw [htoptr, hlen]
    exact Nat.zero_add _
  · rw [serialize_of_wf hwf, ← planBytes_imagePlan]
    exact congrArg some htoutput.symm

end Sys2Proof.Machine

namespace Sys2Proof

open Machine

/-- Settles O56: the plan of the image, drained, from OPTR 0. -/
theorem serializeInPieces : Obligations.SerializeInPieces := by
  intro s x hwf hclear hhdr hrecords
  have hroom : ∀ p ∈ imagePlan x, p.unit.size ≤ s.build.omemSize.toNat :=
    forall_mem_imagePlan hhdr (fun _ => le_trans (by decide : 4 ≤ 16) hhdr) hrecords
  obtain ⟨pieces, t, hdrain, hpieces⟩ :=
    drainActions_plan (s := { s with optr := 0 }) (imagePlan_works hwf) hclear hroom
  have hstart : RunsClear [.writeCtrl .optr 0] s { s with optr := 0 } := ⟨_, rfl, hclear, rfl⟩
  have hall : drainActions (.writeCtrl .optr 0 :: planActions (imagePlan x)) s = some (pieces, t) :=
    hstart.drainActions.trans hdrain
  refine ⟨containerBytes x, ?_, serialize_of_wf hwf⟩
  simp only [Machine.serializeInPieces, serializeActions_of_wf hwf, hall, Option.bind_eq_bind, Option.bind_some]
  rw [← planBytes_imagePlan]
  exact congrArg some hpieces

end Sys2Proof
end

section
/-! PARSE on the block (47_host_procedures R214): each RD command answers as the decoder of its unit does on the valid
bytes from IPTR on, so the loops of PARSE answer as those of `parse` do. -/

namespace Sys2Proof.Machine

/-! ### A procedure that decodes -/

/-- The procedure `y` on the block answers as the decoder `x` of the valid bytes does: the same value, with the bytes
left over standing at IPTR and no error pending; or the failure's code. -/
def Simulates {α : Type} (x : Except DecodeError (α × List Byte)) (y : Except (BitVec 4 × State) (α × State)) : Prop :=
  match x with
  | .ok (v, rest) => ∃ t : State, y = .ok (v, t) ∧ t.err = 0 ∧ rest = t.validFrom t.iptr.toNat
  | .error d => ∃ (e : ErrCode) (t : State), (e = .badMagic ∨ e = .truncated) ∧ d = e.toDecodeError
      ∧ y = .error (e.code, t)

theorem Simulates.bind {α β : Type} {x : Except DecodeError (α × List Byte)}
    {y : Except (BitVec 4 × State) (α × State)} {f : α × List Byte → Except DecodeError (β × List Byte)}
    {g : α × State → Except (BitVec 4 × State) (β × State)} (h : Simulates x y)
    (hf : ∀ (v : α) (t : State), t.err = 0 → Simulates (f (v, t.validFrom t.iptr.toNat)) (g (v, t))) :
    Simulates (x >>= f) (y >>= g) := by
  cases x with
  | error d =>
    obtain ⟨e, t, he, hd, hy⟩ := h
    rw [hy]
    exact ⟨e, t, he, hd, rfl⟩
  | ok u =>
    obtain ⟨t, hy, hclear, hrest⟩ := h
    have hnext := hf u.1 t hclear
    rw [hy, ok_bind]
    rw [← hrest] at hnext
    exact hnext

theorem simulates_ok {α : Type} {t : State} (v : α) (hclear : t.err = 0) :
    Simulates (.ok (v, t.validFrom t.iptr.toNat)) (.ok (v, t)) := ⟨t, rfl, hclear, rfl⟩

/-! ### RD commands -/

/-- The valid bytes depend on IMEM and ILEN alone. -/
theorem State.validFrom_congr {s t : State} (himem : t.imem = s.imem) (hgen : t.gen = s.gen) (hilen : t.ilen = s.ilen)
    (a : Nat) : t.validFrom a = s.validFrom a := by
  refine List.ext_getElem? fun k => ?_
  simp only [State.validFrom, State.imemBytes_getElem?, State.imemByte, himem, hgen, hilen]

section
variable {s : State}

/-- An RD command issued by PARSE, `view` being what PARSE takes from the registers or REC after it. -/
theorem simulates_rd {α : Type} {c : Byte} {r : Except ErrCode α} {load : α → State} {finish : α → Nat}
    {view : State → α} (hissue : issue c s = whenClear s (settle s (r.map load))) (hclear : s.err = 0)
    (hload : ∀ u, r = .ok u → (load u).err = 0 ∧ view (load u) = u
      ∧ s.validFrom (finish u) = (load u).validFrom (load u).iptr.toNat)
    (herror : ∀ e, r = .error e → e = .badMagic ∨ e = .truncated) :
    Simulates (asDecoded s finish r) (issueChecked c s >>= fun t => .ok (view t, t)) := by
  rw [whenClear_of_clear _ hclear] at hissue
  cases r with
  | error e =>
    have hraised : (raise e s).err = e.code := by rw [raise_err, if_pos hclear]
    have hnext : issue c s = .next (raise e s) := hissue
    have hchecked : issueChecked c s = .error (e.code, raise e s) := by
      simp only [issueChecked, hnext, hraised, if_neg e.code_ne_zero]
    rw [hchecked]
    exact ⟨e, _, herror e rfl, rfl, rfl⟩
  | ok u =>
    obtain ⟨hnone, hview, hvalid⟩ := hload u rfl
    have hnext : issue c s = .next (load u) := hissue
    have hchecked : issueChecked c s = .ok (load u) := by simp only [issueChecked, hnext, if_pos hnone]
    rw [hchecked, ok_bind, hview]
    exact ⟨_, rfl, hnone, hvalid⟩

theorem le_of_readHdr {u : Word × Word × Word} (h : readHdr s = .ok u) : s.iptr.toNat + 16 ≤ s.ilen.toNat := by
  have hdecode : decode .hdr (s.validFrom s.iptr.toNat)
      = .ok (.hdr u.1 u.2.1 u.2.2, s.validFrom (s.iptr.toNat + 16)) := by
    rw [decode, decodeHdr_eq, decodeHdrFields_validFrom, h]
    rfl
  exact size_le_of_decode_validFrom hdecode (Nat.succ_pos 15)

theorem simulates_rdhdr (hclear : s.err = 0) :
    Simulates (decodeHdrFields (s.validFrom s.iptr.toNat))
      (issueChecked 0x18#8 s >>= fun t => .ok ((t.height, t.width, t.nchan), t)) := by
  rw [decodeHdrFields_validFrom]
  refine simulates_rd (view := fun t => (t.height, t.width, t.nchan)) rfl hclear (fun u hu => ?_)
    fun e he => readHdr_error he
  refine ⟨hclear, rfl, ?_⟩
  have hcursor : (loadHdr u.1 u.2.1 u.2.2 s).iptr.toNat = s.iptr.toNat + 16 :=
    advance_iptr_toNat_of_fits 16 _ (le_of_readHdr hu)
  rw [hcursor]
  exact (State.validFrom_congr (loadHdr_imem ..) (loadHdr_gen ..) (loadHdr_ilen ..) _).symm

theorem simulates_rdchn (hclear : s.err = 0) :
    Simulates (decodeField 4 (s.validFrom s.iptr.toNat))
      (issueChecked 0x19#8 s >>= fun t => .ok (t.blkcnt.toNat, t)) := by
  have hissue : issue 0x19#8 s
      = whenClear s (settle s ((imemRead s s.iptr.toNat 4).map fun k => loadChn (BitVec.ofNat 32 k) s)) := by
    have hread : (readChn s).map (fun k => loadChn k s)
        = (imemRead s s.iptr.toNat 4).map fun k => loadChn (BitVec.ofNat 32 k) s := by
      rw [readChn]
      cases imemRead s s.iptr.toNat 4 <;> rfl
    rw [← hread]
    rfl
  rw [decodeField_validFrom (n := 4) s _ (by decide)]
  refine simulates_rd (view := fun t => t.blkcnt.toNat) hissue hclear (fun k hk => ?_)
    fun e he => .inr (imemRead_error he)
  obtain ⟨hfits, hvalue⟩ := imemRead_eq_ok hk
  have hlt : k < 256 ^ 4 := hvalue ▸ leNat_imemBytes_lt s _ 4
  refine ⟨hclear, Nat.mod_eq_of_lt hlt, ?_⟩
  have hcursor : (loadChn (BitVec.ofNat 32 k) s).iptr.toNat = s.iptr.toNat + 4 :=
    advance_iptr_toNat_of_fits 4 _ hfits
  rw [hcursor]
  exact (State.validFrom_congr (loadChn_imem ..) (loadChn_gen ..) (loadChn_ilen ..) _).symm

theorem fits_of_readRecord {u : Half × List AcPair} (h : readRecord s = .ok u) :
    u.2.length ≤ recCap ∧ s.iptr.toNat + (4 + 3 * u.2.length) ≤ s.ilen.toNat := by
  have hfields := decodeRecordFields_validFrom s
  rw [h] at hfields
  have hdecode : decode .record (s.validFrom s.iptr.toNat)
      = .ok (.record u.1 u.2, s.validFrom (s.iptr.toNat + (4 + 3 * u.2.length))) := by
    rw [decode, decodeRecord_eq, hfields]
    rfl
  exact ⟨(eq_encode_of_decodeRecordFields hfields).1,
    size_le_of_decode_validFrom hdecode (by simp only [Instr.size]; omega)⟩

theorem simulates_rdrec (hclear : s.err = 0) :
    Simulates (decodeRecordFields (s.validFrom s.iptr.toNat))
      (issueChecked 0x1A#8 s >>= fun t => .ok ((t.record.dc, t.record.pairs t.gen), t)) := by
  rw [decodeRecordFields_validFrom]
  refine simulates_rd (view := fun t => (t.record.dc, t.record.pairs t.gen)) rfl hclear (fun u hu => ?_)
    fun e he => .inr (readRecord_error he)
  obtain ⟨hcap, hfits⟩ := fits_of_readRecord hu
  refine ⟨hclear, Prod.ext rfl (RecordReg.pairs_ofPairs _ _ _ hcap), ?_⟩
  have hcursor : (loadRecord u.1 u.2 s).iptr.toNat = s.iptr.toNat + (4 + 3 * u.2.length) :=
    advance_iptr_toNat_of_fits _ _ hfits
  rw [hcursor]
  exact (State.validFrom_congr (loadRecord_imem ..) (loadRecord_gen ..) (loadRecord_ilen ..) _).symm

/-! ### The loops -/

theorem parseRecordsBy_succ (n : Nat) (s : State) :
    parseRecordsBy (n + 1) s = (issueChecked 0x1A#8 s >>= fun t => .ok ((t.record.dc, t.record.pairs t.gen), t))
      >>= fun u => parseRecordsBy n u.2 >>= fun v => .ok (⟨u.1.1, u.1.2⟩ :: v.1, v.2) := by
  rw [parseRecordsBy, bind_assoc]
  rfl

theorem parseChannelsBy_succ (n : Nat) (s : State) :
    parseChannelsBy (n + 1) s = (issueChecked 0x19#8 s >>= fun t => .ok (t.blkcnt.toNat, t))
      >>= fun u => parseRecordsBy u.1 u.2 >>= fun v => parseChannelsBy n v.2 >>= fun w => .ok (v.1 :: w.1, w.2) := by
  rw [parseChannelsBy, bind_assoc]
  rfl

theorem simulates_parseRecords (n : Nat) (hclear : s.err = 0) :
    Simulates (parseRecords n (s.validFrom s.iptr.toNat)) (parseRecordsBy n s) := by
  induction n generalizing s with
  | zero => exact simulates_ok _ hclear
  | succ n ih =>
    rw [parseRecords_succ, parseRecordsBy_succ]
    exact (simulates_rdrec hclear).bind fun u t ht => (ih ht).bind fun rs t' ht' => simulates_ok _ ht'

theorem simulates_parseChannels (n : Nat) (hclear : s.err = 0) :
    Simulates (parseChannels n (s.validFrom s.iptr.toNat)) (parseChannelsBy n s) := by
  induction n generalizing s with
  | zero => exact simulates_ok _ hclear
  | succ n ih =>
    rw [parseChannels_succ, parseChannelsBy_succ]
    exact (simulates_rdchn hclear).bind fun k t ht => (simulates_parseRecords k ht).bind fun rs t' ht' =>
      (ih ht').bind fun cs t'' ht'' => simulates_ok _ ht''

/-- `parse` with the bytes left over, which it does not look at (30_encoding R92). -/
def parseWithRest (bs : List Byte) : Except DecodeError (CompressedImage × List Byte) :=
  decodeHdrFields bs >>= fun u => parseChannels u.1.2.2.toNat u.2 >>= fun v =>
    .ok (⟨v.1, u.1.1.toNat, u.1.2.1.toNat, u.1.2.2.toNat⟩, v.2)

theorem parse_eq_parseWithRest (bs : List Byte) : parse bs = parseWithRest bs >>= fun u => .ok u.1 := by
  rw [parse_eq, parseWithRest, bind_assoc]
  congr 1
  funext u
  rw [bind_assoc]
  rfl

theorem parseBy_eq (s : State) :
    parseBy s = (issueChecked 0x18#8 s >>= fun t => .ok ((t.height, t.width, t.nchan), t))
      >>= fun u => parseChannelsBy u.1.2.2.toNat u.2 >>= fun v =>
        .ok (⟨v.1, u.1.1.toNat, u.1.2.1.toNat, u.1.2.2.toNat⟩, v.2) := by
  rw [parseBy, bind_assoc]
  rfl

theorem simulates_parse (hclear : s.err = 0) : Simulates (parseWithRest (s.validFrom s.iptr.toNat)) (parseBy s) := by
  rw [parseWithRest, parseBy_eq]
  exact (simulates_rdhdr hclear).bind fun u t ht => (simulates_parseChannels _ ht).bind fun cs t' ht' =>
    simulates_ok _ ht'

/-! ### PARSE -/

/-- CLRERR ends with no error pending, so PARSE does after a failure too. -/
theorem parseOnBlock_of_error {e : BitVec 4} {t : State} (h : parseBy s = .error (e, t)) :
    parseOnBlock s = (.error e, clearErr t) := by
  rw [parseOnBlock, h]
  rfl

theorem parseOnBlock_of_ok {x : CompressedImage} {t : State} (h : parseBy s = .ok (x, t)) :
    parseOnBlock s = (.ok x, t) := by
  rw [parseOnBlock, h]

theorem parseOnBlock_computes_parse (hclear : s.err = 0) :
    (parseOnBlock s).2.err = 0 ∧
      match parse (s.validFrom s.iptr.toNat) with
      | .ok x => (parseOnBlock s).1 = .ok x
      | .error .badMagic => (parseOnBlock s).1 = .error 1
      | .error .truncated => (parseOnBlock s).1 = .error 2
      | .error .illegalWord => False := by
  have hsimulates := simulates_parse hclear
  rw [parse_eq_parseWithRest]
  cases hparse : parseWithRest (s.validFrom s.iptr.toNat) with
  | ok u =>
    rw [hparse] at hsimulates
    obtain ⟨t, hblock, ht, _⟩ := hsimulates
    rw [parseOnBlock_of_ok hblock]
    exact ⟨ht, rfl⟩
  | error d =>
    rw [hparse] at hsimulates
    obtain ⟨e, t, he, rfl, hblock⟩ := hsimulates
    rw [parseOnBlock_of_error hblock]
    refine ⟨t.setErr_err 0, ?_⟩
    rcases he with rfl | rfl <;> rfl

/-! ### Loading the container -/

theorem runActions_imemActions {bs : List Byte} {a : Nat} {s : State}
    (h : a + bs.length ≤ s.build.imemSize.toNat) :
    runActions (imemActions a bs) s = .next { s with imem := Memory.store s.imem a bs } := by
  induction bs generalizing a s with
  | nil => rfl
  | cons b bs ih =>
    rw [List.length_cons] at h
    have hwrite : perform s (.writeImem a b) = .next { s with imem := Memory.write s.imem a b } :=
      atAddress_of_lt _ (by omega)
    rw [imemActions, runActions_cons hwrite]
    exact ih (s := { s with imem := Memory.write s.imem a b }) (by show _ ≤ s.build.imemSize.toNat; omega)

/-- Bytes stored from address 0 on are what IMEM then holds there. -/
theorem State.imemBytes_of_store {t : State} {m : Memory} {b : List Byte} (h : t.imem = Memory.store m 0 b) :
    t.imemBytes 0 b.length = b := by
  refine List.ext_getElem? fun k => ?_
  rw [State.imemBytes_getElem?, Nat.zero_add]
  split
  case isTrue hk =>
    rw [State.imemByte, h, Memory.get?_store, if_pos (by omega), Nat.sub_zero, List.getElem?_eq_getElem hk]
    rfl
  case isFalse hk => rw [List.getElem?_eq_none (Nat.le_of_not_lt hk)]

/-- The set-up of PARSE leaves the container's bytes as the valid bytes from IPTR on. -/
theorem runActions_loadActions {b : List Byte} (hclear : s.err = 0) (hfits : b.length ≤ s.build.imemSize.toNat) :
    ∃ t, runActions (loadActions b) s = .next t ∧ t.err = 0 ∧ t.validFrom t.iptr.toNat = b := by
  have hlen : (BitVec.ofNat 32 b.length).toNat = b.length :=
    Nat.mod_eq_of_lt (hfits.trans_lt s.build.imemSize.isLt)
  have hsize : (BitVec.ofNat 32 b.length).toNat ≤ s.build.imemSize.toNat := hlen.trans_le hfits
  have hilen : perform { s with imem := Memory.store s.imem 0 b } (.writeCtrl .ilen (BitVec.ofNat 32 b.length))
      = .next { s with imem := Memory.store s.imem 0 b, ilen := BitVec.ofNat 32 b.length } := by
    simp only [perform, writeCtrl, if_pos hsize]
  refine ⟨{ s with imem := Memory.store s.imem 0 b, ilen := BitVec.ofNat 32 b.length, iptr := 0 }, ?_, hclear, ?_⟩
  · rw [loadActions, runActions_append (runActions_imemActions (by rwa [Nat.zero_add])), runActions_cons hilen]
    exact runActions_single rfl
  · show State.imemBytes _ 0 ((BitVec.ofNat 32 b.length).toNat - 0) = b
    rw [hlen, Nat.sub_zero]
    exact State.imemBytes_of_store rfl

end

/-- Settles O57: PARSE answers as `parse` on the valid bytes, which the set-up makes those of the container. -/
theorem parseOnTheBlock : Obligations.ParseOnTheBlock := by
  intro s b hclear hfits
  obtain ⟨t, hload, ht, hvalid⟩ := runActions_loadActions hclear hfits
  have hparse := parseOnBlock_computes_parse ht
  rw [hvalid] at hparse
  exact ⟨t, hload, hparse⟩

end Sys2Proof.Machine
end
